-- ==== Sys2Proof/Word.lean ====
section
/-! DEFINITION. The two value types of the block: the `W`-bit word (registers, `GAPMEM` cells) and the byte (`STRMEM` and
`BITMEM` cells). Rules: 00_scope.md R6 (`W = 64`), R11; 20_memory.md R50. -/

namespace Sys2Proof

/-- A `W`-bit value, `W = 64` (00_scope.md R6, decision D2): a length register or a `GAPMEM` cell. -/
abbrev Word := BitVec 64

/-- A byte: a cell of `STRMEM` or `BITMEM` (20_memory.md R50). -/
abbrev Byte := BitVec 8

end Sys2Proof
end

