-- ==== Sys2Proof/Config.lean ====
section
/-! DEFINITION. What is fixed for an instance of the block (00_scope.md R6, R7; 10_state.md R21, R43) and the free values:
what the spec leaves unspecified (93_implementation_defined.md U5 to U8). A free value has no body, so no proof sees it. -/

namespace Sys2Proof

/-- `W`: width of a gap, a position, a length register and the estimator's sum (00_scope.md R6, D2). -/
abbrev Config.W : Nat := 64

/-- `DIV_MAX = W - 1`: the largest division parameter a command accepts (00_scope.md R6, R7, D3). -/
abbrev Config.divMax : Nat := Config.W - 1

/-- `DIVW`: width of `DIV` and `RDIV` (00_scope.md R6, D3). -/
abbrev Config.divW : Nat := 8

/-- `ID_VALUE`, what the `ID` register reads (00_scope.md R6, 10_state.md R21, D32). -/
abbrev Config.idValue : BitVec 32 := 0x47524301#32

/-- The configuration string `GRC-W<W>-D<DIV_MAX>` of 00_scope.md R1. -/
def Config.name : String := "GRC-W" ++ toString Config.W ++ "-D" ++ toString Config.divMax

/-- The OPEN parameters of an instance (00_scope.md R6, D4): the cell counts of the three buffers. They are carried in
`State.params`, no step changes them, and every statement holds for all of them (log entry 1). -/
structure Params where
  /-- `GAP_DEPTH`: number of `W`-bit words in `GAPMEM`. -/
  gapDepth : Nat
  /-- `STR_BYTES`: number of bytes in `STRMEM`. -/
  strBytes : Nat
  /-- `BM_BYTES`: number of bytes in `BITMEM`. -/
  bmBytes : Nat
  deriving DecidableEq, Repr

/-- FREE VALUE (log entry 4): what a host read returns while the block is busy (93_implementation_defined.md U6, U7),
indexed by `State.freeCtr`. -/
opaque Config.freeWord : Nat → Word

/-- FREE VALUE (log entry 4): the byte a `BITMEM` cell of the output range holds after a reset that cut a `DEC` short
(93_implementation_defined.md U8), and a byte read while busy (U7), indexed by `State.freeCtr`. -/
opaque Config.freeByte : Nat → Byte

/-- FREE VALUE (log entry 5): the contents of an unlisted `GAPMEM` cell (93_implementation_defined.md U5), by the buffer's
epoch and the cell's index. -/
opaque Config.unlistedGap : Nat → Nat → Word

/-- FREE VALUE (log entry 5): the contents of an unlisted `STRMEM` cell (U5, U8), by epoch and index. -/
opaque Config.unlistedStr : Nat → Nat → Byte

/-- FREE VALUE (log entry 5): the contents of an unlisted `BITMEM` cell (U5), by epoch and index. -/
opaque Config.unlistedBm : Nat → Nat → Byte

end Sys2Proof
end

