-- ==== Sys2Proof/Syntax.lean ====
section
/-! DEFINITION. The syntax: the seven commands (30_encoding.md R96, one constructor per row of spec/opcode_table.json), the
three address spaces (20_memory.md R50) and the actions of the block's environment (30_encoding.md R100). -/

namespace Sys2Proof

/-- The legal commands (30_encoding.md R96). A command word has no operand field (R95): every operand is in a register or a
buffer, so no constructor has an argument. -/
inductive Instr where
  /-- `NOP`, `0x00000000`: complete with a clean status (43_decoder.md R161). -/
  | nop
  /-- `EST`, `0x00000001`: estimate `div` from the gaps (40_estimator.md R110). -/
  | est
  /-- `EST.O`, `0x00000011`: estimator with override (40_estimator.md R111). -/
  | estO
  /-- `ENC`, `0x00000002`: encode the gaps with `DIV` (42_encoder.md R140). -/
  | enc
  /-- `CMPR`, `0x00000003`: estimate, then encode (42_encoder.md R141). -/
  | cmpr
  /-- `CMPR.O`, `0x00000013`: `compress` with override (42_encoder.md R142). -/
  | cmprO
  /-- `DEC`, `0x00000004`: decode the payload into the bitmap (43_decoder.md R160). -/
  | dec
  deriving DecidableEq, Repr

/-- The block's address spaces (20_memory.md R50). -/
inductive Space where
  | gapmem
  | strmem
  | bitmem
  deriving DecidableEq, Repr

/-- What the environment does to the block, one item at a time in the order it is issued (20_memory.md R70): host accesses
(10_state.md R34, R35; 20_memory.md R56, R57), `WAIT` (30_encoding.md R100), reset (70_reset_and_hazards.md R220), and two
items that say how the sequencer's work is interleaved with them (log entries 2 and 3). -/
inductive Event where
  /-- `RD reg`: `RegRead(i)`. -/
  | regRead (i : Nat)
  /-- `WR reg, v`: `RegWrite(i, v)`; with `i = 1` and the block idle it starts a command (10_state.md R36), whose
  micro-steps then follow one at a time. -/
  | regWrite (i v : Nat)
  /-- `MemRead(space, addr, n)`. -/
  | memRead (space : Space) (addr n : Nat)
  /-- `MemWrite(GAPMEM, addr, n, v)`: each cell takes `trunc_W` of its value (20_memory.md R57). -/
  | memWriteGap (addr : Nat) (v : List Nat)
  /-- `MemWrite(STRMEM, addr, n, v)`. -/
  | memWriteStr (addr : Nat) (v : List Byte)
  /-- `MemWrite(BITMEM, addr, n, v)`. -/
  | memWriteBm (addr : Nat) (v : List Byte)
  /-- `WAIT`: repeat `RD STATUS` until `BUSY = 0`; between two reads the sequencer takes one micro-step. -/
  | wait
  /-- The sequencer takes its next micro-step before the host's next action. -/
  | sequencer
  /-- A command at the command level (00_scope.md R8): `WR CMD, c` and the whole command, in one step. -/
  | command (c : Nat)
  /-- Reset. -/
  | reset
  deriving DecidableEq, Repr

end Sys2Proof
end

