-- ==== Sys2Proof/WellFormed.lean ====
section
/-! DEFINITION. What the model accepts: an instance's parameters (00_scope.md R7: "A model should refuse a configuration that
breaks one of these"), a host access (10_state.md R34, R35; 20_memory.md R56, R57; 93_implementation_defined.md U10, U14) and
a command. -/

namespace Sys2Proof

/-- The constraints of 00_scope.md R7 on the OPEN parameters, `2^(W-3) = 2^61`. -/
abbrev Params.WF (p : Params) : Prop :=
  1 ≤ p.gapDepth ∧ p.gapDepth < 2 ^ Config.W ∧
  1 ≤ p.strBytes ∧ p.strBytes < 2 ^ (Config.W - 3) ∧
  1 ≤ p.bmBytes ∧ p.bmBytes < 2 ^ (Config.W - 3)

/-- The number of cells of a space (20_memory.md R50). -/
def Params.cells (p : Params) : Space → Nat
  | .gapmem => p.gapDepth
  | .strmem => p.strBytes
  | .bitmem => p.bmBytes

/-- An access of `n` cells from `addr` lies inside the space: `n >= 1` and `addr + n <=` its cell count (20_memory.md R56,
R57). -/
abbrev Params.Inside (p : Params) (space : Space) (addr n : Nat) : Prop :=
  1 ≤ n ∧ addr + n ≤ p.cells space

/-- A register number belongs to the block: 0 to 15 (10_state.md R20, R32, R34, R35). -/
abbrev RegNumber (i : Nat) : Prop := i ≤ 15

/-- A command has no operand field, so every term of `Instr` is a command (30_encoding.md R95). -/
def Instr.wellFormed : Instr → Bool
  | .nop => true
  | .est => true
  | .estO => true
  | .enc => true
  | .cmpr => true
  | .cmprO => true
  | .dec => true

/-- The host accesses the block has: the others "a model refuses" (20_memory.md R56; 93_implementation_defined.md U10, U14). -/
def Event.wellFormed (p : Params) : Event → Bool
  | .regRead i => decide (RegNumber i)
  | .regWrite i _ => decide (RegNumber i)
  | .memRead space addr n => decide (p.Inside space addr n)
  | .memWriteGap addr v => decide (p.Inside .gapmem addr v.length)
  | .memWriteStr addr v => decide (p.Inside .strmem addr v.length)
  | .memWriteBm addr v => decide (p.Inside .bitmem addr v.length)
  | .wait => true
  | .sequencer => true
  | .command _ => true
  | .reset => true

end Sys2Proof
end

