-- ==== Sys2Proof/Decode.lean ====
section
/-! DEFINITION. The command word (30_encoding.md R95 to R98): its fields, the total decoder, the encoder, and the decoder on
an opcode-table word. -/

namespace Sys2Proof

/-- Why a command word is illegal (30_encoding.md R97). The block answers each with `E_CMD` (60_exceptions.md R192). -/
inductive DecodeError where
  /-- A bit of `RSV` is set. -/
  | reservedBits
  /-- `OVR = 1` with an operation that has no override (`OP` 0, 2, 4). -/
  | illegalOverride (op : BitVec 4)
  /-- `OP` in 5 to 15. -/
  | illegalOp (op : BitVec 4)
  deriving DecidableEq, Repr

/-- `OP`, bits 3:0 (30_encoding.md R95). -/
def cmdOp (c : BitVec 32) : BitVec 4 := c.extractLsb' 0 4

/-- `OVR`, bit 4 (30_encoding.md R95). -/
def cmdOvr (c : BitVec 32) : BitVec 1 := c.extractLsb' 4 1

/-- `RSV`, bits 31:5 (30_encoding.md R95). -/
def cmdRsv (c : BitVec 32) : BitVec 27 := c.extractLsb' 5 27

/-- Decoding by fields, in the order of 30_encoding.md R98: `RSV` first, then the pair (`OP`, `OVR`). -/
def decodeFields (op : BitVec 4) (ovr : BitVec 1) (rsv : BitVec 27) : Except DecodeError Instr :=
  if rsv.toNat ≠ 0 then .error .reservedBits
  else match op.toNat, ovr.toNat with
    | 0, 0 => .ok .nop
    | 1, 0 => .ok .est
    | 1, 1 => .ok .estO
    | 2, 0 => .ok .enc
    | 3, 0 => .ok .cmpr
    | 3, 1 => .ok .cmprO
    | 4, 0 => .ok .dec
    | 0, _ => .error (.illegalOverride op)
    | 2, _ => .error (.illegalOverride op)
    | 4, _ => .error (.illegalOverride op)
    | _, _ => .error (.illegalOp op)

/-- Decoding a command word (30_encoding.md R98). -/
def decode (c : BitVec 32) : Except DecodeError Instr :=
  decodeFields (cmdOp c) (cmdOvr c) (cmdRsv c)

/-- A command word from its `OVR` and `OP` fields, `RSV = 0` (30_encoding.md R95). -/
def encodeFields (ovr : BitVec 1) (op : BitVec 4) : BitVec 32 :=
  (0 : BitVec 27) ++ ovr ++ op

/-- The `OP` and `OVR` columns of the table of 30_encoding.md R96. -/
def encode : Instr → BitVec 32
  | .nop => encodeFields 0 0
  | .est => encodeFields 0 1
  | .estO => encodeFields 1 1
  | .enc => encodeFields 0 2
  | .cmpr => encodeFields 0 3
  | .cmprO => encodeFields 1 3
  | .dec => encodeFields 0 4

/-- The command word that `nbits` bits of an opcode-table word stand for: the bits above `nbits` are 0, and `CMD` keeps 32
(10_state.md R36). -/
def tableWord (nbits w : Nat) : BitVec 32 := BitVec.ofNat 32 (w % 2 ^ nbits)

/-- What the decoder reads from an opcode-table word. A command word is one value written to `CMD` whole, so no byte order
enters. -/
def decodeTableWord (nbits w : Nat) : Option Instr :=
  match decode (tableWord nbits w) with
  | .ok i => some i
  | .error _ => none

end Sys2Proof
end

