-- ==== Sys2Proof/Machine/State.lean ====
section
/-! DEFINITION. The machine's state, every piece the spec gives it (10_state.md R20, R23, R38, R39; 20_memory.md R50), its
reset value (10_state.md R42), and the reasons a step can stop. -/

namespace Sys2Proof.Machine

/-- Error codes (60_exceptions.md R191); `success` is code 0. Codes 8 to 15 are never produced. -/
inductive ECode where
  | success
  | cmd
  | div
  | len
  | ovf
  | cap
  | trunc
  | range
  deriving DecidableEq, Repr

/-- The fields of `STATUS` (10_state.md R23). Bits 31:8 read as zero, see `statusWord`. -/
structure Status where
  busy : Bool
  done : Bool
  err : Bool
  nodata : Bool
  ecode : ECode
  deriving DecidableEq, Repr

/-- The sequencer's phases (10_state.md R38). -/
inductive Phase where
  | idle
  | check
  | estSum
  | estLog
  | encSize
  | encZero
  | encEmit
  | decZero
  | decScan
  | decRem
  | finish
  deriving DecidableEq, Repr

/-- The hidden sequencer registers (10_state.md R39), natural numbers as in the reference, and the three values `result`,
`nd`, `e` that the sequencers of 40_estimator.md R118, 42_encoder.md R150 and 43_decoder.md R170 carry to `FINISH` (log
entry 8). -/
structure Seq where
  op : BitVec 4
  ovr : BitVec 1
  rsv : BitVec 27
  d : Nat
  i : Nat
  sum : Nat
  tot : Nat
  idx : Nat
  q : Nat
  r : Nat
  j : Nat
  prefixSum : Nat
  cnt : Nat
  lastpos : Nat
  result : Nat
  nd : Bool
  e : ECode
  deriving DecidableEq, Repr

/-- A buffer: the cells whose contents are known, as (index, value) pairs with strictly rising indexes (`Memory.wf`), and the
epoch that indexes the unspecified contents of the unlisted ones (93_implementation_defined.md U5, log entry 5). For the byte
spaces a pair is a `Host.Cell`. -/
structure Memory (α : Type) where
  cells : List (Nat × α)
  epoch : Nat
  deriving DecidableEq, Repr

/-- What a host read returned: a register's value, or the cells of a buffer (10_state.md R34, 20_memory.md R56). -/
inductive ReadData where
  | reg (v : Word)
  | gaps (v : List Word)
  | bytes (v : List Byte)
  deriving DecidableEq, Repr

/-- The state of the block and, in the last three fields, of the model's environment (INVENTORY.md, State). -/
structure State where
  /-- The instance's configuration (00_scope.md R6, 10_state.md R43); no step changes it. -/
  params : Params
  /-- `CMD` (10_state.md R22). -/
  cmd : BitVec 32
  /-- `STATUS` (10_state.md R23). -/
  status : Status
  /-- `DIV` (10_state.md R24). -/
  div : BitVec 8
  /-- `NGAPS` (10_state.md R25). -/
  ngaps : Word
  /-- `STRLEN` (10_state.md R26). -/
  strlen : Word
  /-- `BITLEN` (10_state.md R27). -/
  bitlen : Word
  /-- `RDIV` (10_state.md R28). -/
  rdiv : BitVec 8
  /-- `TOTBITS` (10_state.md R29). -/
  totbits : Word
  /-- `COUNT` (10_state.md R30). -/
  count : Word
  /-- `POS` (10_state.md R31). -/
  pos : Word
  /-- `phase` (10_state.md R38). -/
  phase : Phase
  /-- The hidden registers (10_state.md R39). -/
  seq : Seq
  /-- `GAPMEM` (20_memory.md R51). -/
  gapmem : Memory Word
  /-- `STRMEM` (20_memory.md R52). -/
  strmem : Memory Byte
  /-- `BITMEM` (20_memory.md R53). -/
  bitmem : Memory Byte
  /-- MODEL: what the environment does next, in order (20_memory.md R70, log entry 3). -/
  inputs : List Event
  /-- MODEL: what the host's last read returned (log entry 3). -/
  rdata : Option ReadData
  /-- MODEL: index of the next free value (log entry 4). -/
  freeCtr : Nat
  deriving DecidableEq, Repr

/-- Why a step has no next state because the spec gives it none. -/
inductive Fault where
  /-- Raised by `EST`, `ENC`, `CMPR`, `CMPR.O` (on `GAPMEM`) and `DEC` (on `STRMEM`), and by their micro-steps, when they read a
  cell with unspecified contents: "a model should treat such a command as having no defined result (fault), not pick a value"
  (70_reset_and_hazards.md R223, 93_implementation_defined.md U5). SAFE: the hardware goes on with some value. -/
  | unwrittenCell (space : Space)
  deriving DecidableEq, Repr

/-- Why the model does not accept a step. -/
inductive Refusal where
  /-- Raised by `exec` for a command that has no meaning yet; no arm raises it. SAFE: nothing can be proved of it. -/
  | notModelled (mnemonic : String)
  /-- Raised by a host access to a register number of 16 or above, which does not belong to the block: "refuse"
  (10_state.md R32, 93_implementation_defined.md U10). SAFE: the access is no access of the block. -/
  | hostRegister
  /-- Raised by a host access to cells outside the space, or to no cell: "a model refuses it" (20_memory.md R56, R57;
  93_implementation_defined.md U14). SAFE: the access addresses nothing of the block. -/
  | hostBounds
  /-- Raised by `step` when the parameters break 00_scope.md R7: "A model should refuse a configuration that breaks one of
  these". SAFE: no such instance exists. -/
  | badConfiguration
  deriving DecidableEq, Repr

/-- Every hidden register 0 (10_state.md R40, R42). -/
def Seq.zero : Seq where
  op := 0
  ovr := 0
  rsv := 0
  d := 0
  i := 0
  sum := 0
  tot := 0
  idx := 0
  q := 0
  r := 0
  j := 0
  prefixSum := 0
  cnt := 0
  lastpos := 0
  result := 0
  nd := false
  e := .success

/-- The state after reset (10_state.md R42): registers and hidden registers 0, `phase = IDLE`, buffers unspecified (nothing
listed). The parameters are the test configuration of 95_test_vectors.md (log entry 1); the model's own fields are empty (log
entry 17). -/
def State.reset : State where
  params := ⟨16, 32, 128⟩
  cmd := 0
  status := ⟨false, false, false, false, .success⟩
  div := 0
  ngaps := 0
  strlen := 0
  bitlen := 0
  rdiv := 0
  totbits := 0
  count := 0
  pos := 0
  phase := .idle
  seq := Seq.zero
  gapmem := ⟨[], 0⟩
  strmem := ⟨[], 0⟩
  bitmem := ⟨[], 0⟩
  inputs := []
  rdata := none
  freeCtr := 0

end Sys2Proof.Machine
end

