-- ==== Sys2Proof/Machine/Flags.lean ====
section
/-! DEFINITION. The status register: error codes, its word, and the only two values commands give it, at start and at
completion (10_state.md R23, R36, R37, R41; 60_exceptions.md R191). -/

namespace Sys2Proof.Machine

/-- The value of `ECODE` for an error (60_exceptions.md R191). -/
def ecodeBits : ECode → BitVec 4
  | .success => 0
  | .cmd => 1
  | .div => 2
  | .len => 3
  | .ovf => 4
  | .cap => 5
  | .trunc => 6
  | .range => 7

/-- `STATUS` as the host reads it (10_state.md R23): `BUSY` bit 0, `DONE` bit 1, `ERR` bit 2, `NODATA` bit 3, `ECODE` bits 7:4,
bits 31:8 zero. -/
def statusWord (st : Status) : BitVec 32 :=
  (0 : BitVec 24) ++ ecodeBits st.ecode ++ BitVec.ofBool st.nodata ++ BitVec.ofBool st.err ++ BitVec.ofBool st.done
    ++ BitVec.ofBool st.busy

/-- `STATUS` after reset: 0 (10_state.md R42). -/
def statusReset : Status := ⟨false, false, false, false, .success⟩

/-- `STATUS` at a command start (10_state.md R36): only `BUSY` set. -/
def statusStarted : Status := ⟨true, false, false, false, .success⟩

/-- `STATUS` at a command's completion with error code `e` and no-data result `nd` (10_state.md R37: `nd` counts as 0 whenever
`e != 0`). -/
def statusCompleted (e : ECode) (nd : Bool) : Status :=
  ⟨false, true, decide (e ≠ .success), nd && decide (e = .success), e⟩

end Sys2Proof.Machine
end

