-- ==== Sys2Proof/Machine/Ops.lean ====
section
/-! DEFINITION. The named operations over buffers and registers (20_memory.md R56 to R62), and the life of a command: start
(10_state.md R36, R40), completion (R37) and `raise` (60_exceptions.md R196), with what stands in the place of a return (R203).
-/

namespace Sys2Proof.Machine

/-! ## Cells -/

/-- The value listed for an index. -/
def lookupCell {α : Type} : List (Nat × α) → Nat → Option α
  | [], _ => none
  | (b, v) :: rest, a => if a = b then some v else lookupCell rest a

/-- Put a value at an index, keeping indexes strictly rising. -/
def insertCell {α : Type} : List (Nat × α) → Nat → α → List (Nat × α)
  | [], a, v => [(a, v)]
  | (b, w) :: rest, a, v =>
    if a < b then (a, v) :: (b, w) :: rest
    else if a = b then (a, v) :: rest
    else (b, w) :: insertCell rest a v

/-- The canonical form of a buffer: indexes strictly rising. An unlisted cell has no value, so no listed value is redundant. -/
abbrev Memory.wf {α : Type} (m : Memory α) : Prop := (m.cells.map Prod.fst).Pairwise (· < ·)

/-- A cell's contents; `none` where they are unspecified (93_implementation_defined.md U5). -/
def Memory.read {α : Type} (m : Memory α) (a : Nat) : Option α := lookupCell m.cells a

/-- Write one cell (20_memory.md R57, R68). -/
def Memory.write {α : Type} (m : Memory α) (a : Nat) (v : α) : Memory α := { m with cells := insertCell m.cells a v }

/-- `MemRead(space, addr, n)` by the sequencer (00_scope.md R14): the `n` cells from `a`, in ascending order; `none` if one of
them is unspecified. -/
def Memory.readRange {α : Type} (m : Memory α) (a : Nat) : Nat → Option (List α)
  | 0 => some []
  | n + 1 =>
    match m.read a with
    | none => none
    | some v =>
      match m.readRange (a + 1) n with
      | none => none
      | some vs => some (v :: vs)

/-- `MemWrite(space, addr, n, v)`: the cells of `v` from `a`, in ascending order (20_memory.md R57). -/
def Memory.writeRange {α : Type} (m : Memory α) (a : Nat) : List α → Memory α
  | [] => m
  | v :: vs => (m.write a v).writeRange (a + 1) vs

/-- Write the same value to cells `a .. a+n-1` (20_memory.md R66 with the value 0). -/
def Memory.fill {α : Type} (m : Memory α) (a n : Nat) (v : α) : Memory α := m.writeRange a (List.replicate n v)

/-- The buffer after all its contents became unspecified (10_state.md R42, 70_reset_and_hazards.md R221). -/
def Memory.forget {α : Type} (m : Memory α) : Memory α := ⟨[], m.epoch + 1⟩

/-! ## Bits -/

/-- `ceil(a / 8)` (00_scope.md R12): the bytes that `a` bits occupy. -/
def ceilDiv8 (a : Nat) : Nat := (a + 7) / 8

/-- `GetBit(space, idx)` (20_memory.md R60); `none` if the byte is unspecified. -/
def getBit (m : Memory Byte) (idx : Nat) : Option Bool :=
  match m.read (idx / 8) with
  | none => none
  | some b => some (b.getLsbD (idx % 8))

/-- The read-modify-write OR of one byte (20_memory.md R61, R62, R68). ORing into a byte with unspecified contents leaves it
unspecified (log entry 11); the sequencer never does (R66, R69). -/
def orByte (m : Memory Byte) (k : Nat) (b : Byte) : Memory Byte :=
  match m.read k with
  | none => m
  | some x => m.write k (x ||| b)

/-- `SetBit(space, idx)` (20_memory.md R61). -/
def setBit (m : Memory Byte) (idx : Nat) : Memory Byte := orByte m (idx / 8) (BitVec.ofNat 8 (2 ^ (idx % 8)))

/-- The `while` loop of `PutBits` (20_memory.md R62), on fuel: each round writes at least one bit, so `n` rounds are enough. -/
def putBitsLoop : Nat → Memory Byte → Nat → Nat → Nat → Memory Byte
  | 0, m, _, _, _ => m
  | fuel + 1, m, idx, v, n =>
    if n = 0 then m
    else
      let off := idx % 8
      let span := min n (8 - off)
      putBitsLoop fuel (orByte m (idx / 8) (BitVec.ofNat 8 (v % 2 ^ span * 2 ^ off))) (idx + span) (v / 2 ^ span) (n - span)

/-- `PutBits(idx, v, n)` (20_memory.md R62): span by span, least significant bit first. -/
def putBits (m : Memory Byte) (idx v n : Nat) : Memory Byte := putBitsLoop n m idx v n

/-- How a platform that maps a `GAPMEM` word onto `W/8` bytes lays it out: least significant byte at the lowest address
(20_memory.md R55). Invisible to every command. -/
def gapWordBytes (w : Word) : List Byte := (List.range (Config.W / 8)).map fun k => w.extractLsb' (8 * k) 8

/-! ## A command's life -/

/-- The hidden registers at a command start: `op`, `ovr`, `rsv` latched (10_state.md R36), the others 0 (R40). -/
def seqLatched (c : BitVec 32) : Seq := { Seq.zero with op := cmdOp c, ovr := cmdOvr c, rsv := cmdRsv c }

/-- Command start (10_state.md R36, R40): what `RegWrite(1, c)` does while `BUSY = 0`. It also stands in the place of a return
from an error: it clears `ERR` and `ECODE` (60_exceptions.md R203). -/
def startCommand (c : Nat) (s : State) : State :=
  { s with
    cmd := BitVec.ofNat 32 c
    status := statusStarted
    phase := .check
    seq := seqLatched (BitVec.ofNat 32 c) }

/-- Command completion (10_state.md R37): the register results are in `s` already. -/
def complete (e : ECode) (nd : Bool) (s : State) : State :=
  { s with
    status := statusCompleted e nd
    phase := .idle }

/-- `raise E_X` (60_exceptions.md R196): the completion step with `ECODE = E_X`, `ERR = 1`, `NODATA = 0`; nothing is saved
anywhere else. -/
def raise (e : ECode) (s : State) : Host.Outcome State Fault Refusal := .next (complete e false s)

end Sys2Proof.Machine
end

