-- ==== Sys2Proof/Machine/Operands.lean ====
section
/-! DEFINITION. The commands' operands and their pre-checks (60_exceptions.md R193 to R195), the codeword and the reference
functions of the stream (30_encoding.md R80 to R90) and of the gap sequence (41_gap_sequence.md R131 to R133). -/

namespace Sys2Proof.Machine

/-! ## Pre-checks -/

/-- `DIV > DIV_MAX` (60_exceptions.md R193: `E_DIV`). -/
abbrev divTooLarge (s : State) : Prop := Config.divMax < s.div.toNat

/-- `NGAPS > GAP_DEPTH` (60_exceptions.md R195: `E_LEN`). -/
abbrev gapsTooLong (s : State) : Prop := s.params.gapDepth < s.ngaps.toNat

/-- The number of bytes of the bitmap, `ceil(BITLEN / 8)` (20_memory.md R53). -/
def bitmapBytes (s : State) : Nat := ceilDiv8 s.bitlen.toNat

/-- `STRLEN > STR_BYTES` or `ceil(BITLEN / 8) > BM_BYTES` (60_exceptions.md R195: `E_LEN` of `DEC`). -/
abbrev decodeTooLong (s : State) : Prop := s.params.strBytes < s.strlen.toNat ∨ s.params.bmBytes < bitmapBytes s

/-! ## Operands in buffers -/

/-- `GAPMEM[0 .. NGAPS-1]`, the gap sequence of a command (20_memory.md R51), as naturals; `none` if a cell of it is
unspecified. -/
def gapOperand (s : State) : Option (List Nat) := (s.gapmem.readRange 0 s.ngaps.toNat).map fun ws => ws.map BitVec.toNat

/-- `STRMEM[0 .. STRLEN-1]`, the payload of a command (20_memory.md R52); `none` if a byte of it is unspecified. -/
def payloadOperand (s : State) : Option (List Byte) := s.strmem.readRange 0 s.strlen.toNat

/-- Bit `idx` of a byte sequence in stream order (20_memory.md R59, R63). -/
def bitOf (bytes : List Byte) (idx : Nat) : Bool := (bytes.getD (idx / 8) 0).getLsbD (idx % 8)

/-- A byte sequence as a bit string: `8k + j` is bit `j` of byte `k` (20_memory.md R59). -/
def bitsOf (bytes : List Byte) : List Bool := (List.range (8 * bytes.length)).map (bitOf bytes)

/-! ## The codeword and the stream -/

/-- The remainder field: `n` bits of `r`, least significant first (30_encoding.md R81). -/
def remainderBits (r n : Nat) : List Bool := (List.range n).map r.testBit

/-- `Codeword(d, div)` (30_encoding.md R80): `q` zero bits, a 1, and the `div` bits of the remainder. -/
def codeword (g div : Nat) : List Bool :=
  List.replicate (g / 2 ^ div) false ++ true :: remainderBits (g % 2 ^ div) div

/-- `CwLen(d, div) = (d >> div) + 1 + div` (30_encoding.md R81). -/
def codewordLength (g div : Nat) : Nat := g / 2 ^ div + 1 + div

/-- `EncBits(g, div)` (30_encoding.md R88). -/
def encBits (gs : List Nat) (div : Nat) : List Bool := gs.flatMap fun g => codeword g div

/-- `TotalBits(g, div)` (30_encoding.md R88, 42_encoder.md R145): no wrap-around. -/
def totalBits (gs : List Nat) (div : Nat) : Nat := (gs.map fun g => codewordLength g div).sum

/-- Byte `k` of `Pack(s)` (30_encoding.md R89): the sum over `j = 0 .. 7` of `s[8k + j] * 2^j`, bits past the end being 0. -/
def packByte (s : List Bool) (k : Nat) : Byte :=
  BitVec.ofNat 8 (((List.range 8).map fun j => if s.getD (8 * k + j) false then 2 ^ j else 0).sum)

/-- `Pack(s)` (30_encoding.md R89). -/
def pack (s : List Bool) : List Byte := (List.range (ceilDiv8 s.length)).map (packByte s)

/-- `Payload(g, div) = Pack(EncBits(g, div))` (30_encoding.md R89). -/
def payload (gs : List Nat) (div : Nat) : List Byte := pack (encBits gs div)

/-! ## Reading a stream: the reference decoder on bit strings -/

/-- Step 1 of the decoder on a bit string (43_decoder.md R165, R166): the number of zero bits before the first 1 and the bits
after that 1; `none` if there is no 1. -/
def splitUnary : List Bool → Option (Nat × List Bool)
  | [] => none
  | true :: rest => some (0, rest)
  | false :: rest =>
    match splitUnary rest with
    | none => none
    | some (q, tail) => some (q + 1, tail)

/-- The value of a remainder field, first bit least significant (30_encoding.md R84). -/
def bitsValue : List Bool → Nat
  | [] => 0
  | b :: rest => b.toNat + 2 * bitsValue rest

/-- The deltas of a bit string's codewords and how the string ends: `success` when it is exhausted in a unary prefix (43_decoder.md
R166), `trunc` when a remainder field runs past the end (R167). On fuel: a codeword has at least one bit. -/
def streamDeltas (div : Nat) : Nat → List Bool → List Nat × ECode
  | 0, _ => ([], .success)
  | fuel + 1, bits =>
    match splitUnary bits with
    | none => ([], .success)
    | some (q, rest) =>
      if rest.length < div then ([], .trunc)
      else
        let tail := streamDeltas div fuel (rest.drop div)
        ((q * 2 ^ div + bitsValue (rest.take div)) :: tail.1, tail.2)

/-- The positions committed, in order, and the error code: the running sums of the deltas until one is `N` or more (43_decoder.md
R168), then the end of the stream. -/
def commitPositions (N : Nat) : Nat → List Nat → ECode → List Nat × ECode
  | _, [], e => ([], e)
  | start, delta :: rest, e =>
    if N ≤ start + delta then ([], .range)
    else
      let tail := commitPositions N (start + delta) rest e
      ((start + delta) :: tail.1, tail.2)

/-- What a `DEC` of a bit string commits and how it ends (43_decoder.md R160, R169). -/
def referenceDecode (bits : List Bool) (div N : Nat) : List Nat × ECode :=
  let deltas := streamDeltas div (bits.length + 1) bits
  commitPositions N 0 deltas.1 deltas.2

/-! ## The gap sequence -/

/-- `Positions(B)` (41_gap_sequence.md R131): the set positions of a bitmap, ascending. -/
def positions (b : List Bool) : List Nat := (List.range b.length).filter fun i => b.getD i false

/-- The differences of a sequence from a starting position. -/
def gapsFrom : Nat → List Nat → List Nat
  | _, [] => []
  | last, p :: rest => (p - last) :: gapsFrom p rest

/-- `Gaps(P)` (41_gap_sequence.md R132): `g[0] = P[0]`, `g[i] = P[i] - P[i-1]`. -/
def gapsOf (ps : List Nat) : List Nat := gapsFrom 0 ps

/-- The running sums of a sequence from a starting value. -/
def sumsFrom : Nat → List Nat → List Nat
  | _, [] => []
  | start, g :: rest => (start + g) :: sumsFrom (start + g) rest

/-- `Prefix(g)` (41_gap_sequence.md R133): `P[i] = g[0] + ... + g[i]`. -/
def runningSums (gs : List Nat) : List Nat := sumsFrom 0 gs

end Sys2Proof.Machine
end

