-- ==== Sys2Proof/Machine/Decoder.lean ====
section
/-! DEFINITION. The Rice decoder `DEC` and `NOP` (43_decoder.md). -/

namespace Sys2Proof.Machine

/-- The running values of the decode loop (43_decoder.md R160). -/
structure DecodeRun where
  idx : Nat
  prefixSum : Nat
  cnt : Nat
  lastpos : Nat
  bitmem : Memory Byte

/-- Step 1 (43_decoder.md R160, R165): `while idx < L and GetBit(STRMEM, idx) = 0: q <- q + 1; idx <- idx + 1`. Answers `idx` and
`q`, or `none` on reading an unspecified byte. On fuel `L`. -/
def scanPrefix (m : Memory Byte) (L : Nat) : Nat → Nat → Nat → Option (Nat × Nat)
  | 0, idx, q => some (idx, q)
  | fuel + 1, idx, q =>
    if idx < L then
      match getBit m idx with
      | none => none
      | some true => some (idx, q)
      | some false => scanPrefix m L fuel (idx + 1) (q + 1)
    else some (idx, q)

/-- Step 2 (43_decoder.md R160): `r = sum over t = 0 .. d-1 of GetBit(STRMEM, idx + t) * 2^t`. -/
def readRemainder (m : Memory Byte) (idx : Nat) : Nat → Option Nat
  | 0 => some 0
  | d + 1 =>
    match readRemainder m idx d with
    | none => none
    | some r =>
      match getBit m (idx + d) with
      | none => none
      | some b => some (r + b.toNat * 2 ^ d)

/-- The decode loop (43_decoder.md R160, steps 1 to 4, R165 to R168) with its error code; `none` on reading an unspecified
byte. Each round consumes at least one of the `L` bits and one more sees the end, so fuel `L + 1` is enough. -/
def decodeLoop (m : Memory Byte) (d L N : Nat) : Nat → DecodeRun → Option (DecodeRun × ECode)
  | 0, run => some (run, .success)
  | fuel + 1, run =>
    match scanPrefix m L L run.idx 0 with
    | none => none
    | some (idx, q) =>
      if idx = L then some ({ run with idx := idx }, .success)
      else if L < idx + 1 + d then some ({ run with idx := idx + 1 }, .trunc)
      else
        match readRemainder m (idx + 1) d with
        | none => none
        | some r =>
          let sum := run.prefixSum + (q * 2 ^ d + r)
          if N ≤ sum then some ({ run with idx := idx + 1 + d, prefixSum := sum }, .range)
          else
            decodeLoop m d L N fuel
              { idx := idx + 1 + d
                prefixSum := sum
                cnt := run.cnt + 1
                lastpos := sum
                bitmem := setBit run.bitmem sum }

/-- The results of a `DEC` whose pre-checks passed (43_decoder.md R160, R169): `COUNT`, `POS` and the bitmap. -/
def decodeResult (run : DecodeRun) (s : State) : State :=
  { s with
    count := BitVec.ofNat 64 run.cnt
    pos := BitVec.ofNat 64 run.lastpos
    bitmem := run.bitmem }

/-- The decode loop's values before the first round, the bitmap range zeroed (43_decoder.md R160, R174). -/
def decodeStart (s : State) : DecodeRun where
  idx := 0
  prefixSum := 0
  cnt := 0
  lastpos := 0
  bitmem := s.bitmem.fill 0 (bitmapBytes s) 0

/-- `DEC` (43_decoder.md R160). -/
def execDec (s : State) : Host.Outcome State Fault Refusal :=
  if divTooLarge s then raise .div s
  else if decodeTooLong s then raise .len s
  else if s.strlen.toNat = 0 then .next (complete .success true (decodeResult (decodeStart s) s))
  else
    let L := 8 * s.strlen.toNat
    match decodeLoop s.strmem s.div.toNat L s.bitlen.toNat (L + 1) (decodeStart s) with
    | none => .fault (.unwrittenCell .strmem)
    | some (run, e) => .next (complete e false (decodeResult run s))

/-- `NOP` (43_decoder.md R161). -/
def execNop (s : State) : Host.Outcome State Fault Refusal := .next (complete .success false s)

end Sys2Proof.Machine
end

