-- ==== Sys2Proof/Machine/Estimator.lean ====
section
/-! DEFINITION. The parameter estimator (40_estimator.md): the estimate and the commands `EST` and `EST.O`. -/

namespace Sys2Proof.Machine

/-- The scale of the threshold tables: 40 decimal places. -/
def thresholdScale : Nat := 10 ^ 40

/-- `T_0` to `T_15` of 40_estimator.md R116, `T_k = 1 / (1 - 2^(-2^(-(k + 1/2))))`, truncated to 40 decimal places (log entry 10). -/
def thresholds0 : List Nat :=
  [25809603817150708668532580653488595050038,
   46009594189098249397808951950144162885103,
   86713240408503715623723560847671896000775,
   168273363373454697103686495807756138695137,
   331470150067556544508394404560975384605355,
   657902009549949730907113984585744806515575,
   1310784873526607223343941105630788755963021,
   2616560174231478735804995033695609682022087,
   5228115562047703393095739569318772762850490,
   10451228730887231468296597406205537012550775,
   20897456265170306742792482613256606087106653,
   41789911932038526821827214217158878860515992,
   83574823564926009240918355566130110717830561,
   167144646980276496146611524308984185772322922,
   334284293885765231108878311385221845748418081,
   668563587734136581623492736175729967244515683]

/-- `T_16` to `T_31` of 40_estimator.md R116, `T_k = 1 / (1 - 2^(-2^(-(k + 1/2))))`, truncated to 40 decimal places (log entry 10). -/
def thresholds1 : List Nat :=
  [1337122175449576222949592089306788580385505081,
   2674239350889803975750454807122826486774948383,
   5348473701774933716426540843504225740513605802,
   10696942403547530315315896791013231376834901651,
   21393879807093892071863201070200789390593459580,
   42787754614187199864342105876510234185775570013,
   85575504228374107588992063620077482584611297864,
   171151003456748069108138053173558808089598403061,
   342302001913496065181353069313803954616115425820,
   684603998826992093845244620110949130572781500993,
   1369207992653984169431758480963568628331099744101,
   2738415980307968329734151582297972409819375536439,
   5476831955615936654903620474781362392412890056644,
   10953663906231873307524899604655433570737293475127,
   21907327807463746613908628536857221534370899114919,
   43814655609927493227246671737487620265182523747639]

/-- `T_32` to `T_47` of 40_estimator.md R116, `T_k = 1 / (1 - 2^(-2^(-(k + 1/2))))`, truncated to 40 decimal places (log entry 10). -/
def thresholds2 : List Nat :=
  [87629311214854986454208050806861829128584481433612,
   175258622424709972908273455279666952556278563733820,
   350517244844419945816475587392305552262111913388117,
   701034489683839891632915513201096928099001217922369,
   1402068979362679783265813195610436767985391131191044,
   2804137958720359566531617475824994991864476610026896,
   5608275917435719133063230493952050711675800393872653,
   11216551834866438266126458759055131787325024374654294,
   22433103669727876532252916403685778756636760542763027,
   44866207339450753064505832250159315104266876982253266,
   89732414678896506129011664221712509004030431912870138,
   179464829357788012258023328304121957405809202799922079,
   358929658715571024516046656538592384510492575086935059,
   717859317431137049032093313042359003870422234917415570,
   1435718634862269098064186626067305125165563012206603866,
   2871437269724533196128373252125903809043485295599094095]

/-- `T_48` to `T_63` of 40_estimator.md R116, `T_k = 1 / (1 - 2^(-2^(-(k + 1/2))))`, truncated to 40 decimal places (log entry 10). -/
def thresholds3 : List Nat :=
  [5742874539449061392256746504247454397443150226791131371,
   11485749078898117784513493008492732184564390271378734334,
   22971498157796230569026986016984376063967825451655704463,
   45942996315592456138053972033968207975355173357760526824,
   91885992631184907276107944067936143874420107942745612598,
   183771985262369809552215888135872151710695096499103504671,
   367543970524739614104431776271744235402317633305013149079,
   735087941049479223208863552543488436795098986763429368027,
   1470175882098958441417727105086976856585429833603560270988,
   2940351764197916877835454210173953704668475597245471309444,
   5880703528395833750670908420347907405085759159510118002622,
   11761407056791667496341816840695814808045922301529823697112,
   23522814113583334987683633681391629615029046594314441240158,
   47045628227166669970367267362783259229526694184256279403284,
   94091256454333339935734534725566518458787688866326257268051,
   188182512908666679866469069451133036917442527981559363766844]

/-- `T_0` to `T_63`; `T_63 > 2^64`, so no further threshold is ever reached (40_estimator.md R117). -/
def thresholds : List Nat := thresholds0 ++ thresholds1 ++ thresholds2 ++ thresholds3

/-- `EstDiv(S, n)` (40_estimator.md R113, R115, R116): 0 for `S <= n`, else the number of `k` with `T_k <= S / n`. The
truncation of the table changes no result for `S < 2^64` (log entry 10). -/
def estDiv (S n : Nat) : Nat :=
  if S ≤ n then 0 else thresholds.countP fun t => decide (t * n ≤ S * thresholdScale)

/-- `EST` (40_estimator.md R110). -/
def execEst (s : State) : Host.Outcome State Fault Refusal :=
  if gapsTooLong s then raise .len s
  else if s.ngaps.toNat = 0 then .next (complete .success true { s with rdiv := 0 })
  else
    match gapOperand s with
    | none => .fault (.unwrittenCell .gapmem)
    | some gs =>
      if 2 ^ Config.W ≤ gs.sum then raise .ovf s
      else .next (complete .success false { s with rdiv := BitVec.ofNat 8 (estDiv gs.sum s.ngaps.toNat) })

/-- `EST.O` (40_estimator.md R111). -/
def execEstO (s : State) : Host.Outcome State Fault Refusal :=
  if divTooLarge s then raise .div s
  else .next (complete .success false { s with rdiv := s.div })

end Sys2Proof.Machine
end

