-- ==== Sys2Proof/Machine/Encoder.lean ====
section
/-! DEFINITION. The Rice encoder (42_encoder.md): `EncodeCore`, `EmptyResult`, and the commands `ENC`, `CMPR`, `CMPR.O`. -/

namespace Sys2Proof.Machine

/-- One round of the emit loop (42_encoder.md R143, R148): from the buffer and the cursor `idx`, skip the `q` zero bits, set
the terminator, put the `d` bits of the remainder. -/
def emitGap (d : Nat) (acc : Memory Byte × Nat) (g : Nat) : Memory Byte × Nat :=
  let idx := acc.2 + g / 2 ^ d
  (putBits (setBit acc.1 idx) (idx + 1) (g % 2 ^ d) d, idx + 1 + d)

/-- The payload range zeroed, then every gap emitted from bit 0 (42_encoder.md R143, R147). -/
def emitStream (m : Memory Byte) (len d : Nat) (gs : List Nat) : Memory Byte :=
  (gs.foldl (emitGap d) (m.fill 0 len 0, 0)).1

/-- The results of a successful encode (42_encoder.md R143, R149). -/
def encodeResult (d : Nat) (gs : List Nat) (s : State) : State :=
  { s with
    strmem := emitStream s.strmem (ceilDiv8 (totalBits gs d)) d gs
    strlen := BitVec.ofNat 64 (ceilDiv8 (totalBits gs d))
    totbits := BitVec.ofNat 64 (totalBits gs d)
    rdiv := BitVec.ofNat 8 d }

/-- `EncodeCore(d)` (42_encoder.md R143): the capacity check of R146, then the encoding. -/
def encodeCore (d : Nat) (gs : List Nat) (s : State) : Host.Outcome State Fault Refusal :=
  if s.params.strBytes < ceilDiv8 (totalBits gs d) then raise .cap s
  else .next (complete .success false (encodeResult d gs s))

/-- `EmptyResult()` (42_encoder.md R144): no gap, empty payload, `NODATA`. -/
def emptyResult (s : State) : Host.Outcome State Fault Refusal :=
  .next (complete .success true { s with rdiv := 0, strlen := 0, totbits := 0 })

/-- Encode the gaps with `DIV`, the function that `ENC` and `CMPR.O` both name (42_encoder.md R140, R142). -/
def encodeWithDiv (s : State) : Host.Outcome State Fault Refusal :=
  if divTooLarge s then raise .div s
  else if gapsTooLong s then raise .len s
  else if s.ngaps.toNat = 0 then emptyResult s
  else
    match gapOperand s with
    | none => .fault (.unwrittenCell .gapmem)
    | some gs => encodeCore s.div.toNat gs s

/-- `ENC` (42_encoder.md R140). -/
def execEnc (s : State) : Host.Outcome State Fault Refusal := encodeWithDiv s

/-- `CMPR` (42_encoder.md R141): `DIV` is not read. -/
def execCmpr (s : State) : Host.Outcome State Fault Refusal :=
  if gapsTooLong s then raise .len s
  else if s.ngaps.toNat = 0 then emptyResult s
  else
    match gapOperand s with
    | none => .fault (.unwrittenCell .gapmem)
    | some gs =>
      if 2 ^ Config.W ≤ gs.sum then raise .ovf s
      else encodeCore (estDiv gs.sum s.ngaps.toNat) gs s

/-- `CMPR.O` (42_encoder.md R142). -/
def execCmprO (s : State) : Host.Outcome State Fault Refusal := encodeWithDiv s

end Sys2Proof.Machine
end

