-- ==== Sys2Proof/Machine/Dispatch.lean ====
section
/-! DEFINITION. The meaning of each command: from the state at its start to the state at its completion (00_scope.md R8). -/

namespace Sys2Proof.Machine

def exec (i : Instr) (s : State) : Host.Outcome State Fault Refusal :=
  match i with
  | .nop => Sys2Proof.Machine.execNop s
  | .est => Sys2Proof.Machine.execEst s
  | .estO => Sys2Proof.Machine.execEstO s
  | .enc => Sys2Proof.Machine.execEnc s
  | .cmpr => Sys2Proof.Machine.execCmpr s
  | .cmprO => Sys2Proof.Machine.execCmprO s
  | .dec => Sys2Proof.Machine.execDec s

end Sys2Proof.Machine
end

