-- ==== Sys2Proof/Machine/Sequencer.lean ====
section
/-! DEFINITION. The reference sequencer: one micro-step of the command in flight (10_state.md R38, R39; 40_estimator.md R118;
42_encoder.md R150; 43_decoder.md R170). Its grain is informative (00_scope.md R8): it ends in the completion state that `exec`
gives. -/

namespace Sys2Proof.Machine

/-- `raise E_X` in a micro-step: the completion step is next, with code `e` (60_exceptions.md R196, log entry 8). -/
def seqRaise (e : ECode) (s : State) : State := { s with phase := .finish, seq := { s.seq with e := e } }

/-- Hand over to `FINISH` with the no-data result `nd`. -/
def seqToFinish (nd : Bool) (s : State) : State := { s with phase := .finish, seq := { s.seq with nd := nd } }

/-- `CHECK` of `EST` (40_estimator.md R118). -/
def seqCheckEst (s : State) : State :=
  if gapsTooLong s then seqRaise .len s
  else if s.ngaps.toNat = 0 then seqToFinish true s
  else { s with phase := .estSum, seq := { s.seq with i := 0, sum := 0 } }

/-- `CHECK` of `EST.O` (40_estimator.md R111). -/
def seqCheckEstO (s : State) : State :=
  if divTooLarge s then seqRaise .div s
  else seqToFinish false { s with seq := { s.seq with result := s.div.toNat } }

/-- `CHECK` of `ENC` and `CMPR.O` (42_encoder.md R150). -/
def seqCheckEnc (s : State) : State :=
  if divTooLarge s then seqRaise .div s
  else if gapsTooLong s then seqRaise .len s
  else if s.ngaps.toNat = 0 then seqToFinish true s
  else { s with phase := .encSize, seq := { s.seq with d := s.div.toNat, i := 0, tot := 0 } }

/-- `CHECK` of `CMPR` (42_encoder.md R150). -/
def seqCheckCmpr (s : State) : State :=
  if gapsTooLong s then seqRaise .len s
  else if s.ngaps.toNat = 0 then seqToFinish true s
  else { s with phase := .estSum, seq := { s.seq with i := 0, sum := 0 } }

/-- The phase after the bitmap is zeroed (43_decoder.md R170). -/
def seqAfterDecZero (s : State) : State :=
  if s.strlen.toNat = 0 then seqToFinish true s else { s with phase := .decScan }

/-- `CHECK` of `DEC` (43_decoder.md R170). -/
def seqCheckDec (s : State) : State :=
  if divTooLarge s then seqRaise .div s
  else if decodeTooLong s then seqRaise .len s
  else
    let s1 := { s with seq := { s.seq with d := s.div.toNat, i := 0 } }
    if 0 < bitmapBytes s then { s1 with phase := .decZero } else seqAfterDecZero s1

/-- The command in flight, from the latched fields (10_state.md R36; 30_encoding.md R98). -/
def seqCommand (s : State) : Except DecodeError Instr := decodeFields s.seq.op s.seq.ovr s.seq.rsv

/-- `CHECK` (10_state.md R38; 60_exceptions.md R194): legality of the word first, then the command's own pre-checks. -/
def seqCheck (s : State) : State :=
  match seqCommand s with
  | .error _ => seqRaise .cmd s
  | .ok .nop => seqToFinish false s
  | .ok .est => seqCheckEst s
  | .ok .estO => seqCheckEstO s
  | .ok .enc => seqCheckEnc s
  | .ok .cmpr => seqCheckCmpr s
  | .ok .cmprO => seqCheckEnc s
  | .ok .dec => seqCheckDec s

/-- `EST_SUM` (40_estimator.md R118). The sum is compared with `2^W` after the last gap ("at the step it first happens or at
the end: same outcome", log entry 9). -/
def seqEstSum (s : State) : Host.Outcome State Fault Refusal :=
  match s.gapmem.read s.seq.i with
  | none => .fault (.unwrittenCell .gapmem)
  | some g =>
    let s1 := { s with seq := { s.seq with sum := s.seq.sum + g.toNat, i := s.seq.i + 1 } }
    if s1.seq.i = s.ngaps.toNat then
      if 2 ^ Config.W ≤ s1.seq.sum then .next (seqRaise .ovf s1) else .next { s1 with phase := .estLog }
    else .next s1

/-- `EST_LOG` (40_estimator.md R118); for `CMPR` it hands over to `ENC_SIZE` with `d <- EstDiv(sum, n)` (42_encoder.md R150). -/
def seqEstLog (s : State) : State :=
  let est := estDiv s.seq.sum s.ngaps.toNat
  match seqCommand s with
  | .ok .cmpr => { s with phase := .encSize, seq := { s.seq with d := est, i := 0, tot := 0 } }
  | _ => seqToFinish false { s with seq := { s.seq with result := est } }

/-- `ENC_SIZE` (42_encoder.md R150). -/
def seqEncSize (s : State) : Host.Outcome State Fault Refusal :=
  match s.gapmem.read s.seq.i with
  | none => .fault (.unwrittenCell .gapmem)
  | some g =>
    let s1 := { s with seq := { s.seq with tot := s.seq.tot + codewordLength g.toNat s.seq.d, i := s.seq.i + 1 } }
    if s1.seq.i = s.ngaps.toNat then
      if s.params.strBytes < ceilDiv8 s1.seq.tot then .next (seqRaise .cap s1)
      else .next { s1 with phase := .encZero, seq := { s1.seq with i := 0 } }
    else .next s1

/-- `ENC_ZERO` (42_encoder.md R150). -/
def seqEncZero (s : State) : State :=
  let s1 := { s with strmem := s.strmem.write s.seq.i 0, seq := { s.seq with i := s.seq.i + 1 } }
  if s1.seq.i = ceilDiv8 s.seq.tot then { s1 with phase := .encEmit, seq := { s1.seq with i := 0, idx := 0 } } else s1

/-- `ENC_EMIT` (42_encoder.md R150): one round of the loop of R143. -/
def seqEncEmit (s : State) : Host.Outcome State Fault Refusal :=
  match s.gapmem.read s.seq.i with
  | none => .fault (.unwrittenCell .gapmem)
  | some g =>
    let out := emitGap s.seq.d (s.strmem, s.seq.idx) g.toNat
    let s1 := { s with strmem := out.1, seq := { s.seq with idx := out.2, i := s.seq.i + 1 } }
    if s1.seq.i = s.ngaps.toNat then .next (seqToFinish false s1) else .next s1

/-- `DEC_ZERO` (43_decoder.md R170). -/
def seqDecZero (s : State) : State :=
  let s1 := { s with bitmem := s.bitmem.write s.seq.i 0, seq := { s.seq with i := s.seq.i + 1 } }
  if s1.seq.i = bitmapBytes s then seqAfterDecZero s1 else s1

/-- `DEC_SCAN` (43_decoder.md R170), `L = 8 * STRLEN`. -/
def seqDecScan (s : State) : Host.Outcome State Fault Refusal :=
  if s.seq.idx = 8 * s.strlen.toNat then .next (seqToFinish false s)
  else
    match getBit s.strmem s.seq.idx with
    | none => .fault (.unwrittenCell .strmem)
    | some b =>
      let s1 := { s with seq := { s.seq with idx := s.seq.idx + 1 } }
      if b = false then .next { s1 with seq := { s1.seq with q := s.seq.q + 1 } }
      else if 8 * s.strlen.toNat < s1.seq.idx + s.seq.d then .next (seqRaise .trunc s1)
      else .next { s1 with phase := .decRem, seq := { s1.seq with r := 0, j := 0 } }

/-- `DEC_REM` (43_decoder.md R170): one remainder bit, or the commit. -/
def seqDecRem (s : State) : Host.Outcome State Fault Refusal :=
  if s.seq.j < s.seq.d then
    match getBit s.strmem s.seq.idx with
    | none => .fault (.unwrittenCell .strmem)
    | some b =>
      .next { s with seq := { s.seq with r := s.seq.r + b.toNat * 2 ^ s.seq.j, idx := s.seq.idx + 1, j := s.seq.j + 1 } }
  else
    let s1 := { s with seq := { s.seq with prefixSum := s.seq.prefixSum + (s.seq.q * 2 ^ s.seq.d + s.seq.r) } }
    if s.bitlen.toNat ≤ s1.seq.prefixSum then .next (seqRaise .range s1)
    else
      .next
        { s1 with
          bitmem := setBit s.bitmem s1.seq.prefixSum
          phase := .decScan
          seq := { s1.seq with cnt := s.seq.cnt + 1, lastpos := s1.seq.prefixSum, q := 0 } }

/-- The register results that `FINISH` commits: those of the command's rule on success (10_state.md R37), `COUNT` and `POS` also
on the two run-time errors of `DEC` (10_state.md R30, R31; 60_exceptions.md R196), nothing on any other error. -/
def seqResults (s : State) : State :=
  match seqCommand s, s.seq.e with
  | .ok .est, .success => { s with rdiv := BitVec.ofNat 8 s.seq.result }
  | .ok .estO, .success => { s with rdiv := BitVec.ofNat 8 s.seq.result }
  | .ok .enc, .success => seqEncResults s
  | .ok .cmpr, .success => seqEncResults s
  | .ok .cmprO, .success => seqEncResults s
  | .ok .dec, .success => seqDecResults s
  | .ok .dec, .trunc => seqDecResults s
  | .ok .dec, .range => seqDecResults s
  | _, _ => s
where
  /-- `STRLEN <- len; TOTBITS <- tot; RDIV <- d` (42_encoder.md R150), all 0 for the empty result (R144). -/
  seqEncResults (s : State) : State :=
    { s with
      strlen := BitVec.ofNat 64 (ceilDiv8 s.seq.tot)
      totbits := BitVec.ofNat 64 s.seq.tot
      rdiv := BitVec.ofNat 8 s.seq.d }
  /-- `COUNT <- cnt; POS <- lastpos` (43_decoder.md R170). -/
  seqDecResults (s : State) : State :=
    { s with
      count := BitVec.ofNat 64 s.seq.cnt
      pos := BitVec.ofNat 64 s.seq.lastpos }

/-- `FINISH` (10_state.md R37, R38): commit the register results, then the completion step. -/
def seqFinish (s : State) : State := complete s.seq.e s.seq.nd (seqResults s)

/-- One micro-step of the sequencer (10_state.md R38); idle, it waits. -/
def seqStep (s : State) : Host.Outcome State Fault Refusal :=
  match s.phase with
  | .idle => .next s
  | .check => .next (seqCheck s)
  | .estSum => seqEstSum s
  | .estLog => .next (seqEstLog s)
  | .encSize => seqEncSize s
  | .encZero => .next (seqEncZero s)
  | .encEmit => seqEncEmit s
  | .decZero => .next (seqDecZero s)
  | .decScan => seqDecScan s
  | .decRem => seqDecRem s
  | .finish => .next (seqFinish s)

/-- `k` micro-steps, stopping at a fault. -/
def seqRun : Nat → State → Host.Outcome State Fault Refusal
  | 0, s => .next s
  | k + 1, s =>
    match seqStep s with
    | .next t => seqRun k t
    | .fault r => .fault r
    | .refused r => .refused r

end Sys2Proof.Machine
end

