-- ==== Sys2Proof/Machine/HostPort.lean ====
section
/-! DEFINITION. What the environment does to the block: register and buffer access (10_state.md R34, R35; 20_memory.md R56 to
R58), commands at the command level (00_scope.md R8), `WAIT` and the pseudo-operations (30_encoding.md R100, R101), and reset
(70_reset_and_hazards.md R220, R221). -/

namespace Sys2Proof.Machine

/-! ## Registers -/

/-- The value of register `i`, zero-extended (10_state.md R20 to R32); the reserved numbers 11 to 15 read 0. -/
def regValue (s : State) (i : Nat) : Word :=
  match i with
  | 0 => Config.idValue.setWidth 64
  | 1 => s.cmd.setWidth 64
  | 2 => (statusWord s.status).setWidth 64
  | 3 => s.div.setWidth 64
  | 4 => s.ngaps
  | 5 => s.strlen
  | 6 => s.bitlen
  | 7 => s.rdiv.setWidth 64
  | 8 => s.totbits
  | 9 => s.count
  | 10 => s.pos
  | _ => 0

/-- `RegRead(i)` (10_state.md R34): no register changes. While busy only `ID` and `STATUS` return their values, any other number
a free value (93_implementation_defined.md U6, log entry 4). -/
def regRead (i : Nat) (s : State) : State :=
  if s.status.busy = false ∨ i = 0 ∨ i = 2 then { s with rdata := some (.reg (regValue s i)) }
  else { s with rdata := some (.reg (Config.freeWord s.freeCtr)), freeCtr := s.freeCtr + 1 }

/-- `RegWrite(i, v)` (10_state.md R35, R36): ignored while busy; a write to `CMD` starts a command; writes to read-only and
reserved registers are ignored. -/
def regWrite (i v : Nat) (s : State) : State :=
  if s.status.busy then s
  else
    match i with
    | 1 => startCommand v s
    | 3 => { s with div := BitVec.ofNat 8 v }
    | 4 => { s with ngaps := BitVec.ofNat 64 v }
    | 5 => { s with strlen := BitVec.ofNat 64 v }
    | 6 => { s with bitlen := BitVec.ofNat 64 v }
    | _ => s

/-! ## Buffers -/

/-- What cells `addr .. addr+n-1` of a space hold, an unlisted cell holding the free value of its epoch and index
(93_implementation_defined.md U5, log entry 5). -/
def cellValues {α : Type} (unlisted : Nat → Nat → α) (m : Memory α) (addr n : Nat) : List α :=
  (List.range n).map fun k => (m.read (addr + k)).getD (unlisted m.epoch (addr + k))

/-- `n` free values from a counter. -/
def freeValues {α : Type} (free : Nat → α) (ctr n : Nat) : List α := (List.range n).map fun k => free (ctr + k)

/-- `MemRead(space, addr, n)` by the host (20_memory.md R56); while busy it returns free values (R58, U7). -/
def memRead (space : Space) (addr n : Nat) (s : State) : State :=
  if s.status.busy then
    match space with
    | .gapmem => { s with rdata := some (.gaps (freeValues Config.freeWord s.freeCtr n)), freeCtr := s.freeCtr + n }
    | .strmem => { s with rdata := some (.bytes (freeValues Config.freeByte s.freeCtr n)), freeCtr := s.freeCtr + n }
    | .bitmem => { s with rdata := some (.bytes (freeValues Config.freeByte s.freeCtr n)), freeCtr := s.freeCtr + n }
  else
    match space with
    | .gapmem => { s with rdata := some (.gaps (cellValues Config.unlistedGap s.gapmem addr n)) }
    | .strmem => { s with rdata := some (.bytes (cellValues Config.unlistedStr s.strmem addr n)) }
    | .bitmem => { s with rdata := some (.bytes (cellValues Config.unlistedBm s.bitmem addr n)) }

/-- `MemWrite(GAPMEM, addr, n, v)` (20_memory.md R57, R58). -/
def memWriteGap (addr : Nat) (v : List Nat) (s : State) : State :=
  if s.status.busy then s else { s with gapmem := s.gapmem.writeRange addr (v.map (BitVec.ofNat 64)) }

/-- `MemWrite(STRMEM, addr, n, v)` (20_memory.md R57, R58). -/
def memWriteStr (addr : Nat) (v : List Byte) (s : State) : State :=
  if s.status.busy then s else { s with strmem := s.strmem.writeRange addr v }

/-- `MemWrite(BITMEM, addr, n, v)` (20_memory.md R57, R58). -/
def memWriteBm (addr : Nat) (v : List Byte) (s : State) : State :=
  if s.status.busy then s else { s with bitmem := s.bitmem.writeRange addr v }

/-! ## Commands and WAIT -/

/-- The command level (00_scope.md R8, log entry 2): `WR CMD, c` and the command up to its completion state. An illegal word
completes with `E_CMD` (60_exceptions.md R192). While busy the write is ignored (10_state.md R35) and the host waits. -/
def runCommand (c : Nat) (s : State) : Host.Outcome State Fault Refusal :=
  if s.status.busy then .next { s with inputs := .wait :: s.inputs }
  else
    match decode (BitVec.ofNat 32 c) with
    | .ok i => exec i (startCommand c s)
    | .error _ => raise .cmd (startCommand c s)

/-- `WAIT` (30_encoding.md R100, log entry 3): read `STATUS`; if `BUSY` was 1 the sequencer takes a micro-step and the host reads
again. -/
def waitStep (s : State) : Host.Outcome State Fault Refusal :=
  if s.status.busy then seqStep (regRead 2 { s with inputs := .wait :: s.inputs }) else .next (regRead 2 s)

/-! ## Reset -/

/-- The state of 10_state.md R42 with the buffers given; configuration and environment stay. -/
def resetWith (gapmem : Memory Word) (strmem bitmem : Memory Byte) (freeCtr : Nat) (s : State) : State :=
  { State.reset with
    params := s.params
    gapmem := gapmem
    strmem := strmem
    bitmem := bitmem
    inputs := s.inputs
    rdata := s.rdata
    freeCtr := freeCtr }

/-- The number of bytes of the bitmap range a reset of a `DEC` leaves unspecified, none beyond the buffer (70_reset_and_hazards.md
R221). -/
def abortedBytes (s : State) : Nat := min (bitmapBytes s) s.params.bmBytes

/-- Reset during a command (70_reset_and_hazards.md R221): the output range of `ENC`, `CMPR`, `CMPR.O` is all of `STRMEM`, that of
`DEC` is the bitmap range; all other cells keep their values. The bitmap cells get free values (U8, log entry 6). -/
def abortCommand (s : State) : State :=
  match seqCommand s with
  | .ok .enc => resetWith s.gapmem s.strmem.forget s.bitmem s.freeCtr s
  | .ok .cmpr => resetWith s.gapmem s.strmem.forget s.bitmem s.freeCtr s
  | .ok .cmprO => resetWith s.gapmem s.strmem.forget s.bitmem s.freeCtr s
  | .ok .dec =>
    resetWith s.gapmem s.strmem (s.bitmem.writeRange 0 (freeValues Config.freeByte s.freeCtr (abortedBytes s)))
      (s.freeCtr + abortedBytes s) s
  | _ => resetWith s.gapmem s.strmem s.bitmem s.freeCtr s

/-- Reset (70_reset_and_hazards.md R220): while idle, all buffer contents become unspecified (10_state.md R42, log entry 6). -/
def resetBlock (s : State) : State :=
  if s.status.busy then abortCommand s
  else resetWith s.gapmem.forget s.strmem.forget s.bitmem.forget s.freeCtr s

/-! ## One item of the environment -/

/-- What one item of the environment does (its form checked by `Event.wellFormed`). -/
def acceptEvent (ev : Event) (s : State) : Host.Outcome State Fault Refusal :=
  match ev with
  | .regRead i => .next (regRead i s)
  | .regWrite i v => .next (regWrite i v s)
  | .memRead space addr n => .next (memRead space addr n s)
  | .memWriteGap addr v => .next (memWriteGap addr v s)
  | .memWriteStr addr v => .next (memWriteStr addr v s)
  | .memWriteBm addr v => .next (memWriteBm addr v s)
  | .wait => waitStep s
  | .sequencer => seqStep s
  | .command c => runCommand c s
  | .reset => .next (resetBlock s)

/-- Which refusal answers a host access the block does not have (93_implementation_defined.md U10, U14). -/
def accessRefusal (ev : Event) : Refusal :=
  match ev with
  | .regRead _ => .hostRegister
  | .regWrite _ _ => .hostRegister
  | _ => .hostBounds

/-- One step of the block (20_memory.md R70): the next item of the environment; with none pending, the sequencer's next
micro-step, which while idle is no change (70_reset_and_hazards.md R220). -/
def blockStep (s : State) : Host.Outcome State Fault Refusal :=
  if s.params.WF then
    match s.inputs with
    | [] => seqStep s
    | ev :: rest =>
      if ev.wellFormed s.params then acceptEvent ev { s with inputs := rest } else .refused (accessRefusal ev)
  else .refused .badConfiguration

/-! ## Programs -/

/-- `COMPRESS [g0, ..., g(n-1)]` (30_encoding.md R101). -/
def compressProgram (gs : List Nat) : List Event :=
  (List.range gs.length).map (fun i => Event.memWriteGap i [gs.getD i 0]) ++
    [.regWrite 4 gs.length, .regWrite 1 (encode .cmpr).toNat, .wait]

/-- `COMPRESS [g0, ..., g(n-1)], div` (30_encoding.md R101). -/
def compressDivProgram (gs : List Nat) (div : Nat) : List Event :=
  (List.range gs.length).map (fun i => Event.memWriteGap i [gs.getD i 0]) ++
    [.regWrite 4 gs.length, .regWrite 3 div, .regWrite 1 (encode .cmprO).toNat, .wait]

/-- `DECOMPRESS [b0, ..., b(m-1)], div, N` (30_encoding.md R101). -/
def decompressProgram (bytes : List Byte) (div N : Nat) : List Event :=
  (List.range bytes.length).map (fun k => Event.memWriteStr k [bytes.getD k 0]) ++
    [.regWrite 5 bytes.length, .regWrite 3 div, .regWrite 6 N, .regWrite 1 (encode .dec).toNat, .wait]

end Sys2Proof.Machine
end

