-- ==== Sys2Proof/Machine/Step.lean ====
section
/-! DEFINITION. The step of the machine, and the placing of a command where the next step takes it (log entry 2). -/

namespace Sys2Proof.Machine

/-- One step (20_memory.md R70), see `blockStep`. -/
def step (s : State) : Host.Outcome State Fault Refusal := blockStep s

/-- The state with a command word placed as the environment's next item and the block idle, so that the next step runs it from
start to completion. Where the block does not fetch, this is what stands for fetching (10_state.md R38, R43). -/
def State.withFetchWord (s : State) (nbits w : Nat) : State :=
  { s with
    inputs := .command (tableWord nbits w).toNat :: s.inputs
    status := { s.status with busy := false }
    phase := .idle }

end Sys2Proof.Machine
end

