-- ==== Sys2Proof/Safety.lean ====
section
/-! DEFINITION. The terms claims are stated in: the operands a command needs (70_reset_and_hazards.md R223), a safe step, what the
host can see of a state (10_state.md R39), the legal status values (10_state.md R33), and the invariant of every step. -/

namespace Sys2Proof.Machine

/-! ## Operands and safe runs -/

/-- Cells `0 .. n-1` of a buffer have known contents. -/
abbrev Memory.knownTo {α : Type} (m : Memory α) (n : Nat) : Prop := ∀ k, k < n → (m.read k).isSome = true

/-- The buffer contents that "must be valid at the CMD write" (70_reset_and_hazards.md R223). -/
def operandsReady (i : Instr) (s : State) : Prop :=
  match i with
  | .nop => True
  | .est => s.gapmem.knownTo s.ngaps.toNat
  | .estO => True
  | .enc => s.gapmem.knownTo s.ngaps.toNat
  | .cmpr => s.gapmem.knownTo s.ngaps.toNat
  | .cmprO => s.gapmem.knownTo s.ngaps.toNat
  | .dec => s.strmem.knownTo s.strlen.toNat

/-- A step that has a next state: no command reads a cell with unspecified contents, no access outside the block. -/
def SafeStep (s : State) : Prop := ∃ t, step s = .next t

/-! ## What the host can see -/

/-- A state without its hidden working registers: "no host access reaches them and a program sees them only through the
completion state" (10_state.md R39). -/
def visible (s : State) : State := { s with seq := Seq.zero }

/-- Two outcomes that differ at most in the hidden working registers. -/
def SameVisible : Host.Outcome State Fault Refusal → Host.Outcome State Fault Refusal → Prop
  | .next a, .next b => visible a = visible b
  | .fault a, .fault b => a = b
  | .refused a, .refused b => a = b
  | _, _ => False

/-- The bound of 70_reset_and_hazards.md R232 on the reference sequencer's micro-steps, from the completion state. -/
def microStepBound (i : Instr) (t : State) : Nat :=
  match i with
  | .nop => 2
  | .estO => 2
  | .est => t.ngaps.toNat + 3
  | .enc => 2 * t.ngaps.toNat + t.strlen.toNat + 2
  | .cmprO => 2 * t.ngaps.toNat + t.strlen.toNat + 2
  | .cmpr => 3 * t.ngaps.toNat + t.strlen.toNat + 3
  | .dec => bitmapBytes t + 8 * t.strlen.toNat + t.count.toNat + 3

/-! ## Invariants -/

/-- The `STATUS` invariants of 10_state.md R33 (bits 31:8 are those of `statusWord`). -/
structure StatusLegal (st : Status) : Prop where
  notBusyAndDone : ¬(st.busy = true ∧ st.done = true)
  errIffCode : st.err = true ↔ st.ecode ≠ .success
  busyClears : st.busy = true → st.done = false ∧ st.err = false ∧ st.nodata = false ∧ st.ecode = .success
  errDone : st.err = true → st.done = true

/-- A buffer lists only cells it has, in the canonical form. -/
structure BufferLegal {α : Type} (m : Memory α) (cells : Nat) : Prop where
  canonical : m.wf
  inside : ∀ c ∈ m.cells, c.1 < cells

/-- The stream bits of the `n` gaps from `GAPMEM[a]` on are `bits` in number, with the divisor in effect; the gaps are known. -/
def StreamBits (s : State) (a n bits : Nat) : Prop :=
  ∃ ws, s.gapmem.readRange a n = some ws ∧ totalBits (ws.map BitVec.toNat) s.seq.d = bits

/-- What each phase keeps so that every access the sequencer makes next is inside the space it addresses and what it ORs into is
known (20_memory.md R66, R69): the bounds of 10_state.md R39, what `tot` and `idx` count (42_encoder.md R143), and at `CHECK`
the hidden registers as R40 sets them. -/
def PhaseLegal (s : State) : Prop :=
  match s.phase with
  | .idle => True
  | .check => s.seq = { Seq.zero with op := s.seq.op, ovr := s.seq.ovr, rsv := s.seq.rsv }
  | .estSum => s.seq.i < s.ngaps.toNat ∧ s.ngaps.toNat ≤ s.params.gapDepth
  | .estLog => 0 < s.ngaps.toNat ∧ s.ngaps.toNat ≤ s.params.gapDepth ∧ s.seq.sum < 2 ^ Config.W
  | .encSize => s.seq.i < s.ngaps.toNat ∧ s.ngaps.toNat ≤ s.params.gapDepth ∧ StreamBits s 0 s.seq.i s.seq.tot
  | .encZero => 0 < s.ngaps.toNat ∧ s.ngaps.toNat ≤ s.params.gapDepth ∧ s.seq.i < ceilDiv8 s.seq.tot ∧
      ceilDiv8 s.seq.tot ≤ s.params.strBytes ∧ StreamBits s 0 s.ngaps.toNat s.seq.tot ∧ s.strmem.knownTo s.seq.i
  | .encEmit => s.seq.i < s.ngaps.toNat ∧ s.ngaps.toNat ≤ s.params.gapDepth ∧ ceilDiv8 s.seq.tot ≤ s.params.strBytes ∧
      s.seq.idx ≤ s.seq.tot ∧ StreamBits s s.seq.i (s.ngaps.toNat - s.seq.i) (s.seq.tot - s.seq.idx) ∧
      s.strmem.knownTo (ceilDiv8 s.seq.tot)
  | .decZero => s.seq.i < bitmapBytes s ∧ bitmapBytes s ≤ s.params.bmBytes ∧ s.strlen.toNat ≤ s.params.strBytes ∧
      s.seq.idx = 0 ∧ s.bitmem.knownTo s.seq.i
  | .decScan => s.seq.idx ≤ 8 * s.strlen.toNat ∧ s.strlen.toNat ≤ s.params.strBytes ∧
      bitmapBytes s ≤ s.params.bmBytes ∧ s.bitmem.knownTo (bitmapBytes s)
  | .decRem => s.seq.j ≤ s.seq.d ∧ s.seq.idx + (s.seq.d - s.seq.j) ≤ 8 * s.strlen.toNat ∧
      s.strlen.toNat ≤ s.params.strBytes ∧ bitmapBytes s ≤ s.params.bmBytes ∧ s.bitmem.knownTo (bitmapBytes s)
  | .finish => True

/-- The invariant every step keeps. -/
structure Inv (s : State) : Prop where
  params : s.params.WF
  status : StatusLegal s.status
  /-- `BUSY = 1` iff `phase != IDLE` (10_state.md R38). -/
  busyPhase : s.status.busy = true ↔ s.phase ≠ .idle
  gapmem : BufferLegal s.gapmem s.params.gapDepth
  strmem : BufferLegal s.strmem s.params.strBytes
  bitmem : BufferLegal s.bitmem s.params.bmBytes
  /-- `RDIV` is at most `DIV_MAX` (10_state.md R28). -/
  rdivLegal : s.rdiv.toNat ≤ Config.divMax
  /-- `d <= DIV_MAX` (10_state.md R39). -/
  divInEffect : s.seq.d ≤ Config.divMax
  /-- The estimate carried to `FINISH` is at most `DIV_MAX` (40_estimator.md R117). -/
  estimate : s.seq.result ≤ Config.divMax
  phase : PhaseLegal s

end Sys2Proof.Machine
end

