-- ==== Sys2Proof/Laws/State.lean ====
section
/-! SUPPORT. What each state update writes and what it leaves: one lemma per field per update, true by rfl. -/

namespace Sys2Proof.Machine

@[simp] theorem complete_params (e : ECode) (nd : Bool) (s : State) : (complete e nd s).params = s.params := rfl
@[simp] theorem complete_cmd (e : ECode) (nd : Bool) (s : State) : (complete e nd s).cmd = s.cmd := rfl
@[simp] theorem complete_status (e : ECode) (nd : Bool) (s : State) : (complete e nd s).status = statusCompleted e nd := rfl
@[simp] theorem complete_div (e : ECode) (nd : Bool) (s : State) : (complete e nd s).div = s.div := rfl
@[simp] theorem complete_ngaps (e : ECode) (nd : Bool) (s : State) : (complete e nd s).ngaps = s.ngaps := rfl
@[simp] theorem complete_strlen (e : ECode) (nd : Bool) (s : State) : (complete e nd s).strlen = s.strlen := rfl
@[simp] theorem complete_bitlen (e : ECode) (nd : Bool) (s : State) : (complete e nd s).bitlen = s.bitlen := rfl
@[simp] theorem complete_rdiv (e : ECode) (nd : Bool) (s : State) : (complete e nd s).rdiv = s.rdiv := rfl
@[simp] theorem complete_totbits (e : ECode) (nd : Bool) (s : State) : (complete e nd s).totbits = s.totbits := rfl
@[simp] theorem complete_count (e : ECode) (nd : Bool) (s : State) : (complete e nd s).count = s.count := rfl
@[simp] theorem complete_pos (e : ECode) (nd : Bool) (s : State) : (complete e nd s).pos = s.pos := rfl
@[simp] theorem complete_phase (e : ECode) (nd : Bool) (s : State) : (complete e nd s).phase = .idle := rfl
@[simp] theorem complete_seq (e : ECode) (nd : Bool) (s : State) : (complete e nd s).seq = s.seq := rfl
@[simp] theorem complete_gapmem (e : ECode) (nd : Bool) (s : State) : (complete e nd s).gapmem = s.gapmem := rfl
@[simp] theorem complete_strmem (e : ECode) (nd : Bool) (s : State) : (complete e nd s).strmem = s.strmem := rfl
@[simp] theorem complete_bitmem (e : ECode) (nd : Bool) (s : State) : (complete e nd s).bitmem = s.bitmem := rfl
@[simp] theorem complete_inputs (e : ECode) (nd : Bool) (s : State) : (complete e nd s).inputs = s.inputs := rfl
@[simp] theorem complete_rdata (e : ECode) (nd : Bool) (s : State) : (complete e nd s).rdata = s.rdata := rfl
@[simp] theorem complete_freeCtr (e : ECode) (nd : Bool) (s : State) : (complete e nd s).freeCtr = s.freeCtr := rfl

@[simp] theorem startCommand_params (c : Nat) (s : State) : (startCommand c s).params = s.params := rfl
@[simp] theorem startCommand_cmd (c : Nat) (s : State) : (startCommand c s).cmd = BitVec.ofNat 32 c := rfl
@[simp] theorem startCommand_status (c : Nat) (s : State) : (startCommand c s).status = statusStarted := rfl
@[simp] theorem startCommand_div (c : Nat) (s : State) : (startCommand c s).div = s.div := rfl
@[simp] theorem startCommand_ngaps (c : Nat) (s : State) : (startCommand c s).ngaps = s.ngaps := rfl
@[simp] theorem startCommand_strlen (c : Nat) (s : State) : (startCommand c s).strlen = s.strlen := rfl
@[simp] theorem startCommand_bitlen (c : Nat) (s : State) : (startCommand c s).bitlen = s.bitlen := rfl
@[simp] theorem startCommand_rdiv (c : Nat) (s : State) : (startCommand c s).rdiv = s.rdiv := rfl
@[simp] theorem startCommand_totbits (c : Nat) (s : State) : (startCommand c s).totbits = s.totbits := rfl
@[simp] theorem startCommand_count (c : Nat) (s : State) : (startCommand c s).count = s.count := rfl
@[simp] theorem startCommand_pos (c : Nat) (s : State) : (startCommand c s).pos = s.pos := rfl
@[simp] theorem startCommand_phase (c : Nat) (s : State) : (startCommand c s).phase = .check := rfl
@[simp] theorem startCommand_seq (c : Nat) (s : State) : (startCommand c s).seq = seqLatched (BitVec.ofNat 32 c) := rfl
@[simp] theorem startCommand_gapmem (c : Nat) (s : State) : (startCommand c s).gapmem = s.gapmem := rfl
@[simp] theorem startCommand_strmem (c : Nat) (s : State) : (startCommand c s).strmem = s.strmem := rfl
@[simp] theorem startCommand_bitmem (c : Nat) (s : State) : (startCommand c s).bitmem = s.bitmem := rfl
@[simp] theorem startCommand_inputs (c : Nat) (s : State) : (startCommand c s).inputs = s.inputs := rfl
@[simp] theorem startCommand_rdata (c : Nat) (s : State) : (startCommand c s).rdata = s.rdata := rfl
@[simp] theorem startCommand_freeCtr (c : Nat) (s : State) : (startCommand c s).freeCtr = s.freeCtr := rfl

@[simp] theorem encodeResult_params (d : Nat) (gs : List Nat) (s : State) : (encodeResult d gs s).params = s.params := rfl
@[simp] theorem encodeResult_cmd (d : Nat) (gs : List Nat) (s : State) : (encodeResult d gs s).cmd = s.cmd := rfl
@[simp] theorem encodeResult_status (d : Nat) (gs : List Nat) (s : State) : (encodeResult d gs s).status = s.status := rfl
@[simp] theorem encodeResult_div (d : Nat) (gs : List Nat) (s : State) : (encodeResult d gs s).div = s.div := rfl
@[simp] theorem encodeResult_ngaps (d : Nat) (gs : List Nat) (s : State) : (encodeResult d gs s).ngaps = s.ngaps := rfl
@[simp] theorem encodeResult_strlen (d : Nat) (gs : List Nat) (s : State) : (encodeResult d gs s).strlen = BitVec.ofNat 64 (ceilDiv8 (totalBits gs d)) := rfl
@[simp] theorem encodeResult_bitlen (d : Nat) (gs : List Nat) (s : State) : (encodeResult d gs s).bitlen = s.bitlen := rfl
@[simp] theorem encodeResult_rdiv (d : Nat) (gs : List Nat) (s : State) : (encodeResult d gs s).rdiv = BitVec.ofNat 8 d := rfl
@[simp] theorem encodeResult_totbits (d : Nat) (gs : List Nat) (s : State) : (encodeResult d gs s).totbits = BitVec.ofNat 64 (totalBits gs d) := rfl
@[simp] theorem encodeResult_count (d : Nat) (gs : List Nat) (s : State) : (encodeResult d gs s).count = s.count := rfl
@[simp] theorem encodeResult_pos (d : Nat) (gs : List Nat) (s : State) : (encodeResult d gs s).pos = s.pos := rfl
@[simp] theorem encodeResult_phase (d : Nat) (gs : List Nat) (s : State) : (encodeResult d gs s).phase = s.phase := rfl
@[simp] theorem encodeResult_seq (d : Nat) (gs : List Nat) (s : State) : (encodeResult d gs s).seq = s.seq := rfl
@[simp] theorem encodeResult_gapmem (d : Nat) (gs : List Nat) (s : State) : (encodeResult d gs s).gapmem = s.gapmem := rfl
@[simp] theorem encodeResult_strmem (d : Nat) (gs : List Nat) (s : State) : (encodeResult d gs s).strmem = emitStream s.strmem (ceilDiv8 (totalBits gs d)) d gs := rfl
@[simp] theorem encodeResult_bitmem (d : Nat) (gs : List Nat) (s : State) : (encodeResult d gs s).bitmem = s.bitmem := rfl
@[simp] theorem encodeResult_inputs (d : Nat) (gs : List Nat) (s : State) : (encodeResult d gs s).inputs = s.inputs := rfl
@[simp] theorem encodeResult_rdata (d : Nat) (gs : List Nat) (s : State) : (encodeResult d gs s).rdata = s.rdata := rfl
@[simp] theorem encodeResult_freeCtr (d : Nat) (gs : List Nat) (s : State) : (encodeResult d gs s).freeCtr = s.freeCtr := rfl

@[simp] theorem decodeResult_params (run : DecodeRun) (s : State) : (decodeResult run s).params = s.params := rfl
@[simp] theorem decodeResult_cmd (run : DecodeRun) (s : State) : (decodeResult run s).cmd = s.cmd := rfl
@[simp] theorem decodeResult_status (run : DecodeRun) (s : State) : (decodeResult run s).status = s.status := rfl
@[simp] theorem decodeResult_div (run : DecodeRun) (s : State) : (decodeResult run s).div = s.div := rfl
@[simp] theorem decodeResult_ngaps (run : DecodeRun) (s : State) : (decodeResult run s).ngaps = s.ngaps := rfl
@[simp] theorem decodeResult_strlen (run : DecodeRun) (s : State) : (decodeResult run s).strlen = s.strlen := rfl
@[simp] theorem decodeResult_bitlen (run : DecodeRun) (s : State) : (decodeResult run s).bitlen = s.bitlen := rfl
@[simp] theorem decodeResult_rdiv (run : DecodeRun) (s : State) : (decodeResult run s).rdiv = s.rdiv := rfl
@[simp] theorem decodeResult_totbits (run : DecodeRun) (s : State) : (decodeResult run s).totbits = s.totbits := rfl
@[simp] theorem decodeResult_count (run : DecodeRun) (s : State) : (decodeResult run s).count = BitVec.ofNat 64 run.cnt := rfl
@[simp] theorem decodeResult_pos (run : DecodeRun) (s : State) : (decodeResult run s).pos = BitVec.ofNat 64 run.lastpos := rfl
@[simp] theorem decodeResult_phase (run : DecodeRun) (s : State) : (decodeResult run s).phase = s.phase := rfl
@[simp] theorem decodeResult_seq (run : DecodeRun) (s : State) : (decodeResult run s).seq = s.seq := rfl
@[simp] theorem decodeResult_gapmem (run : DecodeRun) (s : State) : (decodeResult run s).gapmem = s.gapmem := rfl
@[simp] theorem decodeResult_strmem (run : DecodeRun) (s : State) : (decodeResult run s).strmem = s.strmem := rfl
@[simp] theorem decodeResult_bitmem (run : DecodeRun) (s : State) : (decodeResult run s).bitmem = run.bitmem := rfl
@[simp] theorem decodeResult_inputs (run : DecodeRun) (s : State) : (decodeResult run s).inputs = s.inputs := rfl
@[simp] theorem decodeResult_rdata (run : DecodeRun) (s : State) : (decodeResult run s).rdata = s.rdata := rfl
@[simp] theorem decodeResult_freeCtr (run : DecodeRun) (s : State) : (decodeResult run s).freeCtr = s.freeCtr := rfl

@[simp] theorem visible_params (s : State) : (visible s).params = s.params := rfl
@[simp] theorem visible_cmd (s : State) : (visible s).cmd = s.cmd := rfl
@[simp] theorem visible_status (s : State) : (visible s).status = s.status := rfl
@[simp] theorem visible_div (s : State) : (visible s).div = s.div := rfl
@[simp] theorem visible_ngaps (s : State) : (visible s).ngaps = s.ngaps := rfl
@[simp] theorem visible_strlen (s : State) : (visible s).strlen = s.strlen := rfl
@[simp] theorem visible_bitlen (s : State) : (visible s).bitlen = s.bitlen := rfl
@[simp] theorem visible_rdiv (s : State) : (visible s).rdiv = s.rdiv := rfl
@[simp] theorem visible_totbits (s : State) : (visible s).totbits = s.totbits := rfl
@[simp] theorem visible_count (s : State) : (visible s).count = s.count := rfl
@[simp] theorem visible_pos (s : State) : (visible s).pos = s.pos := rfl
@[simp] theorem visible_phase (s : State) : (visible s).phase = s.phase := rfl
@[simp] theorem visible_seq (s : State) : (visible s).seq = Seq.zero := rfl
@[simp] theorem visible_gapmem (s : State) : (visible s).gapmem = s.gapmem := rfl
@[simp] theorem visible_strmem (s : State) : (visible s).strmem = s.strmem := rfl
@[simp] theorem visible_bitmem (s : State) : (visible s).bitmem = s.bitmem := rfl
@[simp] theorem visible_inputs (s : State) : (visible s).inputs = s.inputs := rfl
@[simp] theorem visible_rdata (s : State) : (visible s).rdata = s.rdata := rfl
@[simp] theorem visible_freeCtr (s : State) : (visible s).freeCtr = s.freeCtr := rfl

end Sys2Proof.Machine
end

