-- ==== Sys2Proof/Laws/Memory.lean ====
section
/-! SUPPORT. The laws of the buffers: reading after writing, the canonical form, ranges, zeroing, bits. -/

namespace Sys2Proof.Machine

variable {α : Type}

/-! ## One cell -/

theorem lookupCell_insertCell (l : List (Nat × α)) (a b : Nat) (v : α) :
    lookupCell (insertCell l a v) b = if b = a then some v else lookupCell l b := by
  induction l with
  | nil => simp [insertCell, lookupCell]
  | cons c rest ih =>
    obtain ⟨x, w⟩ := c
    simp only [insertCell]
    by_cases h1 : a < x
    · simp [lookupCell, h1]
    · by_cases h2 : a = x
      · subst h2
        simp only [lookupCell, lt_self_iff_false, if_false, if_true]
        split_ifs <;> rfl
      · simp only [lookupCell, h1, h2, if_false, ih]
        split_ifs <;> first | rfl | omega

@[simp] theorem read_write_same (m : Memory α) (a : Nat) (v : α) : (m.write a v).read a = some v := by
  simp [Memory.read, Memory.write, lookupCell_insertCell]

theorem read_write (m : Memory α) (a b : Nat) (v : α) :
    (m.write a v).read b = if b = a then some v else m.read b := by
  simp [Memory.read, Memory.write, lookupCell_insertCell]

theorem read_write_other (m : Memory α) {a b : Nat} (h : b ≠ a) (v : α) : (m.write a v).read b = m.read b := by
  simp [read_write, h]

theorem insertCell_keys_lower (l : List (Nat × α)) (a b : Nat) (v : α) (hb : b < a)
    (h : ∀ k ∈ l.map Prod.fst, b < k) : ∀ k ∈ (insertCell l a v).map Prod.fst, b < k := by
  induction l with
  | nil => simpa [insertCell] using hb
  | cons c rest ih =>
    obtain ⟨x, w⟩ := c
    simp only [List.map_cons, List.mem_cons, forall_eq_or_imp] at h
    simp only [insertCell]
    split_ifs
    · simpa [hb, h.1] using h.2
    · simpa [hb] using h.2
    · simpa [h.1] using ih h.2

theorem insertCell_canonical (l : List (Nat × α)) (a : Nat) (v : α)
    (h : (l.map Prod.fst).Pairwise (· < ·)) : ((insertCell l a v).map Prod.fst).Pairwise (· < ·) := by
  induction l with
  | nil => simp [insertCell]
  | cons c rest ih =>
    obtain ⟨x, w⟩ := c
    simp only [List.map_cons, List.pairwise_cons] at h
    simp only [insertCell]
    split_ifs with h1 h2
    · simp only [List.map_cons, List.pairwise_cons, List.mem_cons, forall_eq_or_imp]
      exact ⟨⟨h1, fun k hk => h1.trans (h.1 k hk)⟩, h.1, h.2⟩
    · subst h2
      simpa using h
    · simp only [List.map_cons, List.pairwise_cons]
      exact ⟨insertCell_keys_lower rest a x v (by omega) h.1, ih h.2⟩

/-- Writing a cell keeps the canonical form. -/
theorem write_wf {m : Memory α} (h : m.wf) (a : Nat) (v : α) : (m.write a v).wf := insertCell_canonical m.cells a v h

/-- Writing the value a cell already holds changes nothing. -/
theorem insertCell_lookup_self (l : List (Nat × α)) (a : Nat) (v : α) (h : (l.map Prod.fst).Pairwise (· < ·))
    (hv : lookupCell l a = some v) : insertCell l a v = l := by
  induction l with
  | nil => simp [lookupCell] at hv
  | cons c rest ih =>
    obtain ⟨x, w⟩ := c
    simp only [List.map_cons, List.pairwise_cons] at h
    simp only [lookupCell] at hv
    simp only [insertCell]
    split_ifs at hv with h0
    · subst h0
      simp_all
    · have hmem : a ∈ rest.map Prod.fst := by
        clear ih h
        induction rest with
        | nil => simp [lookupCell] at hv
        | cons d rest ih2 =>
          obtain ⟨y, u⟩ := d
          simp only [lookupCell] at hv
          split_ifs at hv with h2
          · simp [h2]
          · simp [ih2 hv]
      have := h.1 a hmem
      simp only [show ¬a < x by omega, if_false, h0, ih h.2 hv]

theorem write_read_self {m : Memory α} (h : m.wf) {a : Nat} {v : α} (hv : m.read a = some v) : m.write a v = m := by
  simp [Memory.write, insertCell_lookup_self m.cells a v h hv]

theorem insertCell_inside (l : List (Nat × α)) (a n : Nat) (v : α) (ha : a < n) (h : ∀ c ∈ l, c.1 < n) :
    ∀ c ∈ insertCell l a v, c.1 < n := by
  induction l with
  | nil => simpa [insertCell] using ha
  | cons c rest ih =>
    obtain ⟨x, w⟩ := c
    simp only [List.mem_cons, forall_eq_or_imp] at h
    simp only [insertCell]
    split_ifs
    · simpa [ha, h.1] using h.2
    · simpa [ha] using h.2
    · simpa [h.1] using ih h.2

theorem write_legal {m : Memory α} {n : Nat} (h : BufferLegal m n) {a : Nat} (ha : a < n) (v : α) :
    BufferLegal (m.write a v) n :=
  ⟨write_wf h.canonical a v, insertCell_inside m.cells a n v ha h.inside⟩

theorem forget_legal (m : Memory α) (n : Nat) : BufferLegal m.forget n := ⟨by simp [Memory.wf, Memory.forget], by simp [Memory.forget]⟩

@[simp] theorem read_forget (m : Memory α) (a : Nat) : m.forget.read a = none := rfl

theorem lookupCell_isSome_mem (l : List (Nat × α)) (a : Nat) (h : (lookupCell l a).isSome = true) :
    ∃ c ∈ l, c.1 = a := by
  induction l with
  | nil => simp [lookupCell] at h
  | cons c rest ih =>
    obtain ⟨x, w⟩ := c
    simp only [lookupCell] at h
    split_ifs at h with h0
    · exact ⟨(x, w), by simp, h0.symm⟩
    · obtain ⟨c, hc, hca⟩ := ih h
      exact ⟨c, by simp [hc], hca⟩

/-- In a legal buffer only cells of the buffer have contents. -/
theorem read_isSome_inside {m : Memory α} {n : Nat} (h : BufferLegal m n) {a : Nat} (ha : (m.read a).isSome = true) : a < n := by
  obtain ⟨c, hc, rfl⟩ := lookupCell_isSome_mem m.cells a ha
  exact h.inside c hc

/-! ## Ranges -/

theorem read_writeRange (vs : List α) (m : Memory α) (a b : Nat) :
    (m.writeRange a vs).read b = if a ≤ b ∧ b < a + vs.length then vs[b - a]? else m.read b := by
  induction vs generalizing m a with
  | nil => simp [Memory.writeRange]
  | cons v vs ih =>
    rw [Memory.writeRange, ih, read_write]
    by_cases hb : b = a
    · subst hb; simp
    · by_cases h : a + 1 ≤ b ∧ b < a + 1 + vs.length
      · have hs : b - a = (b - (a + 1)) + 1 := by omega
        have : a ≤ b ∧ b < a + (v :: vs).length := by simp; omega
        rw [if_pos h, if_pos this, hs, List.getElem?_cons_succ]
      · have : ¬(a ≤ b ∧ b < a + (v :: vs).length) := by simp; omega
        rw [if_neg h, if_neg this, if_neg hb]

theorem writeRange_legal (vs : List α) {m : Memory α} {n : Nat} (h : BufferLegal m n) {a : Nat} (ha : a + vs.length ≤ n) :
    BufferLegal (m.writeRange a vs) n := by
  induction vs generalizing m a with
  | nil => exact h
  | cons v vs ih =>
    simp only [List.length_cons] at ha
    exact ih (write_legal h (by omega) v) (by omega)

theorem writeRange_wf (vs : List α) {m : Memory α} (h : m.wf) (a : Nat) : (m.writeRange a vs).wf := by
  induction vs generalizing m a with
  | nil => exact h
  | cons v vs ih => exact ih (write_wf h a v) (a + 1)

theorem read_fill (m : Memory α) (a n b : Nat) (v : α) :
    (m.fill a n v).read b = if a ≤ b ∧ b < a + n then some v else m.read b := by
  rw [Memory.fill, read_writeRange, List.length_replicate]
  split_ifs with h
  · rw [List.getElem?_replicate, if_pos (by omega)]
  · rfl

theorem fill_legal {m : Memory α} {n : Nat} (h : BufferLegal m n) {a k : Nat} (ha : a + k ≤ n) (v : α) :
    BufferLegal (m.fill a k v) n := writeRange_legal _ h (by simpa using ha)

theorem fill_wf {m : Memory α} (h : m.wf) (a k : Nat) (v : α) : (m.fill a k v).wf := writeRange_wf _ h a

/-- A range reads as a list exactly when each of its cells has contents, and then cell `a + k` is element `k`. -/
theorem readRange_eq_some (m : Memory α) (a n : Nat) (vs : List α) :
    m.readRange a n = some vs ↔ vs.length = n ∧ ∀ k, k < n → m.read (a + k) = vs[k]? := by
  induction n generalizing a vs with
  | zero => simp [Memory.readRange, eq_comm]
  | succ n ih =>
    rw [Memory.readRange]
    constructor
    · intro h
      cases hv : m.read a with
      | none => simp [hv] at h
      | some v =>
        cases hr : m.readRange (a + 1) n with
        | none => simp [hv, hr] at h
        | some ws =>
          simp only [hv, hr, Option.some.injEq] at h
          subst h
          obtain ⟨hl, hk⟩ := (ih (a + 1) ws).1 hr
          refine ⟨by simp [hl], fun k hkn => ?_⟩
          cases k with
          | zero => simp [hv]
          | succ k => simpa [Nat.add_assoc, Nat.add_comm 1 k] using hk k (by omega)
    · rintro ⟨hl, hk⟩
      cases vs with
      | nil => simp at hl
      | cons v ws =>
        have h0 := hk 0 (by omega)
        simp only [Nat.add_zero, List.getElem?_cons_zero] at h0
        have hr : m.readRange (a + 1) n = some ws := by
          refine (ih (a + 1) ws).2 ⟨by simpa using hl, fun k hkn => ?_⟩
          simpa [Nat.add_assoc, Nat.add_comm 1 k] using hk (k + 1) (by omega)
        simp [h0, hr]

theorem readRange_length {m : Memory α} {a n : Nat} {vs : List α} (h : m.readRange a n = some vs) : vs.length = n :=
  ((readRange_eq_some m a n vs).1 h).1

theorem readRange_isSome (m : Memory α) (n : Nat) (h : m.knownTo n) : ∃ vs, m.readRange 0 n = some vs := by
  refine ⟨(List.range n).pmap (fun k hk => (m.read k).get (h k hk)) (fun k hk => List.mem_range.1 hk), ?_⟩
  rw [readRange_eq_some]
  refine ⟨by simp, fun k hk => ?_⟩
  simp [List.getElem?_pmap, List.getElem?_range hk]

/-! ## Bits -/

theorem read_orByte (m : Memory Byte) (k b : Nat) (x : Byte) :
    (orByte m k x).read b = if b = k then (m.read k).map (· ||| x) else m.read b := by
  unfold orByte
  cases h : m.read k with
  | none => by_cases hb : b = k <;> simp_all
  | some y => simp [read_write]

theorem orByte_legal {m : Memory Byte} {n : Nat} (h : BufferLegal m n) (k : Nat) (x : Byte) : BufferLegal (orByte m k x) n := by
  unfold orByte
  cases hr : m.read k with
  | none => exact h
  | some y => exact write_legal h (read_isSome_inside h (by simp [hr])) _

theorem orByte_wf {m : Memory Byte} (h : m.wf) (k : Nat) (x : Byte) : (orByte m k x).wf := by
  unfold orByte
  cases m.read k with
  | none => exact h
  | some y => exact write_wf h _ _

theorem orByte_isSome (m : Memory Byte) (k b : Nat) (x : Byte) : ((orByte m k x).read b).isSome = (m.read b).isSome := by
  rw [read_orByte]
  split_ifs with h
  · subst h; simp
  · rfl

theorem getBit_eq (m : Memory Byte) (idx : Nat) : getBit m idx = (m.read (idx / 8)).map (·.getLsbD (idx % 8)) := by
  unfold getBit
  cases m.read (idx / 8) <;> rfl

theorem getBit_isSome (m : Memory Byte) (idx : Nat) : (getBit m idx).isSome = (m.read (idx / 8)).isSome := by
  simp [getBit_eq]

theorem getLsbD_ofNat_two_pow (i j : Nat) (hj : j < 8) : (BitVec.ofNat 8 (2 ^ i)).getLsbD j = decide (j = i) := by
  simp only [BitVec.getLsbD_ofNat, hj, decide_true, Bool.true_and, Nat.testBit_two_pow]
  exact decide_eq_decide.2 eq_comm

theorem setBit_legal {m : Memory Byte} {n : Nat} (h : BufferLegal m n) (idx : Nat) : BufferLegal (setBit m idx) n := orByte_legal h _ _

theorem setBit_wf {m : Memory Byte} (h : m.wf) (idx : Nat) : (setBit m idx).wf := orByte_wf h _ _

theorem setBit_isSome (m : Memory Byte) (idx b : Nat) : ((setBit m idx).read b).isSome = (m.read b).isSome := orByte_isSome m _ _ _

/-- `SetBit` sets bit `idx` of a byte with known contents and leaves every other bit of the buffer. -/
theorem getBit_setBit (m : Memory Byte) (idx j : Nat) :
    getBit (setBit m idx) j = (getBit m j).map (· || decide (j = idx)) := by
  simp only [getBit_eq, setBit, read_orByte]
  split_ifs with h
  · rw [h]
    simp only [Option.map_map]
    refine congrArg (Option.map · _) (funext fun b => ?_)
    simp only [Function.comp_apply, BitVec.getLsbD_or]
    rw [getLsbD_ofNat_two_pow _ _ (Nat.mod_lt _ (by decide))]
    congr 1
    exact decide_eq_decide.2 (by omega)
  · have : j ≠ idx := fun e => h (by rw [e])
    cases m.read (j / 8) <;> simp [this]

end Sys2Proof.Machine
end

