-- ==== Sys2Proof/Laws/Stream.lean ====
section
/-! SUPPORT. The encoder writes exactly the reference stream: `PutBits` bit by bit, one codeword, the whole stream (42_encoder.md
R151), and the bytes of `Pack` (30_encoding.md R89). -/

namespace Sys2Proof.Machine

/-! ## PutBits -/

theorem getBit_orByte (m : Memory Byte) (k j : Nat) (x : Byte) :
    getBit (orByte m k x) j = (getBit m j).map (· || (decide (j / 8 = k) && x.getLsbD (j % 8))) := by
  simp only [getBit_eq, read_orByte]
  split_ifs with h
  · subst h
    cases m.read (j / 8) <;> simp
  · cases m.read (j / 8) <;> simp [h]

theorem testBit_span (v span off t : Nat) :
    (v % 2 ^ span * 2 ^ off).testBit t = (decide (off ≤ t ∧ t - off < span) && v.testBit (t - off)) := by
  rw [Nat.mul_comm, Nat.testBit_two_pow_mul, Nat.testBit_mod_two_pow]
  by_cases h1 : off ≤ t <;> by_cases h2 : t - off < span <;> simp [h1, h2]

theorem getBit_putBitsLoop (fuel : Nat) (m : Memory Byte) (idx v n j : Nat) (hn : n ≤ fuel) :
    getBit (putBitsLoop fuel m idx v n) j
      = (getBit m j).map (· || (decide (idx ≤ j ∧ j < idx + n) && v.testBit (j - idx))) := by
  induction fuel generalizing m idx v n with
  | zero =>
    obtain rfl : n = 0 := by omega
    cases h : getBit m j <;> simp [putBitsLoop, h]
  | succ fuel ih =>
    unfold putBitsLoop
    split_ifs with h0
    · subst h0
      cases getBit m j <;> simp
    · have hspan : 1 ≤ min n (8 - idx % 8) := by omega
      simp only []
      rw [ih _ _ _ _ (by omega), getBit_orByte, Option.map_map]
      refine congrArg (Option.map · _) (funext fun b => ?_)
      simp only [Function.comp_apply, Bool.or_assoc, BitVec.getLsbD_ofNat, testBit_span, Nat.testBit_div_two_pow]
      congr 1
      by_cases hlo : idx ≤ j
      · by_cases hmid : j < idx + min n (8 - idx % 8)
        · have e1 : j / 8 = idx / 8 := by omega
          have e2 : j % 8 - idx % 8 = j - idx := by omega
          have e3 : ¬idx + min n (8 - idx % 8) ≤ j := by omega
          have e4 : idx % 8 ≤ j % 8 := by omega
          have e5 : j - idx < n ∧ j - idx < 8 - idx % 8 := by omega
          have e6 : j < idx + n := by omega
          have e7 : j % 8 < 8 := by omega
          simp [e1, e2, e3, e4, e5, e6, e7, hlo]
        · have e1 : idx + min n (8 - idx % 8) ≤ j := by omega
          have e2 : j - (idx + min n (8 - idx % 8)) + min n (8 - idx % 8) = j - idx := by omega
          have e3 : ¬(j / 8 = idx / 8 ∧ j % 8 - idx % 8 < min n (8 - idx % 8)) := by omega
          have e4 : (j < idx + min n (8 - idx % 8) + (n - min n (8 - idx % 8))) = (j < idx + n) := by
            rw [show idx + min n (8 - idx % 8) + (n - min n (8 - idx % 8)) = idx + n by omega]
          rw [e2]
          simp only [e4, e1, hlo, true_and]
          by_cases e5 : j / 8 = idx / 8
          · have : ¬(j % 8 - idx % 8 < min n (8 - idx % 8)) := fun h => e3 ⟨e5, h⟩
            simp only [this, and_false, decide_false, Bool.false_and, Bool.and_false, Bool.false_or]
          · simp [e5]
      · have e1 : ¬(idx + min n (8 - idx % 8) ≤ j) := by omega
        have e2 : ¬(j / 8 = idx / 8 ∧ idx % 8 ≤ j % 8) := by omega
        by_cases e5 : j / 8 = idx / 8
        · have : ¬(idx % 8 ≤ j % 8) := fun h => e2 ⟨e5, h⟩
          simp [e1, hlo, this]
        · simp [e1, hlo, e5]

/-- `PutBits` ORs bit `t` of the value into stream bit `idx + t` and leaves every other bit (20_memory.md R62). -/
theorem getBit_putBits (m : Memory Byte) (idx v n j : Nat) :
    getBit (putBits m idx v n) j
      = (getBit m j).map (· || (decide (idx ≤ j ∧ j < idx + n) && v.testBit (j - idx))) :=
  getBit_putBitsLoop n m idx v n j le_rfl

theorem putBitsLoop_legal (fuel : Nat) {m : Memory Byte} {c : Nat} (h : BufferLegal m c) (idx v n : Nat) :
    BufferLegal (putBitsLoop fuel m idx v n) c := by
  induction fuel generalizing m idx v n with
  | zero => exact h
  | succ fuel ih =>
    unfold putBitsLoop
    split_ifs
    · exact h
    · exact ih (orByte_legal h _ _) _ _ _

theorem putBits_legal {m : Memory Byte} {c : Nat} (h : BufferLegal m c) (idx v n : Nat) : BufferLegal (putBits m idx v n) c :=
  putBitsLoop_legal n h idx v n

/-! ## Two buffers with the same bits have the same bytes -/

theorem read_eq_of_getBit {m m' : Memory Byte} {k : Nat} (h : ∀ t, t < 8 → getBit m (8 * k + t) = getBit m' (8 * k + t)) :
    m.read k = m'.read k := by
  have hk : ∀ t, t < 8 → (8 * k + t) / 8 = k ∧ (8 * k + t) % 8 = t := fun t ht => by omega
  have h0 := h 0 (by decide)
  simp only [getBit_eq, (hk 0 (by decide)).1, (hk 0 (by decide)).2] at h0
  cases hm : m.read k with
  | none => cases hm' : m'.read k with
    | none => rfl
    | some y => simp [hm, hm'] at h0
  | some x => cases hm' : m'.read k with
    | none => simp [hm, hm'] at h0
    | some y =>
      congr 1
      ext t ht
      have := h t ht
      rw [← BitVec.getLsbD_eq_getElem, ← BitVec.getLsbD_eq_getElem]
      simpa only [getBit_eq, (hk t ht).1, (hk t ht).2, hm, hm', Option.map_some, Option.some.injEq] using this

/-! ## One codeword -/

theorem remainderBits_length (r n : Nat) : (remainderBits r n).length = n := by simp [remainderBits]

theorem codeword_length (g d : Nat) : (codeword g d).length = codewordLength g d := by
  simp [codeword, codewordLength, remainderBits_length]; omega

theorem getD_remainderBits (r n t : Nat) : (remainderBits r n).getD t false = (decide (t < n) && r.testBit t) := by
  by_cases h : t < n
  · simp [remainderBits, List.getD, h]
  · simp [remainderBits, List.getD, h]

theorem getD_codeword (g d t : Nat) :
    (codeword g d).getD t false
      = (decide (t = g / 2 ^ d) ||
          (decide (g / 2 ^ d + 1 ≤ t ∧ t < g / 2 ^ d + 1 + d) && (g % 2 ^ d).testBit (t - (g / 2 ^ d + 1)))) := by
  unfold codeword
  rcases lt_trichotomy t (g / 2 ^ d) with h | h | h
  · rw [List.getD_append _ _ _ _ (by simpa using h)]
    have : ¬(g / 2 ^ d + 1 ≤ t) := by omega
    simp [h, h.ne, this]
  · rw [List.getD_append_right _ _ _ _ (by simp [h])]
    simp [h]
  · obtain ⟨u, rfl⟩ : ∃ u, t = g / 2 ^ d + 1 + u := ⟨t - (g / 2 ^ d + 1), by omega⟩
    rw [List.getD_append_right _ _ _ _ (by simp; omega)]
    have e : g / 2 ^ d + 1 + u - (List.replicate (g / 2 ^ d) false).length = u + 1 := by simp; omega
    rw [e, List.getD_cons_succ, getD_remainderBits]
    have e1 : ¬(g / 2 ^ d + 1 + u = g / 2 ^ d) := by omega
    have e2 : (g / 2 ^ d + 1 + u < g / 2 ^ d + 1 + d) = (u < d) := by simp
    simp [e1]

theorem emitGap_cursor (d : Nat) (acc : Memory Byte × Nat) (g : Nat) : (emitGap d acc g).2 = acc.2 + codewordLength g d := by
  simp only [emitGap, codewordLength]; omega

/-- One round of the emit loop ORs the codeword in at the cursor (42_encoder.md R143, R151). -/
theorem getBit_emitGap (d : Nat) (acc : Memory Byte × Nat) (g j : Nat) :
    getBit (emitGap d acc g).1 j
      = (getBit acc.1 j).map (· || (decide (acc.2 ≤ j) && (codeword g d).getD (j - acc.2) false)) := by
  simp only [emitGap, getBit_putBits, getBit_setBit, Option.map_map]
  refine congrArg (Option.map · _) (funext fun b => ?_)
  simp only [Function.comp_apply, Bool.or_assoc, getD_codeword]
  congr 1
  generalize g / 2 ^ d = q
  by_cases h : acc.2 ≤ j
  · obtain ⟨u, rfl⟩ : ∃ u, j = acc.2 + u := ⟨j - acc.2, by omega⟩
    have e1 : (acc.2 + u = acc.2 + q) = (u = q) := by simp
    have e2 : (acc.2 + q + 1 ≤ acc.2 + u ∧ acc.2 + u < acc.2 + q + 1 + d)
        = (q + 1 ≤ u ∧ u < q + 1 + d) := propext ⟨fun h => by omega, fun h => by omega⟩
    have e3 : acc.2 + u - (acc.2 + q + 1) = u - (q + 1) := by omega
    simp only [e1, e2, e3, Nat.add_sub_cancel_left, Nat.le_add_right, decide_true, Bool.true_and]
  · have e1 : ¬(j = acc.2 + q) := by omega
    have e2 : ¬(acc.2 + q + 1 ≤ j) := by omega
    simp [h, e1, e2]

theorem emitGap_legal {d : Nat} {acc : Memory Byte × Nat} {c : Nat} (h : BufferLegal acc.1 c) (g : Nat) :
    BufferLegal (emitGap d acc g).1 c := putBits_legal (setBit_legal h _) _ _ _

/-! ## The whole stream -/

theorem totalBits_cons (g : Nat) (gs : List Nat) (d : Nat) : totalBits (g :: gs) d = codewordLength g d + totalBits gs d := by
  simp [totalBits]

theorem encBits_cons (g : Nat) (gs : List Nat) (d : Nat) : encBits (g :: gs) d = codeword g d ++ encBits gs d := by
  simp [encBits]

/-- `|EncBits(g, div)| = TotalBits(g, div)` (30_encoding.md R88). -/
theorem encBits_length (gs : List Nat) (d : Nat) : (encBits gs d).length = totalBits gs d := by
  induction gs with
  | nil => rfl
  | cons g gs ih => rw [encBits_cons, totalBits_cons, List.length_append, ih, codeword_length]

theorem emitLoop_spec (d : Nat) (gs : List Nat) (acc : Memory Byte × Nat) :
    (gs.foldl (emitGap d) acc).2 = acc.2 + totalBits gs d ∧
    ∀ j, getBit (gs.foldl (emitGap d) acc).1 j
      = (getBit acc.1 j).map (· || (decide (acc.2 ≤ j) && (encBits gs d).getD (j - acc.2) false)) := by
  induction gs generalizing acc with
  | nil =>
    refine ⟨rfl, fun j => ?_⟩
    cases h : getBit acc.1 j <;> simp [encBits, h]
  | cons g gs ih =>
    obtain ⟨h2, hb⟩ := ih (emitGap d acc g)
    refine ⟨by rw [List.foldl_cons, h2, emitGap_cursor, totalBits_cons]; omega, fun j => ?_⟩
    rw [List.foldl_cons, hb j, getBit_emitGap, Option.map_map]
    refine congrArg (Option.map · _) (funext fun b => ?_)
    simp only [Function.comp_apply, Bool.or_assoc, emitGap_cursor, encBits_cons]
    congr 1
    by_cases h : acc.2 ≤ j
    · by_cases h' : j - acc.2 < codewordLength g d
      · have e1 : ¬(acc.2 + codewordLength g d ≤ j) := by omega
        rw [List.getD_append _ _ _ _ (by rw [codeword_length]; exact h')]
        simp [h, e1]
      · have e1 : acc.2 + codewordLength g d ≤ j := by omega
        have e2 : (codeword g d).getD (j - acc.2) false = false :=
          List.getD_eq_default _ _ (by rw [codeword_length]; omega)
        rw [List.getD_append_right _ _ _ _ (by rw [codeword_length]; omega), codeword_length, e2]
        have e3 : j - (acc.2 + codewordLength g d) = j - acc.2 - codewordLength g d := by omega
        simp [h, e1, e3]
    · have e1 : ¬(acc.2 + codewordLength g d ≤ j) := by omega
      simp [h, e1]

theorem emitLoop_legal {d : Nat} (gs : List Nat) {acc : Memory Byte × Nat} {c : Nat} (h : BufferLegal acc.1 c) :
    BufferLegal (gs.foldl (emitGap d) acc).1 c := by
  induction gs generalizing acc with
  | nil => exact h
  | cons g gs ih => exact ih (emitGap_legal h g)

theorem emitStream_legal {m : Memory Byte} {c len : Nat} (h : BufferLegal m c) (hl : len ≤ c) (d : Nat) (gs : List Nat) :
    BufferLegal (emitStream m len d gs) c := emitLoop_legal gs (fill_legal h (by omega) 0)

/-- The bits of the payload range are those of `EncBits`, 0 past its end (42_encoder.md R149, R151; 20_memory.md R67). -/
theorem getBit_emitStream_inside (m : Memory Byte) {len j : Nat} (d : Nat) (gs : List Nat) (hj : j < 8 * len) :
    getBit (emitStream m len d gs) j = some ((encBits gs d).getD j false) := by
  rw [emitStream, (emitLoop_spec d gs _).2 j]
  have h0 : getBit (m.fill 0 len 0) j = some false := by
    rw [getBit_eq, read_fill, if_pos (by omega)]
    simp
  rw [h0]
  simp

theorem le_mul_ceilDiv8 (a : Nat) : a ≤ 8 * ceilDiv8 a := by simp only [ceilDiv8]; omega

/-- Bytes past the payload range keep their contents (20_memory.md R66). -/
theorem read_emitStream_outside (m : Memory Byte) {len k : Nat} (d : Nat) (gs : List Nat) (hl : totalBits gs d ≤ 8 * len)
    (hk : len ≤ k) : (emitStream m len d gs).read k = m.read k := by
  refine read_eq_of_getBit fun t ht => ?_
  rw [emitStream, (emitLoop_spec d gs _).2]
  have h0 : getBit (m.fill 0 len 0) (8 * k + t) = getBit m (8 * k + t) := by
    rw [getBit_eq, read_fill, if_neg (by omega), ← getBit_eq]
  have h1 : (encBits gs d).getD (8 * k + t) false = false :=
    List.getD_eq_default _ _ (by rw [encBits_length]; omega)
  rw [h0]
  cases getBit m (8 * k + t) <;> simp only [Option.map_none, Option.map_some, Nat.sub_zero, h1, Bool.and_false, Bool.or_false]

/-! ## Packing -/

theorem sum_bits_testBit (f : Nat → Bool) (n j : Nat) :
    (((List.range n).map fun i => if f i then 2 ^ i else 0).sum).testBit j = (decide (j < n) && f j) ∧
    ((List.range n).map fun i => if f i then 2 ^ i else 0).sum < 2 ^ n := by
  induction n with
  | zero => simp
  | succ n ih =>
    rw [List.range_succ, List.map_append, List.sum_append]
    simp only [List.map_cons, List.map_nil, List.sum_cons, List.sum_nil, Nat.add_zero]
    obtain ⟨ih1, ih2⟩ := ih
    constructor
    · by_cases hf : f n
      · rw [if_pos hf, Nat.add_comm]
        rcases lt_trichotomy j n with h | h | h
        · rw [Nat.testBit_two_pow_add_gt h, ih1]
          simp [h, Nat.lt_succ_of_lt h]
        · subst h
          rw [Nat.testBit_two_pow_add_eq, ih1]
          simp [hf]
        · rw [Nat.testBit_eq_false_of_lt]
          · simp; intro h'; omega
          · calc 2 ^ n + _ < 2 ^ n + 2 ^ n := by omega
              _ = 2 ^ (n + 1) := by rw [pow_succ]; omega
              _ ≤ 2 ^ j := Nat.pow_le_pow_right (by decide) h
      · rw [if_neg hf, Nat.add_zero, ih1]
        by_cases h : j = n
        · subst h; simp [hf]
        · have : (j < n + 1) = (j < n) := by apply propext; omega
          simp [this]
    · rw [pow_succ]
      split_ifs <;> omega

theorem getLsbD_packByte (s : List Bool) (k j : Nat) (hj : j < 8) : (packByte s k).getLsbD j = s.getD (8 * k + j) false := by
  rw [packByte, BitVec.getLsbD_ofNat, (sum_bits_testBit (fun i => s.getD (8 * k + i) false) 8 j).1]
  simp [hj]

theorem pack_length (s : List Bool) : (pack s).length = ceilDiv8 s.length := by simp [pack]

/-- The bytes of the payload range are the payload (42_encoder.md R149). -/
theorem read_emitStream_inside (m : Memory Byte) (d : Nat) (gs : List Nat) {k : Nat} (hk : k < ceilDiv8 (totalBits gs d)) :
    (emitStream m (ceilDiv8 (totalBits gs d)) d gs).read k = (payload gs d)[k]? := by
  have hb := fun t (ht : t < 8) => getBit_emitStream_inside m (len := ceilDiv8 (totalBits gs d)) (j := 8 * k + t) d gs (by omega)
  have h0 := hb 0 (by decide)
  rw [getBit_eq, show (8 * k + 0) / 8 = k by omega] at h0
  cases hr : (emitStream m (ceilDiv8 (totalBits gs d)) d gs).read k with
  | none => simp [hr] at h0
  | some x =>
    have hp : (payload gs d)[k]? = some (packByte (encBits gs d) k) := by
      simp [payload, pack, encBits_length, hk]
    rw [hp]
    congr 1
    ext t ht
    have := hb t ht
    rw [getBit_eq, show (8 * k + t) / 8 = k by omega, show (8 * k + t) % 8 = t by omega, hr] at this
    simp only [Option.map_some, Option.some.injEq] at this
    rw [← BitVec.getLsbD_eq_getElem, ← BitVec.getLsbD_eq_getElem, this, getLsbD_packByte _ _ _ ht]

end Sys2Proof.Machine
end

