-- ==== Sys2Proof/Laws/Decode.lean ====
section
/-! SUPPORT. The decode loop computes the reference decoder on bit strings (43_decoder.md R160, R169), and the reference decoder
inverts the reference encoder (30_encoding.md R84, R87). -/

namespace Sys2Proof.Machine

/-! ## The stream as a list of bits -/

/-- A buffer holds a bit string from bit 0. -/
abbrev HoldsBits (m : Memory Byte) (bits : List Bool) : Prop := ∀ j, j < bits.length → getBit m j = bits[j]?

theorem bitsOf_length (bytes : List Byte) : (bitsOf bytes).length = 8 * bytes.length := by simp [bitsOf]

theorem getElem?_bitsOf (bytes : List Byte) {j : Nat} (h : j < 8 * bytes.length) : (bitsOf bytes)[j]? = some (bitOf bytes j) := by
  simp [bitsOf, h]

/-- A range of known bytes holds its bits. -/
theorem holdsBits_of_readRange {m : Memory Byte} {n : Nat} {bytes : List Byte} (h : m.readRange 0 n = some bytes) :
    HoldsBits m (bitsOf bytes) := by
  obtain ⟨hl, hk⟩ := (readRange_eq_some m 0 n bytes).1 h
  intro j hj
  rw [bitsOf_length] at hj
  rw [getElem?_bitsOf bytes hj, getBit_eq]
  have := hk (j / 8) (by omega)
  simp only [Nat.zero_add] at this
  rw [this, List.getElem?_eq_getElem (by omega : j / 8 < bytes.length)]
  simp [bitOf, List.getD, List.getElem?_eq_getElem (by omega : j / 8 < bytes.length)]

/-! ## Step 1 -/

theorem splitUnary_some {bits rest : List Bool} {q : Nat} (h : splitUnary bits = some (q, rest)) :
    bits = List.replicate q false ++ true :: rest := by
  induction bits generalizing q with
  | nil => simp [splitUnary] at h
  | cons b bits ih =>
    cases b with
    | true =>
      simp only [splitUnary, Option.some.injEq, Prod.mk.injEq] at h
      obtain ⟨rfl, rfl⟩ := h
      rfl
    | false =>
      simp only [splitUnary] at h
      cases hs : splitUnary bits with
      | none => simp [hs] at h
      | some p =>
        obtain ⟨q', r'⟩ := p
        simp only [hs, Option.some.injEq, Prod.mk.injEq] at h
        obtain ⟨rfl, rfl⟩ := h
        rw [ih hs, List.replicate_succ, List.cons_append]

theorem splitUnary_replicate (q : Nat) (rest : List Bool) :
    splitUnary (List.replicate q false ++ true :: rest) = some (q, rest) := by
  induction q with
  | zero => rfl
  | succ q ih => rw [List.replicate_succ, List.cons_append, splitUnary, ih]

theorem splitUnary_zeros (n : Nat) : splitUnary (List.replicate n false) = none := by
  induction n with
  | zero => rfl
  | succ n ih => rw [List.replicate_succ, splitUnary, ih]

/-- What step 1 answers on a known stream: the end of the stream, or the terminator's index and the prefix's length. -/
theorem scanPrefix_spec {m : Memory Byte} {bits : List Bool} (hm : HoldsBits m bits) (fuel idx q : Nat)
    (hi : idx ≤ bits.length) (hf : bits.length - idx ≤ fuel) :
    scanPrefix m bits.length fuel idx q =
      match splitUnary (bits.drop idx) with
      | none => some (bits.length, q + (bits.length - idx))
      | some (q', _) => some (idx + q', q + q') := by
  induction fuel generalizing idx q with
  | zero =>
    obtain rfl : idx = bits.length := by omega
    simp [scanPrefix, splitUnary]
  | succ fuel ih =>
    unfold scanPrefix
    by_cases h : idx < bits.length
    · rw [if_pos h, hm idx h, List.drop_eq_getElem_cons h, List.getElem?_eq_getElem h]
      cases hb : bits[idx] with
      | true => simp [splitUnary]
      | false =>
        simp only [splitUnary]
        rw [ih (idx + 1) (q + 1) (by omega) (by omega)]
        cases hs : splitUnary (bits.drop (idx + 1)) with
        | none => simp only [Option.some.injEq, Prod.mk.injEq, true_and]; omega
        | some p =>
          obtain ⟨q', r⟩ := p
          simp only [Option.some.injEq, Prod.mk.injEq]
          omega
    · obtain rfl : idx = bits.length := by omega
      simp [splitUnary]

/-! ## Step 2 -/

theorem bitsValue_append (xs : List Bool) (b : Bool) : bitsValue (xs ++ [b]) = bitsValue xs + b.toNat * 2 ^ xs.length := by
  induction xs with
  | nil => simp [bitsValue]
  | cons x xs ih => simp only [List.cons_append, bitsValue, ih, List.length_cons, pow_succ]; ring

/-- What step 2 answers on a known stream: the value of the next `d` bits. -/
theorem readRemainder_spec {m : Memory Byte} {bits : List Bool} (hm : HoldsBits m bits) (idx d : Nat)
    (h : idx + d ≤ bits.length) : readRemainder m idx d = some (bitsValue ((bits.drop idx).take d)) := by
  induction d with
  | zero => rfl
  | succ d ih =>
    have hlt : idx + d < bits.length := by omega
    rw [readRemainder, ih (by omega), hm (idx + d) hlt, List.getElem?_eq_getElem hlt]
    have : (bits.drop idx).take (d + 1) = (bits.drop idx).take d ++ [bits[idx + d]] := by
      rw [List.take_add_one, List.getElem?_drop, List.getElem?_eq_getElem hlt]; rfl
    simp only [this, bitsValue_append]
    simp
    omega

theorem bitsValue_remainderBits (r n : Nat) (h : r < 2 ^ n) : bitsValue (remainderBits r n) = r := by
  induction n generalizing r with
  | zero => simp_all [remainderBits, bitsValue]
  | succ n ih =>
    have e : remainderBits r (n + 1) = r.testBit 0 :: remainderBits (r / 2) n := by
      simp only [remainderBits, List.range_succ_eq_map, List.map_cons, List.map_map]
      congr 1
      refine List.map_congr_left fun t _ => ?_
      simp [Nat.testBit_succ]
    rw [e, bitsValue, ih (r / 2) (by rw [pow_succ] at h; omega)]
    simp only [Nat.testBit_zero]
    rcases Nat.mod_two_eq_zero_or_one r with h2 | h2 <;> simp [h2] <;> omega

/-! ## The loop -/

theorem getBit_foldl_setBit (ps : List Nat) (m : Memory Byte) (j : Nat) :
    getBit (ps.foldl setBit m) j = (getBit m j).map (· || decide (j ∈ ps)) := by
  induction ps generalizing m with
  | nil => cases h : getBit m j <;> simp [h]
  | cons p ps ih =>
    rw [List.foldl_cons, ih, getBit_setBit, Option.map_map]
    refine congrArg (Option.map · _) (funext fun b => ?_)
    by_cases h1 : j = p <;> by_cases h2 : j ∈ ps <;> simp [h1, h2]

theorem foldl_setBit_legal (ps : List Nat) {m : Memory Byte} {c : Nat} (h : BufferLegal m c) :
    BufferLegal (ps.foldl setBit m) c := by
  induction ps generalizing m with
  | nil => exact h
  | cons p ps ih => exact ih (setBit_legal h p)

/-- The results the loop answers for the positions it committed. -/
structure Committed (run run' : DecodeRun) (ps : List Nat) : Prop where
  cnt : run'.cnt = run.cnt + ps.length
  lastpos : run'.lastpos = ps.getLastD run.lastpos
  bitmem : run'.bitmem = ps.foldl setBit run.bitmem

/-- The decode loop on a known stream commits exactly the reference decoder's positions and ends with its code. -/
theorem decodeLoop_spec {m : Memory Byte} {bits : List Bool} (hm : HoldsBits m bits) (d N fuel fuel' : Nat) (run : DecodeRun)
    (hi : run.idx ≤ bits.length) (hf : bits.length - run.idx < fuel) (hf' : bits.length - run.idx < fuel') :
    ∃ run', decodeLoop m d bits.length N fuel run
        = some (run', (commitPositions N run.prefixSum (streamDeltas d fuel' (bits.drop run.idx)).1
            (streamDeltas d fuel' (bits.drop run.idx)).2).2) ∧
      Committed run run' (commitPositions N run.prefixSum (streamDeltas d fuel' (bits.drop run.idx)).1
            (streamDeltas d fuel' (bits.drop run.idx)).2).1 := by
  induction fuel generalizing run fuel' with
  | zero => omega
  | succ fuel ih =>
    obtain ⟨fuel', rfl⟩ : ∃ f, fuel' = f + 1 := ⟨fuel' - 1, by omega⟩
    unfold decodeLoop streamDeltas
    rw [scanPrefix_spec hm bits.length run.idx 0 hi (by omega)]
    cases hs : splitUnary (bits.drop run.idx) with
    | none => exact ⟨_, by simp only [if_true]; rfl, by simp [commitPositions], by simp [commitPositions], by simp [commitPositions]⟩
    | some p =>
      obtain ⟨q, rest⟩ := p
      have hd := splitUnary_some hs
      have hlen : bits.length - run.idx = q + 1 + rest.length := by
        have := congrArg List.length hd
        simp at this
        omega
      have hrest : rest = bits.drop (run.idx + q + 1) := by
        rw [Nat.add_assoc, ← List.drop_drop, hd, List.drop_append, List.drop_eq_nil_of_le (by simp)]
        simp
      have h1 : ¬(run.idx + q = bits.length) := by omega
      simp only [h1, if_false, Nat.zero_add]
      by_cases ht : rest.length < d
      · have : bits.length < run.idx + q + 1 + d := by omega
        simp only [this, ht, if_true]
        exact ⟨_, by simp only [commitPositions]; rfl, by simp [commitPositions], by simp [commitPositions], by simp [commitPositions]⟩
      · have h2 : ¬(bits.length < run.idx + q + 1 + d) := by omega
        simp only [h2, ht, if_false]
        rw [readRemainder_spec hm (run.idx + q + 1) d (by omega), ← hrest]
        simp only [commitPositions]
        by_cases hr : N ≤ run.prefixSum + (q * 2 ^ d + bitsValue (rest.take d))
        · simp only [hr, if_true]
          exact ⟨_, rfl, by simp, by simp, by simp⟩
        · simp only [hr, if_false]
          have hdrop : rest.drop d = bits.drop (run.idx + q + 1 + d) := by rw [hrest, List.drop_drop]
          rw [hdrop]
          obtain ⟨run', he, hc⟩ := ih fuel'
            { idx := run.idx + q + 1 + d
              prefixSum := run.prefixSum + (q * 2 ^ d + bitsValue (rest.take d))
              cnt := run.cnt + 1
              lastpos := run.prefixSum + (q * 2 ^ d + bitsValue (rest.take d))
              bitmem := setBit run.bitmem (run.prefixSum + (q * 2 ^ d + bitsValue (rest.take d))) }
            (by simp only []; omega) (by simp only []; omega) (by simp only []; omega)
          refine ⟨run', he, ?_, ?_, ?_⟩
          · rw [hc.cnt]; simp only [List.length_cons]; omega
          · rw [hc.lastpos, List.getLastD_cons]
          · rw [hc.bitmem]; rfl

/-! ## The reference decoder inverts the reference encoder -/

theorem streamDeltas_codeword (d fuel g : Nat) (rest : List Bool) :
    streamDeltas d (fuel + 1) (codeword g d ++ rest)
      = (g :: (streamDeltas d fuel rest).1, (streamDeltas d fuel rest).2) := by
  have hr : (remainderBits (g % 2 ^ d) d ++ rest).take d = remainderBits (g % 2 ^ d) d := by
    rw [List.take_append_of_le_length (by simp [remainderBits_length]), List.take_of_length_le (by simp [remainderBits_length])]
  have hd : (remainderBits (g % 2 ^ d) d ++ rest).drop d = rest := by
    rw [List.drop_append, remainderBits_length, List.drop_of_length_le (by simp [remainderBits_length])]
    simp
  have hl : ¬((remainderBits (g % 2 ^ d) d ++ rest).length < d) := by simp [remainderBits_length]
  rw [streamDeltas, codeword, List.append_assoc, List.cons_append, splitUnary_replicate]
  simp only [hl, if_false, hr, hd, bitsValue_remainderBits _ _ (Nat.mod_lt _ (Nat.two_pow_pos d))]
  rw [Nat.mul_comm, Nat.div_add_mod]

/-- Decoding `EncBits(g, d)` followed by zero padding gives the gaps and the normal end of a decode (30_encoding.md R84, R87;
20_memory.md R67). -/
theorem streamDeltas_encBits (d : Nat) (gs : List Nat) (pad fuel : Nat) (hf : gs.length < fuel) :
    streamDeltas d fuel (encBits gs d ++ List.replicate pad false) = (gs, .success) := by
  induction gs generalizing fuel with
  | nil =>
    obtain ⟨f, rfl⟩ : ∃ f, fuel = f + 1 := ⟨fuel - 1, by simp at hf; omega⟩
    simp [encBits, streamDeltas, splitUnary_zeros]
  | cons g gs ih =>
    obtain ⟨f, rfl⟩ : ∃ f, fuel = f + 1 := ⟨fuel - 1, by omega⟩
    rw [encBits_cons, List.append_assoc, streamDeltas_codeword, ih f (by simp at hf; omega)]

/-- When every running sum is in range, exactly the running sums are committed. -/
theorem commitPositions_in_range (N start : Nat) (gs : List Nat) (e : ECode) (h : ∀ p ∈ sumsFrom start gs, p < N) :
    commitPositions N start gs e = (sumsFrom start gs, e) := by
  induction gs generalizing start with
  | nil => rfl
  | cons g gs ih =>
    simp only [sumsFrom, List.mem_cons, forall_eq_or_imp] at h
    rw [commitPositions, if_neg (by omega), ih _ h.2]
    rfl

/-- `Prefix(Gaps(P)) = P` (41_gap_sequence.md R133). -/
theorem sumsFrom_gapsFrom (last : Nat) (ps : List Nat) (h : (last :: ps).Pairwise (· ≤ ·)) :
    sumsFrom last (gapsFrom last ps) = ps := by
  induction ps generalizing last with
  | nil => rfl
  | cons p ps ih =>
    rw [List.pairwise_cons] at h
    have hp := h.1 p (by simp)
    rw [gapsFrom, sumsFrom, Nat.add_sub_cancel' hp, ih p h.2]

end Sys2Proof.Machine
end

