-- ==== Sys2Proof/Laws/PerInstr.lean ====
section
/-! SUPPORT. Statements for all commands, one lemma per constructor. -/

namespace Sys2Proof.Laws.EncodedFields

/-- The fields of a command's word: `RSV` clear, `OP` at most 4, `OVR` only with `EST` and `CMPR` (30_encoding.md R95, R96). -/
def Statement (i : Instr) : Prop :=
  cmdRsv (encode i) = 0 ∧ (cmdOp (encode i)).toNat ≤ 4 ∧
    (cmdOvr (encode i) = 1 → cmdOp (encode i) = 1 ∨ cmdOp (encode i) = 3) ∧ i.wellFormed = true

theorem nop : Statement .nop := by unfold Statement; decide

theorem est : Statement .est := by unfold Statement; decide

theorem estO : Statement .estO := by unfold Statement; decide

theorem enc : Statement .enc := by unfold Statement; decide

theorem cmpr : Statement .cmpr := by unfold Statement; decide

theorem cmprO : Statement .cmprO := by unfold Statement; decide

theorem dec : Statement .dec := by unfold Statement; decide

end Sys2Proof.Laws.EncodedFields
end

