-- ==== Sys2Proof/Certificates/Slice0/Obligations.lean ====
section
/-! DEFINITION. The statements for the provers, from the numbered rules of the spec: encodings, the step, each command's result
and frame, errors, status, host access, reset, invariants, the reference sequencer, and the laws of the codec. -/

open Sys2Proof Sys2Proof.Machine

/-! ## Command words -/

/-- 30_encoding.md R98: decoding looks at `c[31:5]` first, then at (`c[3:0]`, `c[4]`); anything but the seven pairs is illegal; in
match form every legal word is matched whole. -/
def Obligations.CommandWordDecodingOrder : Prop :=
  ∀ c : BitVec 32,
    (c.extractLsb 31 5 ≠ 0 → decode c = .error .reservedBits) ∧
    (∀ i, decode c = .ok i ↔ c.extractLsb 31 5 = 0 ∧
      ((c.extractLsb 3 0 = 0 ∧ c.extractLsb 4 4 = 0 ∧ i = .nop) ∨
       (c.extractLsb 3 0 = 1 ∧ c.extractLsb 4 4 = 0 ∧ i = .est) ∨
       (c.extractLsb 3 0 = 1 ∧ c.extractLsb 4 4 = 1 ∧ i = .estO) ∨
       (c.extractLsb 3 0 = 2 ∧ c.extractLsb 4 4 = 0 ∧ i = .enc) ∨
       (c.extractLsb 3 0 = 3 ∧ c.extractLsb 4 4 = 0 ∧ i = .cmpr) ∨
       (c.extractLsb 3 0 = 3 ∧ c.extractLsb 4 4 = 1 ∧ i = .cmprO) ∨
       (c.extractLsb 3 0 = 4 ∧ c.extractLsb 4 4 = 0 ∧ i = .dec))) ∧
    (∀ i, decode c = .ok i ↔ c &&& 0xFFFFFFFF#32 = encode i)

/-- 30_encoding.md R96: the words of the table, and what each decodes to. -/
def Obligations.SpecCommandWords : Prop :=
  decode 0x00000000#32 = .ok .nop ∧ decode 0x00000001#32 = .ok .est ∧ decode 0x00000011#32 = .ok .estO ∧
  decode 0x00000002#32 = .ok .enc ∧ decode 0x00000003#32 = .ok .cmpr ∧ decode 0x00000013#32 = .ok .cmprO ∧
  decode 0x00000004#32 = .ok .dec ∧
  decode 0x00000005#32 = .error (.illegalOp 5) ∧ decode 0x00000012#32 = .error (.illegalOverride 2) ∧
  decode 0x80000004#32 = .error .reservedBits

/-- 30_encoding.md R96, R102: decoding an encoded command gives it back, from `CMD` and from an opcode-table word. -/
def Obligations.DecodeOfEncode : Prop :=
  ∀ i : Instr, decode (encode i) = .ok i ∧ decodeTableWord 32 (encode i).toNat = some i

/-! ## The step -/

/-- A step runs the decoded command: 00_scope.md R8, 10_state.md R36. The next step after `withFetchWord` runs the word's command. -/
def Obligations.StepRunsDecodedCommand : Prop :=
  (∀ (s : State) (c : Nat) (rest : List Event) (i : Instr), s.params.WF → s.inputs = .command c :: rest →
      s.status.busy = false → decode (BitVec.ofNat 32 c) = .ok i →
      step s = exec i (startCommand c { s with inputs := rest })) ∧
  (∀ (s : State) (nbits w : Nat) (i : Instr), s.params.WF → decodeTableWord nbits w = some i →
      step (s.withFetchWord nbits w)
        = exec i (startCommand (tableWord nbits w).toNat
            { s with status := { s.status with busy := false }, phase := .idle }))

/-- 60_exceptions.md R192: an illegal word completes with `E_CMD`; `CMD` holds the word, `STATUS` is `0x16`, nothing else that the
host can see changes, and no operand is looked at (the statement has no premise on operands). -/
def Obligations.IllegalCommandCompletesWithECmd : Prop :=
  ∀ (s : State) (c : Nat) (rest : List Event) (err : DecodeError), s.params.WF → s.inputs = .command c :: rest →
    s.status.busy = false → decode (BitVec.ofNat 32 c) = .error err →
    ∃ t, step s = .next t ∧ t.cmd = BitVec.ofNat 32 c ∧ t.status = ⟨false, true, true, false, .cmd⟩ ∧
      statusWord t.status = 0x00000016#32 ∧
      visible t = visible { s with inputs := rest, cmd := t.cmd, status := t.status, phase := .idle }

/-- 10_state.md R36, R40: a write to `CMD` while idle stores the word, sets `STATUS` to `BUSY` alone, latches the three fields,
zeroes every other hidden register, leaves `IDLE`, and changes nothing else. -/
def Obligations.CommandStartLatchesAndClears : Prop :=
  ∀ (s : State) (c : Nat) (rest : List Event), s.params.WF → s.inputs = .regWrite 1 c :: rest → s.status.busy = false →
    ∃ t, step s = .next t ∧
      t = { s with
            inputs := rest
            cmd := BitVec.ofNat 32 c
            status := ⟨true, false, false, false, .success⟩
            phase := .check
            seq := t.seq } ∧
      t.seq.op = (BitVec.ofNat 32 c).extractLsb 3 0 ∧ t.seq.ovr = (BitVec.ofNat 32 c).extractLsb 4 4 ∧
      t.seq.rsv = (BitVec.ofNat 32 c).extractLsb 31 5 ∧
      t.seq.d = 0 ∧ t.seq.i = 0 ∧ t.seq.sum = 0 ∧ t.seq.tot = 0 ∧ t.seq.idx = 0 ∧ t.seq.q = 0 ∧ t.seq.r = 0 ∧
      t.seq.j = 0 ∧ t.seq.prefixSum = 0 ∧ t.seq.cnt = 0 ∧ t.seq.lastpos = 0

/-- 00_scope.md R9, 10_state.md R40, R36: a command started while idle gives the same outcome whatever the hidden registers and the
old status and phase were. -/
def Obligations.CommandsIgnoreHiddenState : Prop :=
  ∀ (c : Nat) (s : State) (h : Seq) (st : Status) (p : Phase), s.status.busy = false → st.busy = false →
    runCommand c { s with seq := h, status := st, phase := p } = runCommand c s

/-! ## NOP and the estimator -/

/-- 43_decoder.md R161: `NOP`, word 0, completes with a clean status and changes no other register and no buffer; the word 0 is
stored in `CMD` and `STATUS` becomes `0x00000002`. A word with `OP = 0` and another bit set is illegal. -/
def Obligations.NopLeavesACleanStatus : Prop :=
  decode 0x00000000#32 = .ok .nop ∧
  (∀ c : BitVec 32, c.extractLsb 3 0 = 0 → c ≠ 0 → ∃ err, decode c = .error err) ∧
  (∀ s : State, exec .nop s = .next { s with status := ⟨false, true, false, false, .success⟩, phase := .idle }) ∧
  (∀ (s : State) (rest : List Event), s.params.WF → s.inputs = .command 0 :: rest → s.status.busy = false →
    ∃ t, step s = .next t ∧ t.cmd = 0 ∧ statusWord t.status = 0x00000002#32 ∧
      visible t = visible { s with inputs := rest, cmd := 0, status := t.status, phase := .idle })

/-- 40_estimator.md R110: `EST`, word 1, in each of its cases, with the corner cases and the example the rule names. What it writes
is `RDIV` and `STATUS` (and `phase`, back to `IDLE`). -/
def Obligations.EstWritesTheEstimate : Prop :=
  decode 0x00000001#32 = .ok .est ∧ (∀ S n : ℕ, S ≤ n → estDiv S n = 0) ∧ estDiv (2 ^ 64 - 1) 1 = 63 ∧ estDiv 9 3 = 1 ∧
  ∀ s : State,
    (s.params.gapDepth < s.ngaps.toNat →
      exec .est s = .next { s with status := ⟨false, true, true, false, .len⟩, phase := .idle }) ∧
    (s.ngaps = 0 →
      exec .est s = .next { s with rdiv := 0, status := ⟨false, true, false, true, .success⟩, phase := .idle }) ∧
    (∀ gs : List Nat, s.ngaps.toNat ≤ s.params.gapDepth → s.ngaps ≠ 0 → gapOperand s = some gs →
      (2 ^ 64 ≤ gs.sum →
        exec .est s = .next { s with status := ⟨false, true, true, false, .ovf⟩, phase := .idle }) ∧
      (gs.sum < 2 ^ 64 →
        exec .est s = .next
          { s with
            rdiv := BitVec.ofNat 8 (estDiv gs.sum s.ngaps.toNat)
            status := ⟨false, true, false, false, .success⟩
            phase := .idle } ∧
        (BitVec.ofNat 8 (estDiv gs.sum s.ngaps.toNat)).toNat = estDiv gs.sum s.ngaps.toNat))

/-- 40_estimator.md R111: `EST.O`, word `0x11`, copies `DIV`, whatever the gaps are, and refuses a `DIV` above `DIV_MAX`. -/
def Obligations.EstOverrideCopiesDiv : Prop :=
  decode 0x00000011#32 = .ok .estO ∧
  ∀ s : State,
    (s.div.toNat ≤ 63 →
      exec .estO s = .next { s with rdiv := s.div, status := ⟨false, true, false, false, .success⟩, phase := .idle }) ∧
    (63 < s.div.toNat →
      exec .estO s = .next { s with status := ⟨false, true, true, false, .div⟩, phase := .idle })

/-- 40_estimator.md R113: the estimate is the rounded and clamped real number `-log2(-log2(1 - n/S))`, and 0 for `S <= n`. -/
def Obligations.EstimateIsTheRoundedLogarithm : Prop :=
  ∀ S n : ℕ, 1 ≤ n → S < 2 ^ 64 →
    (S ≤ n → estDiv S n = 0) ∧
    (n < S → (estDiv S n : ℤ) = max 0 (round (-Real.logb 2 (-Real.logb 2 (1 - (n : ℝ) / (S : ℝ))))))

/-- 40_estimator.md R116: for `S > n` the estimate is the number of `k` with `T_k <= S / n`, `T_k` increasing, so it is 0 below
`T_0` and `k` from `T_(k-1)` up to `T_k`. -/
def Obligations.EstimateCountsThresholds : Prop :=
  StrictMono (fun k : ℕ => 1 / (1 - (2 : ℝ) ^ (-(2 : ℝ) ^ (-((k : ℝ) + 1 / 2))))) ∧
  ∀ S n : ℕ, 1 ≤ n → n < S → S < 2 ^ 64 →
    estDiv S n = Nat.card {k : ℕ // 1 / (1 - (2 : ℝ) ^ (-(2 : ℝ) ^ (-((k : ℝ) + 1 / 2)))) ≤ (S : ℝ) / (n : ℝ)} ∧
    (estDiv S n = 0 ↔ (S : ℝ) / (n : ℝ) < 1 / (1 - (2 : ℝ) ^ (-(2 : ℝ) ^ (-(((0 : ℕ) : ℝ) + 1 / 2))))) ∧
    (∀ k : ℕ, estDiv S n = k + 1 ↔
      1 / (1 - (2 : ℝ) ^ (-(2 : ℝ) ^ (-((k : ℝ) + 1 / 2)))) ≤ (S : ℝ) / (n : ℝ) ∧
      (S : ℝ) / (n : ℝ) < 1 / (1 - (2 : ℝ) ^ (-(2 : ℝ) ^ (-(((k + 1 : ℕ) : ℝ) + 1 / 2)))))

/-- 40_estimator.md R117: the estimate is at most `DIV_MAX`, reached by the largest mean; so a successful `EST` or `CMPR` leaves a
legal value in `RDIV`. -/
def Obligations.EstimateIsALegalDivisor : Prop :=
  (∀ S n : ℕ, 1 ≤ n → S < 2 ^ 64 → estDiv S n ≤ 63) ∧ estDiv (2 ^ 64 - 1) 1 = 63 ∧
  (∀ s t : State, exec .est s = .next t ∨ exec .cmpr s = .next t → t.status.ecode = .success → t.rdiv.toNat ≤ 63)

/-- 40_estimator.md R121: the estimate grows with the sum, falls with the count, and depends only on the ratio. -/
def Obligations.EstimateMonotoneInTheMean : Prop :=
  (∀ S S' n : ℕ, S ≤ S' → estDiv S n ≤ estDiv S' n) ∧
  (∀ S n n' : ℕ, n ≤ n' → estDiv S n' ≤ estDiv S n) ∧
  (∀ c S n : ℕ, 1 ≤ c → estDiv (c * S) (c * n) = estDiv S n) ∧
  (∀ S n S' n' : ℕ, 1 ≤ n → 1 ≤ n' → n < S → S * n' = S' * n → estDiv S n = estDiv S' n')

/-! ## The encoder -/

/-- 42_encoder.md R149: a successful `ENC`, `CMPR.O` (with `d = DIV`) or `CMPR` (with `d = EstDiv(S, n)`) of at least one gap leaves
the payload of the gaps, its lengths and `d`; bytes past it and everything else are as before. -/
def Obligations.EncodeWritesThePayload : Prop :=
  ∀ (i : Instr) (s : State) (gs : List Nat) (d : Nat),
    ((i = .enc ∨ i = .cmprO) ∧ s.div.toNat ≤ 63 ∧ d = s.div.toNat) ∨
      (i = .cmpr ∧ gs.sum < 2 ^ 64 ∧ d = estDiv gs.sum s.ngaps.toNat) →
    s.params.WF → s.ngaps.toNat ≤ s.params.gapDepth → s.ngaps ≠ 0 → gapOperand s = some gs →
    ceilDiv8 (totalBits gs d) ≤ s.params.strBytes →
    ∃ t, exec i s = .next t ∧
      t = { s with
            strmem := t.strmem
            strlen := t.strlen
            totbits := t.totbits
            rdiv := t.rdiv
            status := ⟨false, true, false, false, .success⟩
            phase := .idle } ∧
      t.totbits.toNat = totalBits gs d ∧ t.strlen.toNat = ceilDiv8 (totalBits gs d) ∧ 1 ≤ t.strlen.toNat ∧
      t.rdiv.toNat = d ∧
      (∀ k, k < t.strlen.toNat → t.strmem.read k = (payload gs d)[k]?) ∧
      (∀ j, t.totbits.toNat ≤ j → j < 8 * t.strlen.toNat → getBit t.strmem j = some false) ∧
      (∀ k, t.strlen.toNat ≤ k → t.strmem.read k = s.strmem.read k) ∧ t.strmem.epoch = s.strmem.epoch

/-- 42_encoder.md R144: with no gaps the encoder commands write 0 to `RDIV`, `STRLEN` and `TOTBITS`, touch no `STRMEM` cell and raise
`NODATA`; the pre-checks still come first. -/
def Obligations.EmptyGapSequenceGivesEmptyPayload : Prop :=
  ∀ (i : Instr) (s : State), s.ngaps = 0 → i = .enc ∨ i = .cmpr ∨ i = .cmprO →
    (i = .cmpr ∨ s.div.toNat ≤ 63 →
      exec i s = .next
        { s with
          rdiv := 0
          strlen := 0
          totbits := 0
          status := ⟨false, true, false, true, .success⟩
          phase := .idle }) ∧
    (i ≠ .cmpr → s.div = 200#8 →
      exec i s = .next { s with status := ⟨false, true, true, false, .div⟩, phase := .idle })

/-- 42_encoder.md R146: a payload that does not fit ends the command with `E_CAP` before any write. -/
def Obligations.PayloadTooLargeIsECap : Prop :=
  ∀ (i : Instr) (s : State) (gs : List Nat) (d : Nat),
    ((i = .enc ∨ i = .cmprO) ∧ s.div.toNat ≤ 63 ∧ d = s.div.toNat) ∨
      (i = .cmpr ∧ gs.sum < 2 ^ 64 ∧ d = estDiv gs.sum s.ngaps.toNat) →
    s.ngaps.toNat ≤ s.params.gapDepth → s.ngaps ≠ 0 → gapOperand s = some gs →
    s.params.strBytes < ceilDiv8 (totalBits gs d) →
    exec i s = .next { s with status := ⟨false, true, true, false, .cap⟩, phase := .idle }

/-- 42_encoder.md R142: `CMPR.O` computes exactly the function of `ENC`. -/
def Obligations.CmprOverrideIsEnc : Prop := ∀ s : State, exec .cmprO s = exec .enc s

/-- 42_encoder.md R141, 95_test_vectors.md P6: `EST`, then `ENC` with the estimate carried over to `DIV`, leaves what the one command
`CMPR` leaves, but for `DIV`. -/
def Obligations.CmprIsEstThenEnc : Prop :=
  ∀ s t u : State, exec .est s = .next t → t.status.ecode = .success → exec .enc { t with div := t.rdiv } = .next u →
    u.status.ecode = .success → exec .cmpr s = .next { u with div := s.div }

/-- 42_encoder.md R153: the size facts. -/
def Obligations.TotalBitsBounds : Prop :=
  ∀ (gs : List Nat) (d : Nat),
    gs.length ≤ totalBits gs d ∧ totalBits gs 0 = gs.sum + gs.length ∧
    gs.length * (d + 1) ≤ totalBits gs d ∧ totalBits gs d ≤ gs.length * (d + 1) + gs.sum / 2 ^ d

/-- 30_encoding.md R81: the fields of a codeword by offset, and its length. -/
def Obligations.CodewordFields : Prop :=
  ∀ g d : Nat,
    (codeword g d).length = codewordLength g d ∧ codewordLength g d = g / 2 ^ d + 1 + d ∧
    (∀ t, t < g / 2 ^ d → (codeword g d)[t]? = some false) ∧
    (codeword g d)[g / 2 ^ d]? = some true ∧
    (∀ t, t < d → (codeword g d)[g / 2 ^ d + 1 + t]? = some ((g % 2 ^ d).testBit t))

/-- 30_encoding.md R87: for a fixed division parameter the code is injective and prefix-free. -/
def Obligations.CodeIsPrefixFree : Prop :=
  ∀ g h d : Nat, codeword g d <+: codeword h d → g = h

/-- 20_memory.md R62: on a buffer in canonical form `PutBits` is the bit-by-bit `SetBit` of the 1 bits of the value; with no bits it
touches nothing. -/
def Obligations.PutBitsIsBitwiseSetBit : Prop :=
  ∀ (m : Memory Byte) (idx v n : Nat), m.wf → v < 2 ^ n →
    putBits m idx v n = (List.range n).foldl (fun acc t => if v.testBit t then setBit acc (idx + t) else acc) m

/-- 20_memory.md R60, R61: `SetBit` ORs `2^(idx mod 8)` into one byte, is idempotent, clears no bit and leaves every other byte. -/
def Obligations.SetBitIsAnIdempotentOr : Prop :=
  ∀ (m : Memory Byte) (idx : Nat), m.wf →
    (∀ b, m.read (idx / 8) = some b → (setBit m idx).read (idx / 8) = some (b ||| BitVec.ofNat 8 (2 ^ (idx % 8)))) ∧
    (∀ k, k ≠ idx / 8 → (setBit m idx).read k = m.read k) ∧
    setBit (setBit m idx) idx = setBit m idx ∧
    (∀ j, getBit m j = some true → getBit (setBit m idx) j = some true)

/-! ## The gap sequence -/

/-- 41_gap_sequence.md R133: `Prefix(g)` has the length of `g` and `P[i] = g[0] + ... + g[i]`; running sums invert gaps, and gaps
invert running sums when only the first gap may be 0; the last running sum is the sum of all gaps, so the last set position of a
bitmap is the sum of its gaps. -/
def Obligations.RunningSumsInvertGaps : Prop :=
  (∀ gs : List Nat, (runningSums gs).length = gs.length ∧
    ∀ i, i < gs.length → (runningSums gs)[i]? = some (gs.take (i + 1)).sum) ∧
  (∀ ps : List Nat, ps.Pairwise (· < ·) → runningSums (gapsOf ps) = ps) ∧
  (∀ gs : List Nat, (∀ i, 0 < i → i < gs.length → 1 ≤ gs.getD i 0) → gapsOf (runningSums gs) = gs) ∧
  (∀ gs : List Nat, (runningSums gs).getLastD 0 = gs.sum) ∧
  (∀ b : List Bool, (positions b).getLastD 0 = (gapsOf (positions b)).sum)

/-- 41_gap_sequence.md R134: exactly these sequences are the gaps of a bitmap of `N` bits. Only the first gap can be 0, exactly when
position 0 is set; there are at most `N` gaps, each below `N`, so with `N <= 2^64` each fits a `GAPMEM` word and the sum is below
`2^64`. -/
def Obligations.GapSequencesOfBitmaps : Prop :=
  (∀ (N : Nat) (gs : List Nat),
    (∃ b : List Bool, b.length = N ∧ gapsOf (positions b) = gs) ↔
      gs = [] ∨ ((∀ i, 0 < i → i < gs.length → 1 ≤ gs.getD i 0) ∧ gs.sum < N)) ∧
  (∀ b : List Bool,
    ((gapsOf (positions b))[0]? = some 0 ↔ b[0]? = some true) ∧
    (gapsOf (positions b)).length ≤ b.length ∧ (∀ g ∈ gapsOf (positions b), g < b.length) ∧
    (b.length ≤ 2 ^ 64 → (∀ g ∈ gapsOf (positions b), g < 2 ^ 64) ∧ (gapsOf (positions b)).sum < 2 ^ 64))

/-! ## The decoder -/

/-- 43_decoder.md R169: when the pre-checks pass, `COUNT` is the number of positions committed, `POS` the last of them or 0, the bits of
the bitmap range are exactly the committed positions, and everything else is as before. -/
def Obligations.DecodeCommitsTheStreamsPositions : Prop :=
  ∀ (s : State) (bytes : List Byte), s.params.WF → s.div.toNat ≤ 63 → s.strlen.toNat ≤ s.params.strBytes →
    bitmapBytes s ≤ s.params.bmBytes → payloadOperand s = some bytes →
    ∃ t, exec .dec s = .next t ∧
      t = { s with
            count := t.count
            pos := t.pos
            bitmem := t.bitmem
            status := statusCompleted (referenceDecode (bitsOf bytes) s.div.toNat s.bitlen.toNat).2
              (decide (s.strlen = 0))
            phase := .idle } ∧
      t.count.toNat = (referenceDecode (bitsOf bytes) s.div.toNat s.bitlen.toNat).1.length ∧
      t.pos.toNat = (referenceDecode (bitsOf bytes) s.div.toNat s.bitlen.toNat).1.getLastD 0 ∧
      (∀ p ∈ (referenceDecode (bitsOf bytes) s.div.toNat s.bitlen.toNat).1, p < s.bitlen.toNat) ∧
      (∀ j, j < 8 * bitmapBytes s →
        getBit t.bitmem j
          = some (decide (j ∈ (referenceDecode (bitsOf bytes) s.div.toNat s.bitlen.toNat).1))) ∧
      (∀ k, bitmapBytes s ≤ k → t.bitmem.read k = s.bitmem.read k) ∧ t.bitmem.epoch = s.bitmem.epoch

/-- 43_decoder.md R163: an empty payload gives the all-zero bitmap and `NODATA` with any legal `DIV`; entering the loop would give the
same. -/
def Obligations.EmptyPayloadDecodesToZeros : Prop :=
  ∀ s : State, s.strlen = 0 → s.div.toNat ≤ 63 → bitmapBytes s ≤ s.params.bmBytes →
    (∃ t, exec .dec s = .next t ∧
      t = { s with
            count := 0
            pos := 0
            bitmem := t.bitmem
            status := ⟨false, true, false, true, .success⟩
            phase := .idle } ∧
      (∀ k, k < bitmapBytes s → t.bitmem.read k = some 0) ∧
      (∀ k, bitmapBytes s ≤ k → t.bitmem.read k = s.bitmem.read k)) ∧
    decodeLoop s.strmem s.div.toNat 0 s.bitlen.toNat 1 (decodeStart s) = some (decodeStart s, .success)

/-- 43_decoder.md R166: a stream that ends in zero bits after its last codeword is no error; the zeros are discarded. -/
def Obligations.ExhaustedPrefixEndsTheDecode : Prop :=
  ∀ (s : State) (bytes : List Byte) (gs : List Nat) (zeros : Nat), s.params.WF → s.div.toNat ≤ 63 →
    s.strlen.toNat ≤ s.params.strBytes → bitmapBytes s ≤ s.params.bmBytes → payloadOperand s = some bytes →
    bitsOf bytes = encBits gs s.div.toNat ++ List.replicate zeros false →
    (∀ p ∈ runningSums gs, p < s.bitlen.toNat) →
    ∃ t, exec .dec s = .next t ∧ t.status.ecode = .success ∧ t.count.toNat = gs.length ∧
      t.pos.toNat = (runningSums gs).getLastD 0 ∧
      (∀ p, p < s.bitlen.toNat → getBit t.bitmem p = some (decide (p ∈ runningSums gs)))

/-- 43_decoder.md R167, R176: a terminator followed by fewer than `d` bits ends the command with `E_TRUNC`; the positions before it stay
committed and nothing is set for it. -/
def Obligations.ShortRemainderIsETrunc : Prop :=
  ∀ (s : State) (bytes : List Byte) (gs : List Nat) (q : Nat) (rest : List Bool), s.params.WF → s.div.toNat ≤ 63 →
    s.strlen.toNat ≤ s.params.strBytes → bitmapBytes s ≤ s.params.bmBytes → payloadOperand s = some bytes →
    bitsOf bytes = encBits gs s.div.toNat ++ (List.replicate q false ++ true :: rest) → rest.length < s.div.toNat →
    (∀ p ∈ runningSums gs, p < s.bitlen.toNat) →
    ∃ t, exec .dec s = .next t ∧ t.status = ⟨false, true, true, false, .trunc⟩ ∧ t.count.toNat = gs.length ∧
      t.pos.toNat = (runningSums gs).getLastD 0 ∧
      (∀ p, p < s.bitlen.toNat → getBit t.bitmem p = some (decide (p ∈ runningSums gs)))

/-- 43_decoder.md R168, R176: a codeword whose position is `N` or more ends the command with `E_RANGE`; `COUNT` and `POS` are those of the
last good codeword and nothing is set for it, whatever follows in the stream. -/
def Obligations.PositionOutsideIsERange : Prop :=
  ∀ (s : State) (bytes : List Byte) (gs : List Nat) (g : Nat) (rest : List Bool), s.params.WF → s.div.toNat ≤ 63 →
    s.strlen.toNat ≤ s.params.strBytes → bitmapBytes s ≤ s.params.bmBytes → payloadOperand s = some bytes →
    bitsOf bytes = encBits gs s.div.toNat ++ (codeword g s.div.toNat ++ rest) →
    (∀ p ∈ runningSums gs, p < s.bitlen.toNat) → s.bitlen.toNat ≤ gs.sum + g →
    ∃ t, exec .dec s = .next t ∧ t.status = ⟨false, true, true, false, .range⟩ ∧ t.count.toNat = gs.length ∧
      t.pos.toNat = (runningSums gs).getLastD 0 ∧
      (∀ p, p < s.bitlen.toNat → getBit t.bitmem p = some (decide (p ∈ runningSums gs)))

/-- 43_decoder.md R181: the round trip. A bitmap's gaps, encoded by `ENC`, `CMPR.O` or `CMPR` without error, then decoded with the
resulting `RDIV` (the `DIV` given to `ENC` or `CMPR.O`; any legal `DIV` if there were no gaps) and the bitmap's length, give the bitmap
back, its number of positions and its last position. The decode's state is any with the encoder's `STRMEM` and `STRLEN` and the same configuration. -/
def Obligations.RoundTrip : Prop :=
  ∀ (i : Instr) (b : List Bool) (s t u : State), (i = .enc ∨ i = .cmprO ∨ i = .cmpr) → s.params.WF →
    ceilDiv8 b.length ≤ s.params.bmBytes →
    (gapsOf (positions b)).length ≤ s.params.gapDepth → s.ngaps.toNat = (gapsOf (positions b)).length →
    gapOperand s = some (gapsOf (positions b)) →
    exec i s = .next t → t.status.ecode = .success →
    u.params = t.params → u.strmem = t.strmem → u.strlen = t.strlen → u.bitlen.toNat = b.length →
    u.div.toNat ≤ 63 → (gapsOf (positions b) ≠ [] → u.div = t.rdiv) →
    (i ≠ .cmpr → gapsOf (positions b) ≠ [] → t.rdiv = s.div) ∧
    ∃ v, exec .dec u = .next v ∧ v.status.ecode = .success ∧ v.count.toNat = (gapsOf (positions b)).length ∧
      v.pos.toNat = (positions b).getLastD 0 ∧
      (∀ p, p < b.length → getBit v.bitmem p = b[p]?)

/-! ## Errors and status -/

/-- 60_exceptions.md R193, R195: the pre-checks. `E_DIV` for every command that reads `DIV`, never for `EST` and `CMPR`, whose own estimate
is legal; then `E_LEN` for every command that uses a length register. -/
def Obligations.PreCheckErrors : Prop :=
  (∀ (i : Instr) (s : State), i = .estO ∨ i = .enc ∨ i = .cmprO ∨ i = .dec → 63 < s.div.toNat →
    exec i s = .next { s with status := ⟨false, true, true, false, .div⟩, phase := .idle }) ∧
  statusWord ⟨false, true, true, false, .div⟩ = 0x00000026#32 ∧
  (∀ s t : State, exec .est s = .next t ∨ exec .cmpr s = .next t →
    t.status.ecode ≠ .div ∧ (t.status.ecode = .success → t.rdiv.toNat ≤ 63)) ∧
  (∀ (i : Instr) (s : State), i = .est ∨ i = .enc ∨ i = .cmpr ∨ i = .cmprO →
    (i = .enc ∨ i = .cmprO → s.div.toNat ≤ 63) → s.params.gapDepth < s.ngaps.toNat →
    exec i s = .next { s with status := ⟨false, true, true, false, .len⟩, phase := .idle }) ∧
  (∀ s : State, s.div.toNat ≤ 63 → s.params.strBytes < s.strlen.toNat ∨ s.params.bmBytes < ceilDiv8 s.bitlen.toNat →
    exec .dec s = .next { s with status := ⟨false, true, true, false, .len⟩, phase := .idle }) ∧
  statusWord ⟨false, true, true, false, .len⟩ = 0x00000036#32

/-- 60_exceptions.md R198: `E_OVF` of `EST` and `CMPR` when the gaps sum to `2^64` or more; never by `EST.O`, `ENC`, `CMPR.O`, and, by the
table of codes (R191), not by `NOP` and `DEC` either; never for the gaps of a bitmap of at most `2^64` bits; and the remaining
status values. -/
def Obligations.GapSumOverflowIsEOvf : Prop :=
  (∀ (i : Instr) (s : State) (gs : List Nat), i = .est ∨ i = .cmpr → s.ngaps.toNat ≤ s.params.gapDepth → s.ngaps ≠ 0 →
    gapOperand s = some gs → 2 ^ 64 ≤ gs.sum →
    exec i s = .next { s with status := ⟨false, true, true, false, .ovf⟩, phase := .idle }) ∧
  (∀ (i : Instr) (s t : State), i = .nop ∨ i = .estO ∨ i = .enc ∨ i = .cmprO ∨ i = .dec → exec i s = .next t →
    t.status.ecode ≠ .ovf) ∧
  (∀ b : List Bool, b.length ≤ 2 ^ 64 → (gapsOf (positions b)).sum < 2 ^ 64) ∧
  statusWord ⟨false, true, true, false, .ovf⟩ = 0x00000046#32 ∧
  statusWord ⟨false, true, true, false, .cap⟩ = 0x00000056#32 ∧
  statusWord ⟨false, true, true, false, .trunc⟩ = 0x00000066#32 ∧
  statusWord ⟨false, true, true, false, .range⟩ = 0x00000076#32

/-- 10_state.md R41: the status a command completes with: the no-data flag and the error codes of the table. -/
def Obligations.CompletionStatusPerCommand : Prop :=
  ∀ (i : Instr) (s t : State), exec i s = .next t →
    t.status.busy = false ∧ t.status.done = true ∧ (t.status.err = true ↔ t.status.ecode ≠ .success) ∧
    (t.status.nodata = true ↔ t.status.ecode = .success ∧
      (((i = .est ∨ i = .enc ∨ i = .cmpr ∨ i = .cmprO) ∧ s.ngaps = 0) ∨ (i = .dec ∧ s.strlen = 0))) ∧
    (t.status.ecode = .success ∨
      match i with
      | .nop => False
      | .est => t.status.ecode = .len ∨ t.status.ecode = .ovf
      | .estO => t.status.ecode = .div
      | .enc => t.status.ecode = .div ∨ t.status.ecode = .len ∨ t.status.ecode = .cap
      | .cmpr => t.status.ecode = .len ∨ t.status.ecode = .ovf ∨ t.status.ecode = .cap
      | .cmprO => t.status.ecode = .div ∨ t.status.ecode = .len ∨ t.status.ecode = .cap
      | .dec => t.status.ecode = .div ∨ t.status.ecode = .len ∨ t.status.ecode = .trunc ∨ t.status.ecode = .range)

/-- 60_exceptions.md R194, R196: a command that ends with an error changes only `STATUS` (and `phase`), but for the two run-time errors
of `DEC`, which leave `BITMEM`, `COUNT` and `POS`. -/
def Obligations.FailedCommandsChangeOnlyStatus : Prop :=
  ∀ (i : Instr) (s t : State), exec i s = .next t → t.status.ecode ≠ .success →
    (t.status.ecode ≠ .trunc ∧ t.status.ecode ≠ .range → t = { s with status := t.status, phase := .idle }) ∧
    t = { s with status := t.status, phase := .idle, bitmem := t.bitmem, count := t.count, pos := t.pos }

/-- 10_state.md R24 to R31: which registers and buffers a command may write. -/
def Obligations.CommandsWriteOnlyTheirResults : Prop :=
  ∀ (i : Instr) (s t : State), exec i s = .next t →
    (t.params = s.params ∧ t.cmd = s.cmd ∧ t.div = s.div ∧ t.ngaps = s.ngaps ∧ t.bitlen = s.bitlen ∧
      t.gapmem = s.gapmem ∧ t.seq = s.seq ∧ t.inputs = s.inputs ∧ t.rdata = s.rdata ∧ t.freeCtr = s.freeCtr) ∧
    (i = .nop ∨ i = .est ∨ i = .estO ∨ i = .dec →
      t.strlen = s.strlen ∧ t.totbits = s.totbits ∧ t.strmem = s.strmem) ∧
    (i = .nop ∨ i = .dec → t.rdiv = s.rdiv) ∧
    (i ≠ .dec → t.count = s.count ∧ t.pos = s.pos ∧ t.bitmem = s.bitmem)

/-- 10_state.md R23, 60_exceptions.md R191: the layout of `STATUS` as the host reads it, and the codes. -/
def Obligations.StatusWordLayout : Prop :=
  (∀ st : Status,
    (statusWord st).getLsbD 0 = st.busy ∧ (statusWord st).getLsbD 1 = st.done ∧ (statusWord st).getLsbD 2 = st.err ∧
    (statusWord st).getLsbD 3 = st.nodata ∧ (statusWord st).extractLsb 7 4 = ecodeBits st.ecode ∧
    (statusWord st).extractLsb 31 8 = 0) ∧
  ecodeBits .success = 0 ∧ ecodeBits .cmd = 1 ∧ ecodeBits .div = 2 ∧ ecodeBits .len = 3 ∧ ecodeBits .ovf = 4 ∧
  ecodeBits .cap = 5 ∧ ecodeBits .trunc = 6 ∧ ecodeBits .range = 7

/-! ## Operands and purity -/

/-- 70_reset_and_hazards.md R223: with the buffer cells of its operands known, every command has a completion state; straight after reset
every command has one; no command is refused. -/
def Obligations.ReadyCommandsComplete : Prop :=
  (∀ (i : Instr) (s : State), operandsReady i s → ∃ t, exec i s = .next t) ∧
  (∀ i : Instr, ∃ t, exec i State.reset = .next t) ∧
  (∀ (i : Instr) (s : State) (r : Refusal), exec i s ≠ .refused r)

/-- 00_scope.md R9: a command's results are a function of its declared inputs. Two states that agree on the configuration and on the
operands R223 lists give the same fault, or the same status and, where the command writes its results, the same results. -/
def Obligations.CommandsDependOnlyOnTheirOperands : Prop :=
  ∀ (i : Instr) (s s' : State), s.params = s'.params →
    (i = .estO ∨ i = .enc ∨ i = .cmprO ∨ i = .dec → s.div = s'.div) →
    (i = .est ∨ i = .enc ∨ i = .cmpr ∨ i = .cmprO →
      s.ngaps = s'.ngaps ∧ ∀ k, k < s.ngaps.toNat → s.gapmem.read k = s'.gapmem.read k) →
    (i = .dec → s.strlen = s'.strlen ∧ s.bitlen = s'.bitlen ∧
      ∀ k, k < s.strlen.toNat → s.strmem.read k = s'.strmem.read k) →
    (∀ r, exec i s = .fault r ↔ exec i s' = .fault r) ∧
    (∀ t t', exec i s = .next t → exec i s' = .next t' →
      t.status = t'.status ∧
      (t.status.ecode = .success → i ≠ .nop → i ≠ .dec → t.rdiv = t'.rdiv) ∧
      (t.status.ecode = .success → i = .enc ∨ i = .cmpr ∨ i = .cmprO →
        t.strlen = t'.strlen ∧ t.totbits = t'.totbits ∧
        ∀ k, k < t.strlen.toNat → t.strmem.read k = t'.strmem.read k) ∧
      (t.status.ecode = .success ∨ t.status.ecode = .trunc ∨ t.status.ecode = .range → i = .dec →
        t.count = t'.count ∧ t.pos = t'.pos ∧
        ∀ k, k < bitmapBytes s → t.bitmem.read k = t'.bitmem.read k))

/-! ## Host access -/

/-- 10_state.md R34 (values: R20 to R32): a register read changes no register and no buffer. While idle it returns the register's value
zero-extended; while busy `ID` and `STATUS` do, and any other number returns a free value (log entry 4). -/
def Obligations.RegReadChangesNothing : Prop :=
  ∀ (s : State) (r : Nat) (rest : List Event), s.params.WF → s.inputs = .regRead r :: rest → r ≤ 15 →
    ∃ t v, step s = .next t ∧ t = { s with inputs := rest, rdata := some (.reg v), freeCtr := t.freeCtr } ∧
      (r = 0 → v = BitVec.ofNat 64 0x47524301) ∧
      (r = 2 → v = (statusWord s.status).setWidth 64) ∧
      (s.status.busy = false →
        (r = 1 → v.toNat = s.cmd.toNat) ∧ (r = 3 → v.toNat = s.div.toNat) ∧ (r = 4 → v = s.ngaps) ∧
        (r = 5 → v = s.strlen) ∧ (r = 6 → v = s.bitlen) ∧ (r = 7 → v.toNat = s.rdiv.toNat) ∧
        (r = 8 → v = s.totbits) ∧ (r = 9 → v = s.count) ∧ (r = 10 → v = s.pos) ∧ (11 ≤ r → v = 0))

/-- 10_state.md R35: a write to a read/write register while idle stores the truncated value (that to `CMD` starts a command, see
CommandStartLatchesAndClears); a write to a read-only or reserved register, and any write while busy, is ignored. -/
def Obligations.RegWriteStoresOrIsIgnored : Prop :=
  ∀ (s : State) (r v : Nat) (rest : List Event), s.params.WF → s.inputs = .regWrite r v :: rest → r ≤ 15 →
    (s.status.busy = true → step s = .next { s with inputs := rest }) ∧
    (s.status.busy = false →
      (r = 1 → ∃ t, step s = .next t ∧ t.cmd = BitVec.ofNat 32 v ∧ t.status.busy = true) ∧
      (r = 3 → step s = .next { s with inputs := rest, div := BitVec.ofNat 8 v }) ∧
      (r = 4 → step s = .next { s with inputs := rest, ngaps := BitVec.ofNat 64 v }) ∧
      (r = 5 → step s = .next { s with inputs := rest, strlen := BitVec.ofNat 64 v }) ∧
      (r = 6 → step s = .next { s with inputs := rest, bitlen := BitVec.ofNat 64 v }) ∧
      (r = 0 ∨ r = 2 ∨ 7 ≤ r → step s = .next { s with inputs := rest }))

/-- 20_memory.md R56, R57: while idle a host write stores its cells, a `GAPMEM` cell the truncated value, and leaves every other cell; a
host read changes no state of the block and returns the cells in order. -/
def Obligations.HostBufferAccess : Prop :=
  (∀ (s : State) (addr : Nat) (v : List Nat) (rest : List Event), s.params.WF → s.status.busy = false →
    s.inputs = .memWriteGap addr v :: rest → 1 ≤ v.length → addr + v.length ≤ s.params.gapDepth →
    ∃ m, step s = .next { s with inputs := rest, gapmem := m } ∧
      (∀ k, k < v.length → m.read (addr + k) = some (BitVec.ofNat 64 (v.getD k 0))) ∧
      (∀ k, k < addr ∨ addr + v.length ≤ k → m.read k = s.gapmem.read k)) ∧
  (∀ (s : State) (addr : Nat) (v : List Byte) (rest : List Event), s.params.WF → s.status.busy = false →
    s.inputs = .memWriteStr addr v :: rest → 1 ≤ v.length → addr + v.length ≤ s.params.strBytes →
    ∃ m, step s = .next { s with inputs := rest, strmem := m } ∧
      (∀ k, k < v.length → m.read (addr + k) = v[k]?) ∧
      (∀ k, k < addr ∨ addr + v.length ≤ k → m.read k = s.strmem.read k)) ∧
  (∀ (s : State) (addr : Nat) (v : List Byte) (rest : List Event), s.params.WF → s.status.busy = false →
    s.inputs = .memWriteBm addr v :: rest → 1 ≤ v.length → addr + v.length ≤ s.params.bmBytes →
    ∃ m, step s = .next { s with inputs := rest, bitmem := m } ∧
      (∀ k, k < v.length → m.read (addr + k) = v[k]?) ∧
      (∀ k, k < addr ∨ addr + v.length ≤ k → m.read k = s.bitmem.read k)) ∧
  (∀ (s : State) (addr n : Nat) (cells : List Byte) (rest : List Event), s.params.WF → s.status.busy = false →
    s.inputs = .memRead .strmem addr n :: rest → 1 ≤ n → addr + n ≤ s.params.strBytes →
    s.strmem.readRange addr n = some cells →
    step s = .next { s with inputs := rest, rdata := some (.bytes cells) }) ∧
  (∀ (s : State) (addr n : Nat) (cells : List Byte) (rest : List Event), s.params.WF → s.status.busy = false →
    s.inputs = .memRead .bitmem addr n :: rest → 1 ≤ n → addr + n ≤ s.params.bmBytes →
    s.bitmem.readRange addr n = some cells →
    step s = .next { s with inputs := rest, rdata := some (.bytes cells) }) ∧
  (∀ (s : State) (addr n : Nat) (cells : List Word) (rest : List Event), s.params.WF → s.status.busy = false →
    s.inputs = .memRead .gapmem addr n :: rest → 1 ≤ n → addr + n ≤ s.params.gapDepth →
    s.gapmem.readRange addr n = some cells →
    step s = .next { s with inputs := rest, rdata := some (.gaps cells) })

/-- 20_memory.md R58: while busy a host write to a buffer is ignored, and a host read changes no state of the block. -/
def Obligations.BusyBufferAccessHasNoEffect : Prop :=
  ∀ (s : State) (ev : Event) (rest : List Event), s.params.WF → s.status.busy = true → s.inputs = ev :: rest →
    ev.wellFormed s.params = true →
    ((∃ addr v, ev = .memWriteGap addr v) ∨ (∃ addr v, ev = .memWriteStr addr v) ∨ (∃ addr v, ev = .memWriteBm addr v) →
      step s = .next { s with inputs := rest }) ∧
    ((∃ space addr n, ev = .memRead space addr n) →
      ∃ t, step s = .next t ∧ t = { s with inputs := rest, rdata := t.rdata, freeCtr := t.freeCtr })

/-- 00_scope.md R7, 10_state.md R32, 20_memory.md R56, R57: what the model refuses, each under its name: a configuration that breaks a
constraint, a register number of 16 or above, a read of no cell or of cells outside the space, and a write with the same bounds. -/
def Obligations.RefusedAccesses : Prop :=
  (∀ s : State, ¬(1 ≤ s.params.gapDepth ∧ s.params.gapDepth < 2 ^ 64 ∧ 1 ≤ s.params.strBytes ∧
      s.params.strBytes < 2 ^ 61 ∧ 1 ≤ s.params.bmBytes ∧ s.params.bmBytes < 2 ^ 61) →
    step s = .refused .badConfiguration) ∧
  (∀ (s : State) (r v : Nat) (rest : List Event), s.params.WF → 16 ≤ r →
    s.inputs = .regRead r :: rest ∨ s.inputs = .regWrite r v :: rest → step s = .refused .hostRegister) ∧
  (∀ (s : State) (space : Space) (addr n : Nat) (rest : List Event), s.params.WF → s.inputs = .memRead space addr n :: rest →
    n = 0 ∨ s.params.cells space < addr + n → step s = .refused .hostBounds) ∧
  (∀ (s : State) (addr : Nat) (v : List Nat) (rest : List Event), s.params.WF → s.inputs = .memWriteGap addr v :: rest →
    v = [] ∨ s.params.gapDepth < addr + v.length → step s = .refused .hostBounds) ∧
  (∀ (s : State) (addr : Nat) (v : List Byte) (rest : List Event), s.params.WF → s.inputs = .memWriteStr addr v :: rest →
    v = [] ∨ s.params.strBytes < addr + v.length → step s = .refused .hostBounds) ∧
  (∀ (s : State) (addr : Nat) (v : List Byte) (rest : List Event), s.params.WF → s.inputs = .memWriteBm addr v :: rest →
    v = [] ∨ s.params.bmBytes < addr + v.length → step s = .refused .hostBounds)

/-- 30_encoding.md R100, 70_reset_and_hazards.md R226: `WAIT` reads `STATUS`; with `BUSY = 0` it is done, with `BUSY = 1` the sequencer takes
one micro-step and the host goes on waiting (log entry 20). -/
def Obligations.WaitPollsTheStatus : Prop :=
  ∀ (s : State) (rest : List Event), s.params.WF → s.inputs = .wait :: rest →
    (s.status.busy = false →
      step s = .next { s with inputs := rest, rdata := some (.reg ((statusWord s.status).setWidth 64)) }) ∧
    (s.status.busy = true →
      step s = seqStep { s with rdata := some (.reg ((statusWord s.status).setWidth 64)) })

/-! ## Reset -/

/-- 10_state.md R42: the state after reset. That no buffer cell has known contents is said as: the read gives no value (log entry 5). -/
def Obligations.ResetValues : Prop :=
  State.reset.cmd = 0 ∧ statusWord State.reset.status = 0 ∧ State.reset.div = 0 ∧ State.reset.ngaps = 0 ∧
  State.reset.strlen = 0 ∧ State.reset.bitlen = 0 ∧ State.reset.rdiv = 0 ∧ State.reset.totbits = 0 ∧
  State.reset.count = 0 ∧ State.reset.pos = 0 ∧ State.reset.phase = .idle ∧
  State.reset.seq.op = 0 ∧ State.reset.seq.ovr = 0 ∧ State.reset.seq.rsv = 0 ∧ State.reset.seq.d = 0 ∧ State.reset.seq.i = 0 ∧
  State.reset.seq.sum = 0 ∧ State.reset.seq.tot = 0 ∧ State.reset.seq.idx = 0 ∧ State.reset.seq.q = 0 ∧
  State.reset.seq.r = 0 ∧ State.reset.seq.j = 0 ∧ State.reset.seq.prefixSum = 0 ∧ State.reset.seq.cnt = 0 ∧
  State.reset.seq.lastpos = 0 ∧
  regValue State.reset 0 = 0x47524301#64 ∧
  (∀ k, State.reset.gapmem.read k = none ∧ State.reset.strmem.read k = none ∧ State.reset.bitmem.read k = none)

/-- 70_reset_and_hazards.md R220, R221: reset, whenever it occurs, puts every register, the phase and the hidden registers into the state
of R42. While idle it leaves all buffer contents unspecified (log entry 6). During a command no completion step happens, the cells
outside the command's output range keep their values: an encoder's output range is all of `STRMEM`, that of `DEC` the bitmap
range, and the other commands and an illegal word in flight have none. -/
def Obligations.ResetAtAnyTime : Prop :=
  ∀ (s : State) (rest : List Event), s.params.WF → s.inputs = .reset :: rest →
    ∃ t, step s = .next t ∧
      t = { State.reset with
            params := s.params
            gapmem := t.gapmem
            strmem := t.strmem
            bitmem := t.bitmem
            inputs := rest
            rdata := s.rdata
            freeCtr := t.freeCtr } ∧
      (s.status.busy = false → ∀ k, t.gapmem.read k = none ∧ t.strmem.read k = none ∧ t.bitmem.read k = none) ∧
      (s.status.busy = true → t.gapmem = s.gapmem ∧
        (seqCommand s = .ok .enc ∨ seqCommand s = .ok .cmpr ∨ seqCommand s = .ok .cmprO →
          t.bitmem = s.bitmem ∧ ∀ k, t.strmem.read k = none) ∧
        (seqCommand s = .ok .dec →
          t.strmem = s.strmem ∧ ∀ k, bitmapBytes s ≤ k → t.bitmem.read k = s.bitmem.read k) ∧
        (seqCommand s = .ok .nop ∨ seqCommand s = .ok .est ∨ seqCommand s = .ok .estO ∨ (∃ err, seqCommand s = .error err) →
          t.strmem = s.strmem ∧ t.bitmem = s.bitmem))

/-! ## Invariants -/

/-- The invariant holds after reset. -/
def Obligations.InvariantAtReset : Prop := Inv State.reset

/-- 10_state.md R33, R38, R28; 20_memory.md R69; 40_estimator.md R117: every step, of the host, of the sequencer, of a whole command or of
reset, keeps the invariant. -/
def Obligations.StepKeepsInvariant : Prop := ∀ s t : State, Inv s → step s = .next t → Inv t

/-- 10_state.md R38, R23: `BUSY` is 1 exactly when `phase` is not `IDLE`, and the sequencer's last micro-step of a command is the one from
`FINISH`: it is the only one that clears `BUSY`, and what it leaves in `STATUS` is R37's. -/
def Obligations.OnlyFinishCompletes : Prop :=
  ∀ s t : State, Inv s → s.status.busy = true → seqStep s = .next t →
    (t.status.busy = false ↔ s.phase = .finish) ∧
    (s.phase = .finish → t.phase = .idle ∧ t.status.done = true ∧ t.status.ecode = s.seq.e ∧
      (t.status.err = true ↔ s.seq.e ≠ .success) ∧ (t.status.nodata = true ↔ s.seq.nd = true ∧ s.seq.e = .success) ∧
      t.gapmem = s.gapmem ∧ t.strmem = s.strmem ∧ t.bitmem = s.bitmem) ∧
    (s.phase ≠ .finish → t.status = s.status)

/-! ## The reference sequencer -/

/-- 40_estimator.md R118, 00_scope.md R8: the sequencer's run of `NOP`, `EST`, `EST.O` or an illegal word ends as the command level says:
the same visible completion state, or the same fault. -/
def Obligations.SequencerRefinesEstimator : Prop :=
  ∀ (c : Nat) (s : State), s.status.busy = false →
    decode (BitVec.ofNat 32 c) = .ok .nop ∨ decode (BitVec.ofNat 32 c) = .ok .est ∨
      decode (BitVec.ofNat 32 c) = .ok .estO ∨ (∃ err, decode (BitVec.ofNat 32 c) = .error err) →
    ∃ k, SameVisible (seqRun k (startCommand c s)) (runCommand c s)

/-- 42_encoder.md R150: the same of `ENC`, `CMPR`, `CMPR.O`. -/
def Obligations.SequencerRefinesEncoder : Prop :=
  ∀ (c : Nat) (s : State), s.status.busy = false →
    decode (BitVec.ofNat 32 c) = .ok .enc ∨ decode (BitVec.ofNat 32 c) = .ok .cmpr ∨
      decode (BitVec.ofNat 32 c) = .ok .cmprO →
    ∃ k, SameVisible (seqRun k (startCommand c s)) (runCommand c s)

/-- 43_decoder.md R171: the same of `DEC`. -/
def Obligations.SequencerRefinesDecoder : Prop :=
  ∀ (c : Nat) (s : State), s.status.busy = false → decode (BitVec.ofNat 32 c) = .ok .dec →
    ∃ k, SameVisible (seqRun k (startCommand c s)) (runCommand c s)

/-- 70_reset_and_hazards.md R232: a command that has a completion state reaches it within the bound of micro-steps. -/
def Obligations.CommandsCompleteWithinTheBound : Prop :=
  ∀ (c : Nat) (i : Instr) (s t : State), s.params.WF → s.status.busy = false → decode (BitVec.ofNat 32 c) = .ok i →
    runCommand c s = .next t →
    ∃ k u, k ≤ microStepBound i t ∧ seqRun k (startCommand c s) = .next u ∧ visible u = visible t

/-! ## The sequencer's accesses -/

/-- 20_memory.md R69, R66: in every state that meets the invariant, every access of the sequencer's next micro-step is inside the space
it addresses, phase by phase, and each byte that `ENC_EMIT` and `DEC_REM` OR into is known. -/
def Obligations.SequencerAccessesInside : Prop :=
  ∀ s : State, Inv s →
    (s.phase = .estSum ∨ s.phase = .encSize ∨ s.phase = .encEmit → s.seq.i < s.params.gapDepth) ∧
    (s.phase = .encZero → s.seq.i < s.params.strBytes) ∧
    (s.phase = .encEmit → ∃ g, s.gapmem.read s.seq.i = some g ∧
      ∀ j, s.seq.idx ≤ j → j < s.seq.idx + codewordLength g.toNat s.seq.d →
        j / 8 < ceilDiv8 s.seq.tot ∧ ceilDiv8 s.seq.tot ≤ s.params.strBytes ∧ (s.strmem.read (j / 8)).isSome = true) ∧
    (s.phase = .decZero → s.seq.i < bitmapBytes s ∧ bitmapBytes s ≤ s.params.bmBytes) ∧
    (s.phase = .decScan ∧ s.seq.idx ≠ 8 * s.strlen.toNat ∨ s.phase = .decRem ∧ s.seq.j < s.seq.d →
      s.seq.idx / 8 < s.strlen.toNat ∧ s.strlen.toNat ≤ s.params.strBytes) ∧
    (s.phase = .decRem → ∀ p, p < s.bitlen.toNat →
      p / 8 < bitmapBytes s ∧ bitmapBytes s ≤ s.params.bmBytes ∧ (s.bitmem.read (p / 8)).isSome = true)
end

