-- ==== Sys2Proof/Laws/Threshold.lean ====
section
/-! SUPPORT. The thresholds of the estimate over the reals (40_estimator.md R116): each figure of the model's table is the real
threshold truncated to 40 decimal places (by fixed-point bounds of `ln 2` and `sqrt 2` and the recursion `1 - w^2 = (1 - w)(1 + w)`),
and no mean with a sum below `2^64` falls between a figure and the next (log entry 10). The end is one lemma on `estDiv`:
`lt_estDiv_iff`. -/
namespace Sys2Proof.Machine

/-- `T_k` (40_estimator.md R116). -/
noncomputable def realThreshold (k : ℕ) : ℝ := 1 / (1 - (2 : ℝ) ^ (-(2 : ℝ) ^ (-((k : ℝ) + 1 / 2))))

/-- `1 / T_k`. -/
noncomputable def gapOfOne (k : ℕ) : ℝ := 1 - (2 : ℝ) ^ (-(2 : ℝ) ^ (-((k : ℝ) + 1 / 2)))

theorem exponent_rec (k : ℕ) : (2 : ℝ) ^ (-((k : ℝ) + 1 / 2)) = 2 * (2 : ℝ) ^ (-(((k + 1 : ℕ) : ℝ) + 1 / 2)) := by
  have : (-((k : ℝ) + 1 / 2)) = 1 + (-(((k + 1 : ℕ) : ℝ) + 1 / 2)) := by push_cast; ring
  rw [this, Real.rpow_add (by norm_num), Real.rpow_one]

/-- `1 - w^2 = (1 - w)(1 + w)`, with `w = 2^(-2^(-(k + 1 + 1/2)))`. -/
theorem gapOfOne_rec (k : ℕ) : gapOfOne k = gapOfOne (k + 1) * (2 - gapOfOne (k + 1)) := by
  have h : (2 : ℝ) ^ (-(2 : ℝ) ^ (-((k : ℝ) + 1 / 2)))
      = ((2 : ℝ) ^ (-(2 : ℝ) ^ (-(((k + 1 : ℕ) : ℝ) + 1 / 2)))) ^ (2 : ℕ) := by
    rw [exponent_rec, ← Real.rpow_natCast, ← Real.rpow_mul (by norm_num)]
    congr 1
    push_cast; ring
  unfold gapOfOne
  rw [h]; ring

theorem gapOfOne_pos (k : ℕ) : 0 < gapOfOne k := by
  unfold gapOfOne
  have : (2 : ℝ) ^ (-(2 : ℝ) ^ (-((k : ℝ) + 1 / 2))) < 1 := by
    apply Real.rpow_lt_one_of_one_lt_of_neg (by norm_num)
    have : (0:ℝ) < (2 : ℝ) ^ (-((k : ℝ) + 1 / 2)) := by positivity
    linarith
  linarith

theorem gapOfOne_lt_one (k : ℕ) : gapOfOne k < 1 := by
  unfold gapOfOne
  have : (0 : ℝ) < (2 : ℝ) ^ (-(2 : ℝ) ^ (-((k : ℝ) + 1 / 2))) := by positivity
  linarith

/-- `gapOfOne k` from the exponential. -/
theorem gapOfOne_exp (k : ℕ) : gapOfOne k = 1 - Real.exp (-(Real.log 2 * Real.sqrt 2 / 2 ^ (k + 1))) := by
  unfold gapOfOne
  rw [Real.rpow_def_of_pos (by norm_num)]
  congr 2
  have h : (2 : ℝ) ^ (-((k : ℝ) + 1 / 2)) = Real.sqrt 2 / 2 ^ (k + 1) := by
    have : (-((k : ℝ) + 1 / 2)) = 1 / 2 - ((k + 1 : ℕ) : ℝ) := by push_cast; ring
    rw [this, Real.rpow_sub (by norm_num), Real.rpow_natCast, ← Real.sqrt_eq_rpow]
  rw [h]; ring

/-- `x - x^2 <= 1 - exp (-x) <= x` at the exponent of `gapOfOne k`. -/
theorem gapOfOne_bounds {k : ℕ} {x : ℝ} (hx : x = Real.log 2 * Real.sqrt 2 / 2 ^ (k + 1)) (h0 : 0 ≤ x) (h1 : x ≤ 1) :
    x - x ^ 2 ≤ gapOfOne k ∧ gapOfOne k ≤ x := by
  rw [gapOfOne_exp, ← hx]
  have a := Real.add_one_le_exp (-x)
  have b := Real.abs_exp_sub_one_sub_id_le (x := -x) (by rw [abs_neg, abs_of_nonneg h0]; exact h1)
  rw [abs_le] at b
  constructor <;> nlinarith [b.2]

/-! ## Integer bounds of `ln 2` -/

/-- `⌊2^(s - i - 1) / (i + 1)⌋` summed: a lower bound of `2^s * ln 2`. -/
def logSum (s : Nat) : Nat → Nat
  | 0 => 0
  | n + 1 => logSum s n + 2 ^ (s - (n + 1)) / (n + 1)

/-- The partial sum of the series of `-ln (1 - 1/2)` lies within `n` units of `logSum`. -/
theorem logSum_bounds (s n : ℕ) (h : n ≤ s) :
    (logSum s n : ℝ) / 2 ^ s ≤ ∑ i ∈ Finset.range n, (1 / 2 : ℝ) ^ (i + 1) / (i + 1) ∧
    ∑ i ∈ Finset.range n, (1 / 2 : ℝ) ^ (i + 1) / (i + 1) ≤ ((logSum s n + n : ℕ) : ℝ) / 2 ^ s := by
  induction n with
  | zero => simp [logSum]
  | succ n ih =>
    obtain ⟨l, u⟩ := ih (by omega)
    rw [Finset.sum_range_succ, logSum]
    have e : (1 / 2 : ℝ) ^ (n + 1) / ((n : ℝ) + 1) = ((2 ^ (s - (n + 1)) : ℕ) : ℝ) / ((n + 1 : ℕ) : ℝ) / 2 ^ s := by
      have : (2 : ℝ) ^ s = 2 ^ (s - (n + 1)) * 2 ^ (n + 1) := by rw [← pow_add]; congr 1; omega
      rw [this]
      push_cast
      field_simp
      rw [← mul_pow]; norm_num
    have l' : ((2 ^ (s - (n + 1)) / (n + 1) : ℕ) : ℝ) ≤ ((2 ^ (s - (n + 1)) : ℕ) : ℝ) / ((n + 1 : ℕ) : ℝ) := Nat.cast_div_le
    have u' : ((2 ^ (s - (n + 1)) : ℕ) : ℝ) / ((n + 1 : ℕ) : ℝ) ≤ ((2 ^ (s - (n + 1)) / (n + 1) : ℕ) : ℝ) + 1 := by
      rw [div_le_iff₀ (by positivity)]
      have := Nat.lt_mul_div_succ (2 ^ (s - (n + 1))) (Nat.succ_pos n)
      have : (2 ^ (s - (n + 1)) : ℕ) ≤ (2 ^ (s - (n + 1)) / (n + 1) + 1) * (n + 1) := by
        rw [Nat.mul_comm]; exact this.le
      exact_mod_cast this
    have hs : (0 : ℝ) < 2 ^ s := by positivity
    rw [e]
    constructor
    · rw [Nat.cast_add, add_div]
      gcongr
    · have : ((logSum s n + 2 ^ (s - (n + 1)) / (n + 1) + (n + 1) : ℕ) : ℝ) / 2 ^ s
          = ((logSum s n + n : ℕ) : ℝ) / 2 ^ s + (((2 ^ (s - (n + 1)) / (n + 1) : ℕ) : ℝ) + 1) / 2 ^ s := by
        rw [← add_div]; congr 1; push_cast; ring
      rw [this]
      gcongr

theorem log_two_bounds (s n : ℕ) (h : n ≤ s) :
    (logSum s n : ℝ) / 2 ^ s ≤ Real.log 2 + 1 / 2 ^ n ∧
    Real.log 2 ≤ ((logSum s n + n : ℕ) : ℝ) / 2 ^ s + 1 / 2 ^ n := by
  obtain ⟨l, u⟩ := logSum_bounds s n h
  have b := Real.abs_log_sub_add_sum_range_le (x := 1 / 2) (by norm_num [abs_of_pos]) n
  have e : Real.log (1 - 1 / 2) = - Real.log 2 := by
    rw [← Real.log_inv]; norm_num
  have e2 : |(1 / 2 : ℝ)| ^ (n + 1) / (1 - |(1 / 2 : ℝ)|) = 1 / 2 ^ n := by
    rw [abs_of_pos (by norm_num)]
    rw [pow_succ, one_div_pow]; norm_num
  rw [e, e2, abs_le] at b
  constructor
  · linarith [b.1, b.2]
  · linarith [b.1, b.2]


/-! ## Fixed-point bounds, downwards from a large index -/

/-- Fixed-point bounds of a number: `lo / S <= x <= hi / S`. -/
structure Between (S : Nat) (b : Nat × Nat) (x : ℝ) : Prop where
  low : (b.1 : ℝ) ≤ x * S
  high : x * S ≤ (b.2 : ℝ)

/-- One step of the recursion on bounds. -/
def boundsStep (S : Nat) (b : Nat × Nat) : Nat × Nat := (b.1 * (2 * S - b.1) / S, min S (b.2 * (2 * S - b.2) / S + 1))

theorem between_step {S k : Nat} {b : Nat × Nat} (hS : 0 < S) (hb : b.2 ≤ S) (h : Between S b (gapOfOne (k + 1))) :
    Between S (boundsStep S b) (gapOfOne k) := by
  obtain ⟨lo, hi⟩ := b
  obtain ⟨l, u⟩ := h
  simp only at l u hb
  have h0 := gapOfOne_pos (k + 1)
  have h1 := gapOfOne_lt_one (k + 1)
  have hSr : (0 : ℝ) < S := by exact_mod_cast hS
  have hlo : lo ≤ S := by
    have : (lo : ℝ) ≤ S := by nlinarith
    exact_mod_cast this
  rw [show gapOfOne k = _ from gapOfOne_rec k] at *
  set y := gapOfOne (k + 1) with hy
  have hbr : (hi : ℝ) ≤ S := by exact_mod_cast hb
  constructor
  · simp only [boundsStep]
    refine le_trans Nat.cast_div_le ?_
    rw [div_le_iff₀ hSr, Nat.cast_mul, Nat.cast_sub (by omega)]
    push_cast
    nlinarith
  · simp only [boundsStep]
    rw [Nat.cast_min]
    refine le_min ?_ ?_
    · have := gapOfOne_lt_one k
      rw [gapOfOne_rec] at this
      nlinarith
    · have hlt := Nat.lt_mul_div_succ (hi * (2 * S - hi)) hS
      have hlt' : ((hi * (2 * S - hi) : ℕ) : ℝ) ≤ (S : ℝ) * ((hi * (2 * S - hi) / S + 1 : ℕ) : ℝ) := by exact_mod_cast hlt.le
      rw [Nat.cast_mul, Nat.cast_sub (by omega)] at hlt'
      push_cast at hlt' ⊢
      have : y * (2 - y) * S * S ≤ (hi : ℝ) * (2 * S - hi) := by nlinarith
      nlinarith

theorem boundsStep_le (S : Nat) (b : Nat × Nat) : (boundsStep S b).2 ≤ S := Nat.min_le_left _ _

/-- `n` steps of it. -/
def boundsDown (S : Nat) : Nat → Nat × Nat → Nat × Nat
  | 0, b => b
  | n + 1, b => boundsDown S n (boundsStep S b)

theorem between_down {S : Nat} (hS : 0 < S) (n k : Nat) (b : Nat × Nat) (hb : b.2 ≤ S) (h : Between S b (gapOfOne (k + n))) :
    Between S (boundsDown S n b) (gapOfOne k) ∧ (boundsDown S n b).2 ≤ S := by
  induction n generalizing b with
  | zero => exact ⟨h, hb⟩
  | succ n ih => exact ih _ (boundsStep_le S b) (between_step hS hb (by rwa [← Nat.add_assoc] at h))

/-- The figures of a table bracket the reciprocals, from `k` downwards. -/
def figuresFit (S c : Nat) : Nat × Nat → List Nat → Bool
  | _, [] => true
  | b, t :: ts => decide (t * b.2 < c * S) && decide (c * S < (t + 1) * b.1) && figuresFit S c (boundsStep S b) ts

theorem figuresFit_spec {S c : Nat} (hS : 0 < S) (ts : List Nat) (k : Nat) (b : Nat × Nat) (hb : b.2 ≤ S)
    (h : Between S b (gapOfOne k)) (hl : ts.length ≤ k + 1) (hf : figuresFit S c b ts = true) (i : Nat) (hi : i < ts.length) :
    (ts[i] : ℝ) * gapOfOne (k - i) < c ∧ (c : ℝ) < (ts[i] + 1) * gapOfOne (k - i) := by
  induction ts generalizing k b i with
  | nil => simp at hi
  | cons t ts ih =>
    simp only [figuresFit, Bool.and_eq_true, decide_eq_true_eq] at hf
    obtain ⟨⟨f1, f2⟩, f3⟩ := hf
    have hSr : (0 : ℝ) < S := by exact_mod_cast hS
    cases i with
    | zero =>
      simp only [List.getElem_cons_zero, Nat.sub_zero]
      have f1' : (t : ℝ) * b.2 < c * S := by exact_mod_cast f1
      have f2' : (c : ℝ) * S < (t + 1) * b.1 := by exact_mod_cast f2
      have t0 : (0 : ℝ) ≤ t := by positivity
      constructor
      · have := mul_le_mul_of_nonneg_left h.high t0
        nlinarith
      · have := mul_le_mul_of_nonneg_left h.low (by linarith : (0 : ℝ) ≤ (t : ℝ) + 1)
        nlinarith
    | succ i =>
      simp only [List.length_cons] at hl hi
      simp only [List.getElem_cons_succ]
      obtain ⟨k, rfl⟩ : ∃ k', k = k' + 1 := ⟨k - 1, by omega⟩
      have := ih k (boundsStep S b) (boundsStep_le S b) (between_step hS hb h) (by omega) f3 i (by omega)
      rwa [Nat.add_sub_add_right]

/-- `2^256`, the scale of the bounds of `ln 2` and `sqrt 2`. -/
def fixedOne : Nat := 2 ^ 256

/-- The scale of the fixed-point bounds. -/
def boundsScale : Nat := fixedOne * fixedOne * 2 ^ (240 + 1)

/-- `2^256 * sqrt 2`, rounded down. -/
def sqrtTwo : Nat := 163754743014928255235102403085959256615014864942486474123643707201513509564970

theorem sqrtTwo_sq : sqrtTwo ^ 2 ≤ 2 * fixedOne ^ 2 ∧ 2 * fixedOne ^ 2 ≤ (sqrtTwo + 1) ^ 2 := by decide +kernel

theorem sqrtTwo_bounds : (sqrtTwo : ℝ) ≤ Real.sqrt 2 * fixedOne ∧ Real.sqrt 2 * fixedOne ≤ (sqrtTwo : ℝ) + 1 := by
  obtain ⟨a, b⟩ := sqrtTwo_sq
  have a' : (sqrtTwo : ℝ) ^ 2 ≤ 2 * (fixedOne : ℝ) ^ 2 := by exact_mod_cast a
  have b' : (2 : ℝ) * (fixedOne : ℝ) ^ 2 ≤ ((sqrtTwo : ℝ) + 1) ^ 2 := by exact_mod_cast b
  have e : (Real.sqrt 2 * fixedOne) ^ 2 = 2 * (fixedOne : ℝ) ^ 2 := by rw [mul_pow, Real.sq_sqrt (by norm_num)]
  have h0 : (0 : ℝ) ≤ Real.sqrt 2 * fixedOne := by positivity
  have h1 : (0 : ℝ) ≤ (sqrtTwo : ℝ) + 1 := by positivity
  exact ⟨abs_le_of_sq_le_sq' (by rw [e]; exact a') h0 |>.2, abs_le_of_sq_le_sq' (by rw [e]; exact b') h1 |>.2⟩

/-- Fixed-point bounds of `1 - exp (-x)` for `x = ln 2 * sqrt 2 / 2^(k+1)`, from bounds of the factors. -/
def expBounds (S L e r : Nat) : Nat × Nat :=
  ((L - 1) * r * (S - (L + e) * (r + 1)) / S, (L + e) * (r + 1))

theorem between_of_bounds {k L r e A : ℕ} (hA : 0 < A) (hL : 1 ≤ L)
    (l1 : (L : ℝ) ≤ Real.log 2 * A + 1) (l2 : Real.log 2 * A ≤ (L + e : ℕ))
    (r1 : (r : ℝ) ≤ Real.sqrt 2 * A) (r2 : Real.sqrt 2 * A ≤ (r : ℝ) + 1)
    (hq : (expBounds (A * A * 2 ^ (k + 1)) L e r).2 ≤ A * A * 2 ^ (k + 1)) :
    Between (A * A * 2 ^ (k + 1)) (expBounds (A * A * 2 ^ (k + 1)) L e r) (gapOfOne k) := by
  have hA' : (0 : ℝ) < A := by exact_mod_cast hA
  have hlog := Real.log_nonneg (by norm_num : (1 : ℝ) ≤ 2)
  generalize hx : Real.log 2 * Real.sqrt 2 / 2 ^ (k + 1) = x
  obtain ⟨S, hS⟩ : ∃ S, S = A * A * 2 ^ (k + 1) := ⟨_, rfl⟩
  have hSr : (S : ℝ) = A * A * 2 ^ (k + 1) := by rw [hS]; push_cast; ring
  have hSpos : (0 : ℝ) < S := by rw [hSr]; positivity
  have hxS : x * S = (Real.log 2 * A) * (Real.sqrt 2 * A) := by
    rw [← hx, hSr]
    field_simp
  rw [← hS] at hq ⊢
  simp only [expBounds] at hq ⊢
  obtain ⟨q, hqe⟩ : ∃ q, q = (L + e) * (r + 1) := ⟨_, rfl⟩
  obtain ⟨p, hpe⟩ : ∃ p, p = (L - 1) * r := ⟨_, rfl⟩
  have h1 : x * S ≤ (q : ℝ) := by
    rw [hxS, hqe, Nat.cast_mul]
    push_cast at l2 ⊢
    exact mul_le_mul l2 r2 (by positivity) (by positivity)
  have h2 : (p : ℝ) ≤ x * S := by
    rw [hxS, hpe, Nat.cast_mul, Nat.cast_sub hL]
    push_cast
    exact mul_le_mul (by linarith) r1 (by positivity) (by positivity)
  rw [← hqe] at hq ⊢
  rw [← hpe]
  have hq' : (q : ℝ) ≤ S := by exact_mod_cast hq
  have x0 : 0 ≤ x := by rw [← hx]; positivity
  have x1 : x ≤ 1 := by nlinarith
  obtain ⟨g1, g2⟩ := gapOfOne_bounds hx.symm x0 x1
  constructor
  · refine le_trans Nat.cast_div_le ?_
    rw [div_le_iff₀ hSpos, Nat.cast_mul, Nat.cast_sub hq]
    have h3 := mul_le_mul h2 (by linarith : (S : ℝ) - q ≤ S - x * S) (by linarith) (by positivity)
    have h4 := mul_le_mul_of_nonneg_right g1 (mul_nonneg hSpos.le hSpos.le)
    nlinarith
  · nlinarith

/-- Bounds of `1 - 2^(-2^(-(240 + 1/2)))`. -/
def startBounds : Nat × Nat := expBounds boundsScale (logSum 256 256) 257 sqrtTwo

theorem startBounds_check : startBounds.2 ≤ boundsScale ∧ 1 ≤ logSum 256 256 ∧ fixedOne = 2 ^ 256 ∧ 0 < fixedOne := by
  decide +kernel

theorem between_start : Between boundsScale startBounds (gapOfOne 240) := by
  obtain ⟨r1, r2⟩ := sqrtTwo_bounds
  obtain ⟨l1, l2⟩ := log_two_bounds 256 256 le_rfl
  obtain ⟨c1, c2, c3, c4⟩ := startBounds_check
  have p0 : (0 : ℝ) < fixedOne := by exact_mod_cast c4
  have e : (2 : ℝ) ^ 256 = fixedOne := by rw [c3, Nat.cast_pow, Nat.cast_ofNat]
  rw [e] at l1 l2
  refine between_of_bounds c4 c2 ?_ ?_ r1 r2 c1
  · rw [div_le_iff₀ p0, add_mul, div_mul_cancel₀ _ p0.ne'] at l1
    exact l1
  · have := mul_le_mul_of_nonneg_right l2 p0.le
    rw [add_mul, div_mul_cancel₀ _ p0.ne', div_mul_cancel₀ _ p0.ne'] at this
    rw [show logSum 256 256 + 257 = (logSum 256 256 + 256) + 1 from rfl, Nat.cast_add (_ + 256), Nat.cast_one]
    exact this

theorem figures_check : figuresFit boundsScale thresholdScale (boundsDown boundsScale 177 startBounds) thresholds.reverse = true := by
  decide +kernel

theorem thresholds_length : thresholds.length = 64 := by decide

/-- Each figure of the table is the real threshold, truncated to 40 decimal places. -/
theorem threshold_bracket (k : Nat) (hk : k < thresholds.length) :
    (thresholds[k] : ℝ) < realThreshold k * thresholdScale ∧ realThreshold k * thresholdScale < thresholds[k] + 1 := by
  have hk' : k < 64 := by rwa [thresholds_length] at hk
  obtain ⟨h, hle⟩ := between_down (S := boundsScale) (by decide +kernel) 177 63 startBounds startBounds_check.1 between_start
  have hf := figuresFit_spec (by decide +kernel) thresholds.reverse 63 _ hle h (by simp [thresholds_length]) figures_check
    (63 - k) (by simp [thresholds_length]; omega)
  rw [List.getElem_reverse, show 63 - (63 - k) = k by omega] at hf
  simp only [thresholds_length, show 64 - 1 - (63 - k) = k by omega] at hf
  have e : realThreshold k = 1 / gapOfOne k := rfl
  have g := gapOfOne_pos k
  rw [e, one_div, inv_mul_eq_div, lt_div_iff₀ g, div_lt_iff₀ g]
  exact hf

/-! ## No fraction with a numerator below `2^64` lies between a figure and the next -/

/-- For `T_0` to `T_15`, fractions `a / b` and `c / d` with `c * b - a * d = 1` on the two sides of the figure. -/
def neighbours0 : List (Nat × Nat × Nat × Nat) :=
  [(14027289476968371305, 5434910809303904972, 9024740887330697383, 3496659984115555355),
   (10569603865433913023, 2297260832597895308, 17178664959460407957, 3733713644344815685),
   (2512999996362585907, 289805799497736599, 18224206098514431597, 2101663599775615886),
   (1527928232044734310, 90800362066440197, 17244057662061719263, 1024764544807451551),
   (11306395554242058763, 341098453418436486, 16595882064215783364, 500675009826175781),
   (1631123977281695277, 24792810382164608, 18303382251813460508, 278208334769097819),
   (14869209941448094874, 113437454472930865, 14038467648256287453, 107099707448457406),
   (12814897182738012836, 48976122578575637, 5805800526775484513, 22188675742879605),
   (14231252357264073073, 27220615513116352, 14899343466955349852, 28498496810425711),
   (17140765042109398071, 16400717545729453, 3219085707061393543, 3080102627117718),
   (14509451177663059960, 6943166189009279, 10387367590402194919, 4970637315181165),
   (12809916173921640836, 3065313034101139, 14610264592245708843, 3496122369438316),
   (10912273477772793451, 1305689083423009, 12022463210120214955, 1438526902875294),
   (12047986108182921177, 720811962922427, 6528504976652963147, 390590132235784),
   (16968537598569643571, 507607982454847, 4710493743497113914, 140912804748967),
   (10615460045296786465, 158780110673903, 16163894232730667482, 241770484203493)]

/-- For `T_16` to `T_31`, fractions `a / b` and `c / d` with `c * b - a * d = 1` on the two sides of the figure. -/
def neighbours1 : List (Nat × Nat × Nat × Nat) :=
  [(12704827828015662409, 95016207653156, 9584043530386211207, 71676647851299),
   (14453010999754563604, 54045315707981, 4026541838006389237, 15056774318524),
   (17922012778432853633, 33508648967434, 17522012020420152934, 32760770637435),
   (2595076573330871687, 2425998453979, 17215576364980587746, 16093922651459),
   (4646511804339537767, 2171888337336, 16682043232439189830, 7797577336537),
   (3198284815958980941, 747476665882, 15614652187548007336, 3649327320011),
   (8705407681170491356, 1017277988563, 10410112274436724299, 1216482726956),
   (16772457604583164442, 979980091605, 15636367949337918183, 913600717117),
   (6251583973399928493, 182633579075, 12644000225455469492, 369381427943),
   (18249588410104437967, 266571455051, 12596756588389039233, 184000628246),
   (3413316199894426736, 24929128505, 15731453631478044809, 114894550104),
   (4585714428448048833, 16745864987, 15278989999231734611, 55794992832),
   (9048980408293691237, 16522289677, 12472010994653981630, 22772309057),
   (7300751501210212915, 6665122797, 15183326260834076108, 13861413305),
   (1496445719392707454, 683079987, 18260913989710512397, 8335527797),
   (18101068890022945160, 4131281791, 756706920308294551, 172706349)]

/-- For `T_32` to `T_47`, fractions `a / b` and `c / d` with `c * b - a * d = 1` on the two sides of the figure. -/
def neighbours2 : List (Nat × Nat × Nat × Nat) :=
  [(16079025560300048373, 1834891241, 3876634457088293576, 442390155),
   (789771505508368015, 45063204, 18355627853245995334, 1047345209),
   (16830655276986318303, 480166255, 2830711652535300607, 80758128),
   (17938374841102066902, 255884341, 9964596492504942613, 142141316),
   (4985170104125132219, 35555812, 16738929856124604886, 119387349),
   (7708985493905629237, 27491463, 11433462842126497088, 40773539),
   (5250531287421187276, 9362113, 17009724757718728649, 30329686),
   (1476138601055028795, 1316036, 18015717101987014316, 16061725),
   (17981586256404691407, 8015648, 738069300527349893, 329009),
   (16371486133474020155, 3648957, 2952277202109070563, 658018),
   (17847624734527560945, 1988983, 5904554404217812117, 658018),
   (14895347532418239893, 829987, 11809108808435295225, 658018),
   (8990793128200467036, 250489, 14627424488669794405, 407529),
   (15163270576166164773, 211229, 5636631360469288109, 78520),
   (16234962751159052734, 113079, 5636631360469268479, 39260),
   (17028484440647399213, 59303, 2818315680234629332, 9815)]

/-- For `T_48` to `T_63`, fractions `a / b` and `c / d` with `c * b - a * d = 1` on the two sides of the figure. -/
def neighbours3 : List (Nat × Nat × Nat × Nat) :=
  [(12741715740675632511, 22187, 11273262720938507513, 19630),
   (18378347101144878267, 16001, 4168178340732126944, 3629),
   (7105084380206374115, 3093, 16672713362928504147, 7258),
   (12978896459154868859, 2825, 15441441061670624508, 3361),
   (17338886809504592003, 1887, 2462544602515755515, 268),
   (17642110585187501717, 960, 1231272301257877724, 67),
   (16208689100141016982, 441, 4925089205031510829, 134),
   (13746144497625261474, 187, 9850178410063021591, 134),
   (17642110585187501297, 120, 1029123117469270909, 7),
   (17642110585187501267, 60, 10879301527532292448, 37),
   (8821055292593750626, 15, 17054040232347917877, 29),
   (9409125645433333997, 8, 12937547762470834246, 11),
   (9409125645433333995, 4, 11761407056791667494, 5),
   (4704562822716666997, 1, 14113688468150000992, 3),
   (9409125645433333993, 1, 9409125645433333994, 1),
   (18446744073709551615, 1, 1, 0)]

/-- For each threshold, fractions `a / b` and `c / d` with `c * b - a * d = 1` on the two sides of its figure. -/
def neighbours : List (Nat × Nat × Nat × Nat) := neighbours0 ++ neighbours1 ++ neighbours2 ++ neighbours3

/-- `a / b < t / s`, `(t + 1) / s <= c / d`, `c * b - a * d = 1` and `2^64 <= a + c`. -/
def separates (s t : Nat) (f : Nat × Nat × Nat × Nat) : Bool :=
  decide (f.1 * s < t * f.2.1) && decide ((t + 1) * f.2.2.2 ≤ f.2.2.1 * s) &&
    decide (f.2.2.1 * f.2.1 = f.1 * f.2.2.2 + 1) && decide (2 ^ 64 ≤ f.1 + f.2.2.1)

theorem neighbours_check : (thresholds.zip neighbours).all (fun p => separates thresholdScale p.1 p.2) = true := by
  decide +kernel

theorem neighbours_length : neighbours.length = 64 := by decide

/-- A fraction strictly between two neighbours has a numerator at least the sum of theirs. -/
theorem numerator_between {a b c d S n : ℕ} (h : c * b = a * d + 1) (h1 : a * n < S * b) (h2 : S * d < c * n) : a + c ≤ S := by
  have e : S * (c * b) = S * (a * d) + S := by rw [h]; ring
  have h1' : c * (a * n + 1) ≤ c * (S * b) := Nat.mul_le_mul_left c h1
  have h2' : a * (S * d + 1) ≤ a * (c * n) := Nat.mul_le_mul_left a h2
  nlinarith

/-- A mean `S / n` with `S < 2^64` is at or above a figure of the table iff it is at or above the next figure: the truncation
decides as the real threshold between them does. -/
theorem figure_decides {k S n : ℕ} (hk : k < thresholds.length) (hS : S < 2 ^ 64) :
    thresholds[k] * n ≤ S * thresholdScale ↔ (thresholds[k] + 1) * n ≤ S * thresholdScale := by
  have hk' : k < neighbours.length := by rw [neighbours_length]; rwa [thresholds_length] at hk
  have hz := List.all_eq_true.1 neighbours_check (thresholds[k], neighbours[k])
    (by
      have : k < (thresholds.zip neighbours).length := by simp [List.length_zip]; omega
      have hm := List.getElem_mem this
      rw [List.getElem_zip] at hm
      exact hm)
  generalize thresholds[k] = t at *
  generalize neighbours[k] = f at *
  obtain ⟨a, b, c, d⟩ := f
  simp only [separates, Bool.and_eq_true, decide_eq_true_eq] at hz
  obtain ⟨⟨⟨z1, z2⟩, z3⟩, z4⟩ := hz
  constructor
  · intro h
    by_contra hc
    rw [not_le] at hc
    have hn : 0 < n := by
      rcases Nat.eq_zero_or_pos n with h0 | h0
      · subst h0; simp at hc
      · exact h0
    have g1 : a * n < S * b := by
      by_contra hg
      rw [not_lt] at hg
      have x1 : a * thresholdScale * n < t * b * n := Nat.mul_lt_mul_of_pos_right z1 hn
      have x2 : t * n * b ≤ S * thresholdScale * b := Nat.mul_le_mul_right b h
      have x3 : S * b * thresholdScale ≤ a * n * thresholdScale := Nat.mul_le_mul_right _ hg
      nlinarith
    have g2 : S * d < c * n := by
      rcases Nat.eq_zero_or_pos d with h0 | h0
      · subst h0
        have : c * b = 1 := by omega
        have : 0 < c := Nat.pos_of_ne_zero (by rintro rfl; omega)
        simpa using Nat.mul_pos this hn
      · by_contra hg
        rw [not_lt] at hg
        have x1 : S * thresholdScale * d < (t + 1) * n * d := Nat.mul_lt_mul_of_pos_right hc h0
        have x2 : (t + 1) * d * n ≤ c * thresholdScale * n := Nat.mul_le_mul_right n z2
        have x3 : c * n * thresholdScale ≤ S * d * thresholdScale := Nat.mul_le_mul_right _ hg
        nlinarith
    have := numerator_between z3 g1 g2
    omega
  · intro h
    exact le_trans (Nat.mul_le_mul_right n (Nat.le_succ t)) h

/-- Comparing with a figure of the table is comparing the mean with the real threshold (40_estimator.md R116). -/
theorem figure_le_iff {k S n : ℕ} (hk : k < thresholds.length) (hn : 1 ≤ n) (hS : S < 2 ^ 64) :
    thresholds[k] * n ≤ S * thresholdScale ↔ realThreshold k ≤ (S : ℝ) / n := by
  obtain ⟨b1, b2⟩ := threshold_bracket k hk
  have hd := figure_decides (n := n) hk hS
  have hn' : (0 : ℝ) < n := by exact_mod_cast hn
  have hs : (0 : ℝ) < thresholdScale := by exact_mod_cast (by decide : 0 < thresholdScale)
  rw [le_div_iff₀ hn']
  constructor
  · intro h
    have h' : ((thresholds[k] : ℝ) + 1) * n ≤ S * thresholdScale := by exact_mod_cast hd.1 h
    nlinarith
  · intro h
    have : (thresholds[k] : ℝ) * n ≤ S * thresholdScale := by nlinarith
    exact_mod_cast this

/-- `T_63 > 2^64` (40_estimator.md R117). -/
theorem realThreshold_last : (2 : ℝ) ^ 64 < realThreshold 63 := by
  obtain ⟨b1, -⟩ := threshold_bracket 63 (by rw [thresholds_length]; decide)
  have c : 2 ^ 64 * thresholdScale < thresholds[63]'(by rw [thresholds_length]; decide) := by decide +kernel
  have c' : (2 : ℝ) ^ 64 * thresholdScale < (thresholds[63]'(by rw [thresholds_length]; decide) : ℝ) := by exact_mod_cast c
  have hs : (0 : ℝ) < thresholdScale := by exact_mod_cast (by decide : 0 < thresholdScale)
  nlinarith

/-- The mean is at or above `T_k` iff the real estimate before rounding is at least `k + 1/2` (40_estimator.md R116). -/
theorem realThreshold_le_iff {S n : ℕ} (k : ℕ) (hn : 1 ≤ n) (hS : n < S) :
    realThreshold k ≤ (S : ℝ) / n ↔ (k : ℝ) + 1 / 2 ≤ -Real.logb 2 (-Real.logb 2 (1 - (n : ℝ) / (S : ℝ))) := by
  have hn' : (0 : ℝ) < n := by exact_mod_cast hn
  have hS' : (n : ℝ) < S := by exact_mod_cast hS
  have hS0 : (0 : ℝ) < S := hn'.trans hS'
  have w0 : (0 : ℝ) < 1 - (n : ℝ) / S := by rw [sub_pos, div_lt_one hS0]; exact hS'
  have w1 : 1 - (n : ℝ) / S < 1 := by rw [sub_lt_self_iff]; positivity
  have l0 : 0 < -Real.logb 2 (1 - (n : ℝ) / S) := by
    rw [neg_pos]; exact Real.logb_neg (by norm_num) w0 w1
  have g := gapOfOne_pos k
  have e : realThreshold k = 1 / gapOfOne k := rfl
  rw [e, div_le_div_iff₀ g hn', one_mul]
  rw [le_neg, Real.logb_le_iff_le_rpow (by norm_num) l0, neg_le, Real.le_logb_iff_rpow_le (by norm_num) w0]
  unfold gapOfOne
  constructor
  · intro h
    have : (n : ℝ) / S ≤ 1 - (2 : ℝ) ^ (-(2 : ℝ) ^ (-((k : ℝ) + 1 / 2))) := by
      rw [div_le_iff₀ hS0]; linarith
    linarith
  · intro h
    have : (n : ℝ) / S ≤ 1 - (2 : ℝ) ^ (-(2 : ℝ) ^ (-((k : ℝ) + 1 / 2))) := by linarith
    rw [div_le_iff₀ hS0] at this; linarith

/-! ## The estimate -/

/-- The thresholds increase. -/
theorem gapOfOne_decreases (k : ℕ) : gapOfOne (k + 1) < gapOfOne k := by
  have h0 := gapOfOne_pos (k + 1)
  have h1 := gapOfOne_lt_one (k + 1)
  rw [gapOfOne_rec k]
  nlinarith

theorem realThreshold_last_le (k : ℕ) : realThreshold 63 ≤ realThreshold (63 + k) := by
  induction k with
  | zero => exact le_rfl
  | succ k ih =>
    refine ih.trans ?_
    exact one_div_le_one_div_of_le (gapOfOne_pos _) (gapOfOne_decreases (63 + k)).le

/-- Counting a property that holds of an initial part of a list. -/
theorem lt_countP_iff {α : Type} (p : α → Bool) (l : List α) (h : l.Pairwise fun a b => p b = true → p a = true) (k : ℕ) :
    k < l.countP p ↔ ∃ hk : k < l.length, p l[k] = true := by
  induction l generalizing k with
  | nil => simp
  | cons a l ih =>
    rw [List.pairwise_cons] at h
    by_cases ha : p a = true
    · rw [List.countP_cons_of_pos ha]
      cases k with
      | zero => simp [ha]
      | succ k =>
        rw [Nat.add_lt_add_iff_right, ih h.2 k]
        simp
    · have hn : ∀ b ∈ l, ¬p b = true := fun b hb hp => ha (h.1 b hb hp)
      rw [List.countP_cons_of_neg ha, List.countP_eq_zero.2 hn]
      simp only [Nat.not_lt_zero, false_iff, not_exists]
      intro hk hp
      cases k with
      | zero => exact ha hp
      | succ k => exact hn _ (List.getElem_mem (by simpa using hk)) hp

theorem thresholds_increase : thresholds.Pairwise (· ≤ ·) := by decide +kernel

/-- What the estimate is, for every mean above 1 that a command meets: `k` is below it iff `T_k` is at most the mean. -/
theorem lt_estDiv_iff {S n : ℕ} (k : ℕ) (hn : 1 ≤ n) (hS : n < S) (hb : S < 2 ^ 64) :
    k < estDiv S n ↔ realThreshold k ≤ (S : ℝ) / n := by
  have hc := lt_countP_iff (fun t => decide (t * n ≤ S * thresholdScale)) thresholds
    (thresholds_increase.imp fun {a b} hab => by
      simp only [decide_eq_true_eq]
      exact fun h => le_trans (Nat.mul_le_mul_right n hab) h) k
  rw [estDiv, if_neg (by omega), hc]
  by_cases hk : k < thresholds.length
  · simp only [decide_eq_true_eq]
    rw [← figure_le_iff hk hn hb]
    exact ⟨fun h => h.2, fun h => ⟨hk, h⟩⟩
  · refine ⟨fun h => absurd h.1 hk, fun h => ?_⟩
    rw [thresholds_length, not_lt] at hk
    obtain ⟨j, rfl⟩ : ∃ j, k = 63 + j := ⟨k - 63, by omega⟩
    have h1 := realThreshold_last.trans_le ((realThreshold_last_le j).trans h)
    have hn' : (1 : ℝ) ≤ n := by exact_mod_cast hn
    have hS' : (S : ℝ) < 2 ^ 64 := by exact_mod_cast hb
    have : (S : ℝ) / n ≤ S := div_le_self (by positivity) hn'
    linarith

/-- The estimate fits `RDIV` (40_estimator.md R117). -/
theorem estDiv_le_divMax {S n : ℕ} (hn : 1 ≤ n) (hb : S < 2 ^ 64) : estDiv S n ≤ Config.divMax := by
  by_contra h
  have hS : n < S := by
    by_contra hc
    rw [estDiv, if_pos (by omega)] at h
    exact h (Nat.zero_le _)
  have h1 := realThreshold_last.trans_le ((lt_estDiv_iff 63 hn hS hb).1 (by simpa [Config.divMax, Config.W] using h))
  have hn' : (1 : ℝ) ≤ n := by exact_mod_cast hn
  have hS' : (S : ℝ) < 2 ^ 64 := by exact_mod_cast hb
  have : (S : ℝ) / n ≤ S := div_le_self (by positivity) hn'
  linarith

end Sys2Proof.Machine
end

