-- ==== Sys2Proof/Laws/Commands.lean ====
section
/-! SUPPORT. What each shared operation of a command can do, and what a step can be: a buffer is determined by its reads, what an
operand that can be read is, the cases of each command, what the decode loop keeps, the cases of a step. -/

namespace Sys2Proof.Machine

/-! ## Two buffers in canonical form with the same reads are the same -/

theorem lookupCell_lower (l : List (Nat × α)) (a : Nat) (h : ∀ k ∈ l.map Prod.fst, a < k) : lookupCell l a = none := by
  induction l with
  | nil => rfl
  | cons c rest ih =>
    obtain ⟨x, w⟩ := c
    simp only [List.map_cons, List.mem_cons, forall_eq_or_imp] at h
    rw [lookupCell, if_neg (by omega), ih h.2]

theorem cells_ext (l l' : List (Nat × α)) (h : (l.map Prod.fst).Pairwise (· < ·)) (h' : (l'.map Prod.fst).Pairwise (· < ·))
    (hr : ∀ a, lookupCell l a = lookupCell l' a) : l = l' := by
  induction l generalizing l' with
  | nil =>
    cases l' with
    | nil => rfl
    | cons c rest =>
      obtain ⟨x, w⟩ := c
      have := hr x
      simp [lookupCell] at this
  | cons c rest ih =>
    obtain ⟨x, w⟩ := c
    cases l' with
    | nil =>
      have := hr x
      simp [lookupCell] at this
    | cons c' rest' =>
      obtain ⟨x', w'⟩ := c'
      simp only [List.map_cons, List.pairwise_cons] at h h'
      have key : x = x' := by
        rcases lt_trichotomy x x' with hl | he | hg
        · have := hr x
          rw [lookupCell, if_pos rfl, lookupCell, if_neg (by omega), lookupCell_lower rest' x (fun k hk => hl.trans (h'.1 k hk))] at this
          simp at this
        · exact he
        · have := hr x'
          rw [lookupCell, if_neg (by omega), lookupCell, if_pos rfl, lookupCell_lower rest x' (fun k hk => hg.trans (h.1 k hk))] at this
          simp at this
      subst key
      have hw := hr x
      simp only [lookupCell, if_true, Option.some.injEq] at hw
      subst hw
      rw [ih rest' h.2 h'.2]
      intro a
      by_cases ha : a = x
      · subst ha
        rw [lookupCell_lower rest a h.1, lookupCell_lower rest' a h'.1]
      · have := hr a
        simpa only [lookupCell, if_neg ha] using this

theorem memory_ext {m m' : Memory α} (h : m.wf) (h' : m'.wf) (he : m.epoch = m'.epoch) (hr : ∀ a, m.read a = m'.read a) : m = m' := by
  obtain ⟨c, e⟩ := m
  obtain ⟨c', e'⟩ := m'
  simp only [Memory.mk.injEq]
  exact ⟨cells_ext c c' h h' hr, he⟩

/-! ## Operands -/

theorem gapOperand_eq_some {s : State} {gs : List Nat} : gapOperand s = some gs ↔
    gs.length = s.ngaps.toNat ∧ ∀ k, k < s.ngaps.toNat → (s.gapmem.read k).map BitVec.toNat = gs[k]? := by
  unfold gapOperand
  cases h : s.gapmem.readRange 0 s.ngaps.toNat with
  | none =>
    simp only [Option.map_none, reduceCtorEq, false_iff, not_and]
    intro hl hk
    have : ∃ ws, s.gapmem.readRange 0 s.ngaps.toNat = some ws := by
      apply readRange_isSome
      intro k hk'
      have := hk k hk'
      rw [List.getElem?_eq_getElem (by omega)] at this
      cases hr : s.gapmem.read k with
      | none => simp [hr] at this
      | some v => rfl
    obtain ⟨ws, hws⟩ := this
    simp [h] at hws
  | some ws =>
    obtain ⟨hl, hk⟩ := (readRange_eq_some _ _ _ _).1 h
    simp only [Option.map_some, Option.some.injEq]
    constructor
    · rintro rfl
      refine ⟨by simpa using hl, fun k hk' => ?_⟩
      have := hk k hk'
      rw [Nat.zero_add] at this
      rw [this, List.getElem?_map]
    · rintro ⟨hl', hk'⟩
      apply List.ext_getElem?
      intro k
      by_cases h1 : k < s.ngaps.toNat
      · rw [← hk' k h1, List.getElem?_map]
        have := hk k h1
        rw [Nat.zero_add] at this
        rw [this]
      · rw [List.getElem?_eq_none (by simp; omega), List.getElem?_eq_none (by omega)]

theorem gapOperand_length {s : State} {gs : List Nat} (h : gapOperand s = some gs) : gs.length = s.ngaps.toNat :=
  (gapOperand_eq_some.1 h).1

theorem gapOperand_lt {s : State} {gs : List Nat} (h : gapOperand s = some gs) : ∀ g ∈ gs, g < 2 ^ 64 := by
  intro g hg
  obtain ⟨k, hk, rfl⟩ := List.getElem_of_mem hg
  have := (gapOperand_eq_some.1 h).2 k (by rw [← (gapOperand_eq_some.1 h).1]; exact hk)
  rw [List.getElem?_eq_getElem hk] at this
  cases hr : s.gapmem.read k with
  | none => simp [hr] at this
  | some v =>
    rw [hr, Option.map_some, Option.some.injEq] at this
    rw [← this]; exact v.isLt

theorem gapOperand_isSome {s : State} (h : s.gapmem.knownTo s.ngaps.toNat) : ∃ gs, gapOperand s = some gs := by
  obtain ⟨ws, hws⟩ := readRange_isSome _ _ h
  exact ⟨_, by rw [gapOperand, hws]; rfl⟩

theorem readRange_congr {m m' : Memory α} (a n : Nat) (h : ∀ k, a ≤ k → k < a + n → m.read k = m'.read k) :
    m.readRange a n = m'.readRange a n := by
  induction n generalizing a with
  | zero => rfl
  | succ n ih =>
    rw [Memory.readRange, Memory.readRange, h a le_rfl (by omega), ih (a + 1) (fun k h1 h2 => h k (by omega) (by omega))]

theorem gapOperand_congr {s s' : State} (hn : s.ngaps = s'.ngaps)
    (h : ∀ k, k < s.ngaps.toNat → s.gapmem.read k = s'.gapmem.read k) : gapOperand s = gapOperand s' := by
  rw [gapOperand, gapOperand, ← hn, readRange_congr 0 s.ngaps.toNat fun k _ hk => h k (by omega)]

theorem payloadOperand_isSome {s : State} (h : s.strmem.knownTo s.strlen.toNat) : ∃ bytes, payloadOperand s = some bytes :=
  readRange_isSome _ _ h

theorem payloadOperand_length {s : State} {bytes : List Byte} (h : payloadOperand s = some bytes) :
    bytes.length = s.strlen.toNat := readRange_length h

/-! ## What the commands can do -/

theorem raise_eq (e : ECode) (s : State) : raise e s = .next (complete e false s) := rfl

/-- Everything `EncodeCore` can do (42_encoder.md R143, R146). -/
theorem encodeCore_cases (d : Nat) (gs : List Nat) (s : State) :
    (s.params.strBytes < ceilDiv8 (totalBits gs d) ∧ encodeCore d gs s = .next (complete .cap false s)) ∨
    (ceilDiv8 (totalBits gs d) ≤ s.params.strBytes ∧
      encodeCore d gs s = .next (complete .success false (encodeResult d gs s))) := by
  unfold encodeCore
  by_cases h : s.params.strBytes < ceilDiv8 (totalBits gs d)
  · exact .inl ⟨h, by rw [if_pos h, raise_eq]⟩
  · exact .inr ⟨by omega, by rw [if_neg h]⟩

/-- Everything `EST` can do (40_estimator.md R110). -/
theorem execEst_cases (s : State) :
    (gapsTooLong s ∧ execEst s = .next (complete .len false s)) ∨
    (¬gapsTooLong s ∧ s.ngaps.toNat = 0 ∧ execEst s = .next (complete .success true { s with rdiv := 0 })) ∨
    (¬gapsTooLong s ∧ s.ngaps.toNat ≠ 0 ∧ gapOperand s = none ∧ execEst s = .fault (.unwrittenCell .gapmem)) ∨
    (∃ gs, ¬gapsTooLong s ∧ s.ngaps.toNat ≠ 0 ∧ gapOperand s = some gs ∧ 2 ^ Config.W ≤ gs.sum ∧
      execEst s = .next (complete .ovf false s)) ∨
    (∃ gs, ¬gapsTooLong s ∧ s.ngaps.toNat ≠ 0 ∧ gapOperand s = some gs ∧ gs.sum < 2 ^ Config.W ∧
      execEst s = .next (complete .success false { s with rdiv := BitVec.ofNat 8 (estDiv gs.sum s.ngaps.toNat) })) := by
  unfold execEst
  by_cases h1 : gapsTooLong s
  · exact .inl ⟨h1, by rw [if_pos h1, raise_eq]⟩
  by_cases h2 : s.ngaps.toNat = 0
  · exact .inr (.inl ⟨h1, h2, by rw [if_neg h1, if_pos h2]⟩)
  cases h3 : gapOperand s with
  | none => exact .inr (.inr (.inl ⟨h1, h2, rfl, by rw [if_neg h1, if_neg h2]⟩))
  | some gs =>
    by_cases h4 : 2 ^ Config.W ≤ gs.sum
    · exact .inr (.inr (.inr (.inl ⟨gs, h1, h2, rfl, h4, by simp only [if_neg h1, if_neg h2, if_pos h4, raise_eq]⟩)))
    · exact .inr (.inr (.inr (.inr ⟨gs, h1, h2, rfl, by omega, by simp only [if_neg h1, if_neg h2, if_neg h4]⟩)))

/-- Everything `EST.O` can do (40_estimator.md R111). -/
theorem execEstO_cases (s : State) :
    (divTooLarge s ∧ execEstO s = .next (complete .div false s)) ∨
    (¬divTooLarge s ∧ execEstO s = .next (complete .success false { s with rdiv := s.div })) := by
  unfold execEstO
  by_cases h : divTooLarge s
  · exact .inl ⟨h, by rw [if_pos h, raise_eq]⟩
  · exact .inr ⟨h, by rw [if_neg h]⟩

/-- Everything `ENC` and `CMPR.O` can do (42_encoder.md R140, R142), up to `EncodeCore`. -/
theorem encodeWithDiv_cases (s : State) :
    (divTooLarge s ∧ encodeWithDiv s = .next (complete .div false s)) ∨
    (¬divTooLarge s ∧ gapsTooLong s ∧ encodeWithDiv s = .next (complete .len false s)) ∨
    (¬divTooLarge s ∧ ¬gapsTooLong s ∧ s.ngaps.toNat = 0 ∧ encodeWithDiv s = emptyResult s) ∨
    (¬divTooLarge s ∧ ¬gapsTooLong s ∧ s.ngaps.toNat ≠ 0 ∧ gapOperand s = none ∧
      encodeWithDiv s = .fault (.unwrittenCell .gapmem)) ∨
    (∃ gs, ¬divTooLarge s ∧ ¬gapsTooLong s ∧ s.ngaps.toNat ≠ 0 ∧ gapOperand s = some gs ∧
      encodeWithDiv s = encodeCore s.div.toNat gs s) := by
  unfold encodeWithDiv
  by_cases h0 : divTooLarge s
  · exact .inl ⟨h0, by rw [if_pos h0, raise_eq]⟩
  by_cases h1 : gapsTooLong s
  · exact .inr (.inl ⟨h0, h1, by rw [if_neg h0, if_pos h1, raise_eq]⟩)
  by_cases h2 : s.ngaps.toNat = 0
  · exact .inr (.inr (.inl ⟨h0, h1, h2, by rw [if_neg h0, if_neg h1, if_pos h2]⟩))
  cases h3 : gapOperand s with
  | none => exact .inr (.inr (.inr (.inl ⟨h0, h1, h2, rfl, by simp only [if_neg h0, if_neg h1, if_neg h2]⟩)))
  | some gs => exact .inr (.inr (.inr (.inr ⟨gs, h0, h1, h2, rfl, by simp only [if_neg h0, if_neg h1, if_neg h2]⟩)))

/-- Everything `CMPR` can do (42_encoder.md R141), up to `EncodeCore`. -/
theorem execCmpr_cases (s : State) :
    (gapsTooLong s ∧ execCmpr s = .next (complete .len false s)) ∨
    (¬gapsTooLong s ∧ s.ngaps.toNat = 0 ∧ execCmpr s = emptyResult s) ∨
    (¬gapsTooLong s ∧ s.ngaps.toNat ≠ 0 ∧ gapOperand s = none ∧ execCmpr s = .fault (.unwrittenCell .gapmem)) ∨
    (∃ gs, ¬gapsTooLong s ∧ s.ngaps.toNat ≠ 0 ∧ gapOperand s = some gs ∧ 2 ^ Config.W ≤ gs.sum ∧
      execCmpr s = .next (complete .ovf false s)) ∨
    (∃ gs, ¬gapsTooLong s ∧ s.ngaps.toNat ≠ 0 ∧ gapOperand s = some gs ∧ gs.sum < 2 ^ Config.W ∧
      execCmpr s = encodeCore (estDiv gs.sum s.ngaps.toNat) gs s) := by
  unfold execCmpr
  by_cases h1 : gapsTooLong s
  · exact .inl ⟨h1, by rw [if_pos h1, raise_eq]⟩
  by_cases h2 : s.ngaps.toNat = 0
  · exact .inr (.inl ⟨h1, h2, by rw [if_neg h1, if_pos h2]⟩)
  cases h3 : gapOperand s with
  | none => exact .inr (.inr (.inl ⟨h1, h2, rfl, by rw [if_neg h1, if_neg h2]⟩))
  | some gs =>
    by_cases h4 : 2 ^ Config.W ≤ gs.sum
    · exact .inr (.inr (.inr (.inl ⟨gs, h1, h2, rfl, h4, by simp only [if_neg h1, if_neg h2, if_pos h4, raise_eq]⟩)))
    · exact .inr (.inr (.inr (.inr ⟨gs, h1, h2, rfl, by omega, by simp only [if_neg h1, if_neg h2, if_neg h4]⟩)))

/-- Everything `DEC` can do (43_decoder.md R160), up to the loop. -/
theorem execDec_cases (s : State) :
    (divTooLarge s ∧ execDec s = .next (complete .div false s)) ∨
    (¬divTooLarge s ∧ decodeTooLong s ∧ execDec s = .next (complete .len false s)) ∨
    (¬divTooLarge s ∧ ¬decodeTooLong s ∧ s.strlen.toNat = 0 ∧
      execDec s = .next (complete .success true (decodeResult (decodeStart s) s))) ∨
    (¬divTooLarge s ∧ ¬decodeTooLong s ∧ s.strlen.toNat ≠ 0 ∧
      decodeLoop s.strmem s.div.toNat (8 * s.strlen.toNat) s.bitlen.toNat (8 * s.strlen.toNat + 1) (decodeStart s) = none ∧
      execDec s = .fault (.unwrittenCell .strmem)) ∨
    (∃ run e, ¬divTooLarge s ∧ ¬decodeTooLong s ∧ s.strlen.toNat ≠ 0 ∧
      decodeLoop s.strmem s.div.toNat (8 * s.strlen.toNat) s.bitlen.toNat (8 * s.strlen.toNat + 1) (decodeStart s)
        = some (run, e) ∧
      execDec s = .next (complete e false (decodeResult run s))) := by
  unfold execDec
  by_cases h0 : divTooLarge s
  · exact .inl ⟨h0, by rw [if_pos h0, raise_eq]⟩
  by_cases h1 : decodeTooLong s
  · exact .inr (.inl ⟨h0, h1, by rw [if_neg h0, if_pos h1, raise_eq]⟩)
  by_cases h2 : s.strlen.toNat = 0
  · exact .inr (.inr (.inl ⟨h0, h1, h2, by rw [if_neg h0, if_neg h1, if_pos h2]⟩))
  simp only [if_neg h0, if_neg h1, if_neg h2]
  cases h3 : decodeLoop s.strmem s.div.toNat (8 * s.strlen.toNat) s.bitlen.toNat (8 * s.strlen.toNat + 1) (decodeStart s) with
  | none => exact .inr (.inr (.inr (.inl ⟨h0, h1, h2, rfl, rfl⟩)))
  | some p => exact .inr (.inr (.inr (.inr ⟨p.1, p.2, h0, h1, h2, rfl, rfl⟩)))

/-! ## The decode loop on any buffer -/

theorem orByte_epoch (m : Memory Byte) (k : Nat) (b : Byte) : (orByte m k b).epoch = m.epoch := by
  unfold orByte; split <;> rfl

theorem setBit_epoch (m : Memory Byte) (idx : Nat) : (setBit m idx).epoch = m.epoch := orByte_epoch _ _ _

theorem read_setBit_other (m : Memory Byte) {idx k : Nat} (h : k ≠ idx / 8) : (setBit m idx).read k = m.read k := by
  rw [setBit, read_orByte, if_neg h]

theorem scanPrefix_some {m : Memory Byte} {L : Nat} (fuel idx q : Nat) {idx' q' : Nat}
    (h : scanPrefix m L fuel idx q = some (idx', q')) : idx ≤ idx' ∧ idx' ≤ max L idx ∧ q' + idx = q + idx' := by
  induction fuel generalizing idx q with
  | zero => simp only [scanPrefix, Option.some.injEq, Prod.mk.injEq] at h; omega
  | succ fuel ih =>
    unfold scanPrefix at h
    by_cases hi : idx < L
    · rw [if_pos hi] at h
      cases hb : getBit m idx with
      | none => simp [hb] at h
      | some b =>
        cases b with
        | true => simp only [hb, Option.some.injEq, Prod.mk.injEq] at h; omega
        | false =>
          simp only [hb] at h
          have := ih _ _ h
          omega
    · rw [if_neg hi] at h
      simp only [Option.some.injEq, Prod.mk.injEq] at h
      omega

theorem scanPrefix_congr {m m' : Memory Byte} {L : Nat} (h : ∀ j, j < L → getBit m j = getBit m' j) (fuel idx q : Nat) :
    scanPrefix m L fuel idx q = scanPrefix m' L fuel idx q := by
  induction fuel generalizing idx q with
  | zero => rfl
  | succ fuel ih =>
    unfold scanPrefix
    by_cases hi : idx < L
    · rw [if_pos hi, if_pos hi, h idx hi, ih]
    · rw [if_neg hi, if_neg hi]

theorem readRemainder_congr {m m' : Memory Byte} (idx d : Nat) (h : ∀ j, j < idx + d → getBit m j = getBit m' j) :
    readRemainder m idx d = readRemainder m' idx d := by
  induction d with
  | zero => rfl
  | succ d ih => rw [readRemainder, readRemainder, ih fun j hj => h j (by omega), h (idx + d) (by omega)]

/-- The loop reads no bit at or past `L`. -/
theorem decodeLoop_congr {m m' : Memory Byte} {L : Nat} (h : ∀ j, j < L → getBit m j = getBit m' j) (d N fuel : Nat)
    (run : DecodeRun) : decodeLoop m d L N fuel run = decodeLoop m' d L N fuel run := by
  induction fuel generalizing run with
  | zero => rfl
  | succ fuel ih =>
    unfold decodeLoop
    rw [scanPrefix_congr h]
    cases hs : scanPrefix m' L L run.idx 0 with
    | none => rfl
    | some p =>
      obtain ⟨idx, q⟩ := p
      simp only
      by_cases h1 : idx = L
      · simp only [if_pos h1]
      by_cases h2 : L < idx + 1 + d
      · simp only [if_neg h1, if_pos h2]
      simp only [if_neg h1, if_neg h2]
      rw [readRemainder_congr (idx + 1) d fun j hj => h j (by omega)]
      cases hr : readRemainder m' (idx + 1) d with
      | none => rfl
      | some r =>
        simp only
        split
        · rfl
        · exact ih _

/-- What the loop keeps, on any buffer contents, and how it can end. -/
structure LoopKeeps (N : Nat) (run run' : DecodeRun) (e : ECode) : Prop where
  code : e = .success ∨ e = .trunc ∨ e = .range
  legal : ∀ c, BufferLegal run.bitmem c → BufferLegal run'.bitmem c
  known : ∀ k, (run'.bitmem.read k).isSome = (run.bitmem.read k).isSome
  epoch : run'.bitmem.epoch = run.bitmem.epoch
  outside : ∀ k, N ≤ 8 * k → run'.bitmem.read k = run.bitmem.read k

theorem decodeLoop_keeps {m : Memory Byte} {d L N : Nat} (fuel : Nat) {run run' : DecodeRun} {e : ECode}
    (h : decodeLoop m d L N fuel run = some (run', e)) : LoopKeeps N run run' e := by
  induction fuel generalizing run with
  | zero =>
    simp only [decodeLoop, Option.some.injEq, Prod.mk.injEq] at h
    obtain ⟨rfl, rfl⟩ := h
    exact ⟨.inl rfl, fun _ h => h, fun _ => rfl, rfl, fun _ _ => rfl⟩
  | succ fuel ih =>
    unfold decodeLoop at h
    cases hs : scanPrefix m L L run.idx 0 with
    | none => simp [hs] at h
    | some p =>
      obtain ⟨idx, q⟩ := p
      simp only [hs] at h
      by_cases h1 : idx = L
      · simp only [if_pos h1, Option.some.injEq, Prod.mk.injEq] at h
        obtain ⟨rfl, rfl⟩ := h
        exact ⟨.inl rfl, fun _ h => h, fun _ => rfl, rfl, fun _ _ => rfl⟩
      by_cases h2 : L < idx + 1 + d
      · simp only [if_neg h1, if_pos h2, Option.some.injEq, Prod.mk.injEq] at h
        obtain ⟨rfl, rfl⟩ := h
        exact ⟨.inr (.inl rfl), fun _ h => h, fun _ => rfl, rfl, fun _ _ => rfl⟩
      simp only [if_neg h1, if_neg h2] at h
      cases hr : readRemainder m (idx + 1) d with
      | none => simp [hr] at h
      | some r =>
        simp only [hr] at h
        by_cases h3 : N ≤ run.prefixSum + (q * 2 ^ d + r)
        · simp only [if_pos h3, Option.some.injEq, Prod.mk.injEq] at h
          obtain ⟨rfl, rfl⟩ := h
          exact ⟨.inr (.inr rfl), fun _ h => h, fun _ => rfl, rfl, fun _ _ => rfl⟩
        · simp only [if_neg h3] at h
          have k := ih h
          exact ⟨k.code, fun c hc => k.legal c (setBit_legal hc _), fun j => (k.known j).trans (setBit_isSome _ _ _),
            k.epoch.trans (setBit_epoch _ _), fun j hj => (k.outside j hj).trans (read_setBit_other _ (by omega))⟩

/-- The bitmap that the loop starts from is zero in its range and as before outside. -/
theorem read_decodeStart (s : State) (k : Nat) :
    (decodeStart s).bitmem.read k = if k < bitmapBytes s then some 0 else s.bitmem.read k := by
  simp only [decodeStart, read_fill, Nat.zero_le, true_and, Nat.zero_add]

/-- What `DEC` does on a readable payload, in terms of the reference decoder: the loop ends, with the reference's code, and has
committed the reference's positions (43_decoder.md R160, R169). -/
theorem decodeLoop_payload {s : State} {bytes : List Byte} (h : payloadOperand s = some bytes) :
    ∃ run, decodeLoop s.strmem s.div.toNat (8 * s.strlen.toNat) s.bitlen.toNat (8 * s.strlen.toNat + 1) (decodeStart s)
        = some (run, (referenceDecode (bitsOf bytes) s.div.toNat s.bitlen.toNat).2) ∧
      Committed (decodeStart s) run (referenceDecode (bitsOf bytes) s.div.toNat s.bitlen.toNat).1 := by
  have hl := payloadOperand_length h
  have hb : (bitsOf bytes).length = 8 * s.strlen.toNat := by rw [bitsOf_length, hl]
  have := decodeLoop_spec (holdsBits_of_readRange h) s.div.toNat s.bitlen.toNat (8 * s.strlen.toNat + 1)
    ((bitsOf bytes).length + 1) (decodeStart s) (by simp [decodeStart]) (by simp [decodeStart, hb]) (by simp [decodeStart])
  rw [hb] at this
  simpa only [referenceDecode, hb, decodeStart, List.drop_zero] using this

/-! ## A step of the block -/

/-- Everything a step with a next state can be (20_memory.md R70): a micro-step, or the next item of the environment. -/
theorem step_next_cases {s t : State} (h : step s = .next t) :
    s.params.WF ∧ ((s.inputs = [] ∧ seqStep s = .next t) ∨
      ∃ ev rest, s.inputs = ev :: rest ∧ ev.wellFormed s.params = true ∧ acceptEvent ev { s with inputs := rest } = .next t) := by
  unfold step blockStep at h
  by_cases hw : s.params.WF
  · rw [if_pos hw] at h
    refine ⟨hw, ?_⟩
    cases hi : s.inputs with
    | nil => simp only [hi] at h; exact .inl ⟨rfl, h⟩
    | cons ev rest =>
      simp only [hi] at h
      by_cases he : ev.wellFormed s.params = true
      · rw [if_pos he] at h; exact .inr ⟨ev, rest, rfl, he, h⟩
      · rw [if_neg he] at h; cases h
  · rw [if_neg hw] at h; cases h

/-- A step on an accepted item is what the item does. -/
theorem step_of_input {s : State} {ev : Event} {rest : List Event} (hw : s.params.WF) (hi : s.inputs = ev :: rest)
    (he : ev.wellFormed s.params = true) : step s = acceptEvent ev { s with inputs := rest } := by
  unfold step blockStep
  rw [if_pos hw, hi]
  simp only [if_pos he]

/-- An access the block does not have is refused, busy or not (10_state.md R32; 20_memory.md R56, R57). -/
theorem step_refuses_access {s : State} {ev : Event} {rest : List Event} (hw : s.params.WF) (hi : s.inputs = ev :: rest)
    (he : ¬ev.wellFormed s.params = true) : step s = .refused (accessRefusal ev) := by
  unfold step blockStep
  rw [if_pos hw, hi]
  exact if_neg he

end Sys2Proof.Machine
end

