-- ==== Sys2Proof/Laws/Sequencer.lean ====
section
/-! SUPPORT. The reference sequencer phase by phase: what the micro-steps of each loop add up to, and what no micro-step changes
(40_estimator.md R118, 42_encoder.md R150, 43_decoder.md R170). -/

namespace Sys2Proof.Machine

/-! ## Runs -/

theorem seqRun_next {s t : State} (h : seqStep s = .next t) (k : Nat) : seqRun (k + 1) s = seqRun k t := by
  rw [seqRun, h]

theorem seqRun_one (s : State) : seqRun 1 s = seqStep s := by
  rw [seqRun]
  cases seqStep s <;> rfl

theorem seqRun_fault {s : State} {r : Fault} (h : seqStep s = .fault r) (k : Nat) : seqRun (k + 1) s = .fault r := by
  rw [seqRun, h]

theorem seqRun_add {s t : State} {j : Nat} (h : seqRun j s = .next t) (k : Nat) : seqRun (j + k) s = seqRun k t := by
  induction j generalizing s with
  | zero =>
    simp only [seqRun, Host.Outcome.next.injEq] at h
    rw [h, Nat.zero_add]
  | succ j ih =>
    rw [Nat.succ_add, seqRun]
    rw [seqRun] at h
    cases hs : seqStep s with
    | next u => simp only [hs] at h ⊢; exact ih h
    | fault r => simp [hs] at h
    | refused r => simp [hs] at h

theorem seqRun_add_fault {s : State} {r : Fault} {j : Nat} (h : seqRun j s = .fault r) (k : Nat) : seqRun (j + k) s = .fault r := by
  induction j generalizing s with
  | zero => simp [seqRun] at h
  | succ j ih =>
    rw [Nat.succ_add, seqRun]
    rw [seqRun] at h
    cases hs : seqStep s with
    | next u => simp only [hs] at h ⊢; exact ih h
    | fault r' => simp only [hs] at h ⊢; exact h
    | refused r' => simp [hs] at h

/-! ## What no micro-step changes -/

/-- The fields that belong to the host and to the latched command. -/
structure SameOperands (s t : State) : Prop where
  params : t.params = s.params
  cmd : t.cmd = s.cmd
  div : t.div = s.div
  ngaps : t.ngaps = s.ngaps
  bitlen : t.bitlen = s.bitlen
  gapmem : t.gapmem = s.gapmem
  inputs : t.inputs = s.inputs
  rdata : t.rdata = s.rdata
  freeCtr : t.freeCtr = s.freeCtr
  op : t.seq.op = s.seq.op
  ovr : t.seq.ovr = s.seq.ovr
  rsv : t.seq.rsv = s.seq.rsv

theorem seqRaise_same (e : ECode) (s : State) : SameOperands s (seqRaise e s) := by constructor <;> rfl

theorem seqToFinish_same (nd : Bool) (s : State) : SameOperands s (seqToFinish nd s) := by constructor <;> rfl

theorem SameOperands.refl (s : State) : SameOperands s s := by constructor <;> rfl

theorem seqAfterDecZero_same (s : State) : SameOperands s (seqAfterDecZero s) := by
  unfold seqAfterDecZero; split <;> constructor <;> rfl

theorem seqCheck_same (s : State) : SameOperands s (seqCheck s) := by
  unfold seqCheck
  split
  · exact seqRaise_same _ _
  · exact seqToFinish_same _ _
  · unfold seqCheckEst; repeat' split
    all_goals constructor <;> rfl
  · unfold seqCheckEstO; repeat' split
    all_goals constructor <;> rfl
  · unfold seqCheckEnc; repeat' split
    all_goals constructor <;> rfl
  · unfold seqCheckCmpr; repeat' split
    all_goals constructor <;> rfl
  · unfold seqCheckEnc; repeat' split
    all_goals constructor <;> rfl
  · unfold seqCheckDec seqAfterDecZero; dsimp only; repeat' split
    all_goals constructor <;> rfl

theorem seqFinish_same (s : State) : SameOperands s (seqFinish s) := by
  unfold seqFinish seqResults
  split <;> constructor <;> rfl

/-- Whatever the phase, a micro-step leaves the configuration, the operand registers, `GAPMEM`, the environment and the latched
word. -/
theorem seqStep_same {s t : State} (h : seqStep s = .next t) : SameOperands s t := by
  unfold seqStep at h
  split at h
  · cases h; exact .refl s
  · cases h; exact seqCheck_same s
  · unfold seqEstSum at h
    dsimp only at h
    repeat' split at h
    all_goals (first | (cases h; constructor <;> rfl) | cases h)
  · cases h
    unfold seqEstLog
    dsimp only
    split <;> constructor <;> rfl
  · unfold seqEncSize at h
    dsimp only at h
    repeat' split at h
    all_goals (first | (cases h; constructor <;> rfl) | cases h)
  · cases h
    unfold seqEncZero
    dsimp only
    split <;> constructor <;> rfl
  · unfold seqEncEmit at h
    dsimp only at h
    repeat' split at h
    all_goals (first | (cases h; constructor <;> rfl) | cases h)
  · cases h
    unfold seqDecZero seqAfterDecZero
    dsimp only
    repeat' split
    all_goals constructor <;> rfl
  · unfold seqDecScan at h
    dsimp only at h
    repeat' split at h
    all_goals (first | (cases h; constructor <;> rfl) | cases h)
  · unfold seqDecRem at h
    dsimp only at h
    repeat' split at h
    all_goals (first | (cases h; constructor <;> rfl) | cases h)
  · cases h; exact seqFinish_same s

/-! ## The loops of the estimator and the encoder -/

theorem readRange_succ {α : Type} {m : Memory α} {a n : Nat} {vs : List α} (h : m.readRange a (n + 1) = some vs) :
    ∃ v rest, vs = v :: rest ∧ m.read a = some v ∧ m.readRange (a + 1) n = some rest := by
  rw [Memory.readRange] at h
  cases h1 : m.read a with
  | none => simp [h1] at h
  | some v =>
    cases h2 : m.readRange (a + 1) n with
    | none => simp [h1, h2] at h
    | some rest => simp only [h1, h2, Option.some.injEq] at h; exact ⟨v, rest, h.symm, rfl, rfl⟩

theorem readRange_none {α : Type} {m : Memory α} {a n : Nat} (h : m.readRange a (n + 1) = none) :
    m.read a = none ∨ m.readRange (a + 1) n = none := by
  rw [Memory.readRange] at h
  cases h1 : m.read a with
  | none => exact .inl rfl
  | some v =>
    cases h2 : m.readRange (a + 1) n with
    | none => exact .inr rfl
    | some rest => simp [h1, h2] at h

theorem readRange_snoc {α : Type} {m : Memory α} {a n : Nat} {vs : List α} {v : α} (h : m.readRange a n = some vs)
    (hv : m.read (a + n) = some v) : m.readRange a (n + 1) = some (vs ++ [v]) := by
  rw [readRange_eq_some] at h ⊢
  refine ⟨by simp [h.1], fun k hk => ?_⟩
  rcases Nat.lt_succ_iff_lt_or_eq.1 hk with hk | rfl
  · rw [h.2 k hk, List.getElem?_append_left (by omega)]
  · rw [hv, List.getElem?_append_right (by omega), h.1]
    simp

/-! ## What the encoder's phases count -/

/-- Before `ENC_SIZE` has read a gap (42_encoder.md R150). -/
theorem streamBits_none (s : State) (a : Nat) : StreamBits s a 0 0 := ⟨[], rfl, rfl⟩

/-- `ENC_SIZE` adds a gap at the end of those counted. -/
theorem streamBits_snoc {s : State} {n bits : Nat} {g : Word} (h : StreamBits s 0 n bits) (hg : s.gapmem.read n = some g) :
    StreamBits s 0 (n + 1) (bits + codewordLength g.toNat s.seq.d) := by
  obtain ⟨ws, hr, rfl⟩ := h
  refine ⟨ws ++ [g], readRange_snoc hr (by rwa [Nat.zero_add]), ?_⟩
  simp [totalBits]

/-- `ENC_EMIT` takes a gap from the front of those left. -/
theorem streamBits_head {s : State} {a n bits : Nat} (h : StreamBits s a (n + 1) bits) :
    ∃ g, s.gapmem.read a = some g ∧ codewordLength g.toNat s.seq.d ≤ bits ∧
      StreamBits s (a + 1) n (bits - codewordLength g.toNat s.seq.d) := by
  obtain ⟨ws, hr, rfl⟩ := h
  obtain ⟨g, rest, rfl, hg, hrest⟩ := readRange_succ hr
  rw [List.map_cons, totalBits_cons]
  exact ⟨g, hg, by omega, rest, hrest, by omega⟩

/-- Emitting a gap makes no byte known or unknown. -/
theorem emitGap_isSome (d : Nat) (acc : Memory Byte × Nat) (g k : Nat) :
    ((emitGap d acc g).1.read k).isSome = (acc.1.read k).isSome := by
  have h := congrArg Option.isSome (getBit_emitGap d acc g (8 * k))
  rwa [getBit_isSome, Option.isSome_map, getBit_isSome, Nat.mul_div_cancel_left k (by decide)] at h

/-! ## Whole phases -/

/-- `EST_SUM`, all the way: the remaining `m + 1` gaps are added, then the sum is checked. -/
theorem estSum_run (m : Nat) (s : State) (ws : List Word) (hp : s.phase = .estSum) (hn : s.seq.i + (m + 1) = s.ngaps.toNat)
    (hr : s.gapmem.readRange s.seq.i (m + 1) = some ws) :
    seqRun (m + 1) s = .next
      (if 2 ^ Config.W ≤ s.seq.sum + (ws.map BitVec.toNat).sum then
        seqRaise .ovf { s with seq := { s.seq with sum := s.seq.sum + (ws.map BitVec.toNat).sum, i := s.ngaps.toNat } }
      else
        { s with
          phase := .estLog
          seq := { s.seq with sum := s.seq.sum + (ws.map BitVec.toNat).sum, i := s.ngaps.toNat } }) := by
  induction m generalizing s ws with
  | zero =>
    obtain ⟨v, rest, rfl, h1, h2⟩ := readRange_succ hr
    simp only [Memory.readRange, Option.some.injEq] at h2
    subst h2
    have hi : s.seq.i + 1 = s.ngaps.toNat := hn
    simp only [Nat.zero_add, seqRun_one, seqStep, hp, seqEstSum, h1, if_pos hi, List.map_cons, List.map_nil, List.sum_cons,
      List.sum_nil, Nat.add_zero]
    simp only [hi]
    split <;> rfl
  | succ m ih =>
    obtain ⟨v, rest, rfl, h1, h2⟩ := readRange_succ hr
    have hi : ¬(s.seq.i + 1 = s.ngaps.toNat) := by omega
    have hs : seqStep s = .next { s with seq := { s.seq with sum := s.seq.sum + v.toNat, i := s.seq.i + 1 } } := by
      simp only [seqStep, hp, seqEstSum, h1, if_neg hi]
    rw [seqRun_next hs, ih { s with seq := { s.seq with sum := s.seq.sum + v.toNat, i := s.seq.i + 1 } } rest hp (by dsimp only; omega) h2]
    simp only [List.map_cons, List.sum_cons, Nat.add_assoc]

theorem estSum_run_fault (m : Nat) (s : State) (hp : s.phase = .estSum) (hn : s.seq.i + (m + 1) = s.ngaps.toNat)
    (hr : s.gapmem.readRange s.seq.i (m + 1) = none) : seqRun (m + 1) s = .fault (.unwrittenCell .gapmem) := by
  induction m generalizing s with
  | zero =>
    rcases readRange_none hr with h1 | h1
    · exact seqRun_fault (by simp only [seqStep, hp, seqEstSum, h1]) _
    · simp [Memory.readRange] at h1
  | succ m ih =>
    cases h1 : s.gapmem.read s.seq.i with
    | none => exact seqRun_fault (by simp only [seqStep, hp, seqEstSum, h1]) _
    | some v =>
      have h2 := (readRange_none hr).resolve_left (by simp [h1])
      have hi : ¬(s.seq.i + 1 = s.ngaps.toNat) := by omega
      have hs : seqStep s = .next { s with seq := { s.seq with sum := s.seq.sum + v.toNat, i := s.seq.i + 1 } } := by
        simp only [seqStep, hp, seqEstSum, h1, if_neg hi]
      rw [seqRun_next hs]
      exact ih { s with seq := { s.seq with sum := s.seq.sum + v.toNat, i := s.seq.i + 1 } } hp (by dsimp only; omega) h2

/-- `ENC_SIZE`, all the way: the codeword lengths are added, then the capacity is checked. -/
theorem encSize_run (m : Nat) (s : State) (ws : List Word) (hp : s.phase = .encSize) (hn : s.seq.i + (m + 1) = s.ngaps.toNat)
    (hr : s.gapmem.readRange s.seq.i (m + 1) = some ws) :
    seqRun (m + 1) s = .next
      (if s.params.strBytes < ceilDiv8 (s.seq.tot + totalBits (ws.map BitVec.toNat) s.seq.d) then
        seqRaise .cap
          { s with seq := { s.seq with tot := s.seq.tot + totalBits (ws.map BitVec.toNat) s.seq.d, i := s.ngaps.toNat } }
      else
        { s with
          phase := .encZero
          seq := { s.seq with tot := s.seq.tot + totalBits (ws.map BitVec.toNat) s.seq.d, i := 0 } }) := by
  induction m generalizing s ws with
  | zero =>
    obtain ⟨v, rest, rfl, h1, h2⟩ := readRange_succ hr
    simp only [Memory.readRange, Option.some.injEq] at h2
    subst h2
    have hi : s.seq.i + 1 = s.ngaps.toNat := hn
    simp only [Nat.zero_add, seqRun_one, seqStep, hp, seqEncSize, h1, if_pos hi, List.map_cons, List.map_nil, totalBits,
      List.sum_cons, List.sum_nil, Nat.add_zero]
    simp only [hi]
    split <;> rfl
  | succ m ih =>
    obtain ⟨v, rest, rfl, h1, h2⟩ := readRange_succ hr
    have hi : ¬(s.seq.i + 1 = s.ngaps.toNat) := by omega
    have hs : seqStep s
        = .next { s with seq := { s.seq with tot := s.seq.tot + codewordLength v.toNat s.seq.d, i := s.seq.i + 1 } } := by
      simp only [seqStep, hp, seqEncSize, h1, if_neg hi]
    rw [seqRun_next hs, ih { s with seq := { s.seq with tot := s.seq.tot + codewordLength v.toNat s.seq.d, i := s.seq.i + 1 } } rest hp (by dsimp only; omega) h2]
    simp only [List.map_cons, totalBits_cons, Nat.add_assoc]

theorem encSize_run_fault (m : Nat) (s : State) (hp : s.phase = .encSize) (hn : s.seq.i + (m + 1) = s.ngaps.toNat)
    (hr : s.gapmem.readRange s.seq.i (m + 1) = none) : seqRun (m + 1) s = .fault (.unwrittenCell .gapmem) := by
  induction m generalizing s with
  | zero =>
    rcases readRange_none hr with h1 | h1
    · exact seqRun_fault (by simp only [seqStep, hp, seqEncSize, h1]) _
    · simp [Memory.readRange] at h1
  | succ m ih =>
    cases h1 : s.gapmem.read s.seq.i with
    | none => exact seqRun_fault (by simp only [seqStep, hp, seqEncSize, h1]) _
    | some v =>
      have h2 := (readRange_none hr).resolve_left (by simp [h1])
      have hi : ¬(s.seq.i + 1 = s.ngaps.toNat) := by omega
      have hs : seqStep s
          = .next { s with seq := { s.seq with tot := s.seq.tot + codewordLength v.toNat s.seq.d, i := s.seq.i + 1 } } := by
        simp only [seqStep, hp, seqEncSize, h1, if_neg hi]
      rw [seqRun_next hs]
      exact ih { s with seq := { s.seq with tot := s.seq.tot + codewordLength v.toNat s.seq.d, i := s.seq.i + 1 } } hp (by dsimp only; omega) h2

/-- `ENC_ZERO`, all the way: the rest of the payload range is zeroed. -/
theorem encZero_run (m : Nat) (s : State) (hp : s.phase = .encZero) (hn : s.seq.i + (m + 1) = ceilDiv8 s.seq.tot) :
    seqRun (m + 1) s = .next
      { s with phase := .encEmit, strmem := s.strmem.fill s.seq.i (m + 1) 0, seq := { s.seq with i := 0, idx := 0 } } := by
  induction m generalizing s with
  | zero =>
    have hi : s.seq.i + 1 = ceilDiv8 s.seq.tot := hn
    simp only [Nat.zero_add, seqRun_one, seqStep, hp, seqEncZero, if_pos hi, Memory.fill, List.replicate, Memory.writeRange]
  | succ m ih =>
    have hi : ¬(s.seq.i + 1 = ceilDiv8 s.seq.tot) := by omega
    have hs : seqStep s = .next { s with strmem := s.strmem.write s.seq.i 0, seq := { s.seq with i := s.seq.i + 1 } } := by
      simp only [seqStep, hp, seqEncZero, if_neg hi]
    rw [seqRun_next hs, ih { s with strmem := s.strmem.write s.seq.i 0, seq := { s.seq with i := s.seq.i + 1 } } hp (by dsimp only; omega)]
    rfl

/-- `ENC_EMIT`, all the way: the remaining gaps are emitted, then the command finishes. -/
theorem encEmit_run (m : Nat) (s : State) (ws : List Word) (hp : s.phase = .encEmit) (hn : s.seq.i + (m + 1) = s.ngaps.toNat)
    (hr : s.gapmem.readRange s.seq.i (m + 1) = some ws) :
    seqRun (m + 1) s = .next
      { s with
        phase := .finish
        strmem := ((ws.map BitVec.toNat).foldl (emitGap s.seq.d) (s.strmem, s.seq.idx)).1
        seq := { s.seq with
          idx := ((ws.map BitVec.toNat).foldl (emitGap s.seq.d) (s.strmem, s.seq.idx)).2
          i := s.ngaps.toNat
          nd := false } } := by
  induction m generalizing s ws with
  | zero =>
    obtain ⟨v, rest, rfl, h1, h2⟩ := readRange_succ hr
    simp only [Memory.readRange, Option.some.injEq] at h2
    subst h2
    have hi : s.seq.i + 1 = s.ngaps.toNat := hn
    simp only [Nat.zero_add, seqRun_one, seqStep, hp, seqEncEmit, h1, if_pos hi, List.map_cons, List.map_nil, List.foldl_cons,
      List.foldl_nil, seqToFinish]
    simp only [hi]
  | succ m ih =>
    obtain ⟨v, rest, rfl, h1, h2⟩ := readRange_succ hr
    have hi : ¬(s.seq.i + 1 = s.ngaps.toNat) := by omega
    have hs : seqStep s
        = .next { s with
            strmem := (emitGap s.seq.d (s.strmem, s.seq.idx) v.toNat).1
            seq := { s.seq with idx := (emitGap s.seq.d (s.strmem, s.seq.idx) v.toNat).2, i := s.seq.i + 1 } } := by
      simp only [seqStep, hp, seqEncEmit, h1, if_neg hi]
    rw [seqRun_next hs, ih { s with
      strmem := (emitGap s.seq.d (s.strmem, s.seq.idx) v.toNat).1
      seq := { s.seq with idx := (emitGap s.seq.d (s.strmem, s.seq.idx) v.toNat).2, i := s.seq.i + 1 } } rest hp (by dsimp only; omega) h2]
    simp only [List.map_cons, List.foldl_cons]

/-! ## The loops of the decoder -/

/-- `DEC_ZERO`, all the way: the rest of the bitmap range is zeroed. -/
theorem decZero_run (m : Nat) (s : State) (hp : s.phase = .decZero) (hn : s.seq.i + (m + 1) = bitmapBytes s) :
    seqRun (m + 1) s = .next
      (seqAfterDecZero
        { s with bitmem := s.bitmem.fill s.seq.i (m + 1) 0, seq := { s.seq with i := bitmapBytes s } }) := by
  induction m generalizing s with
  | zero =>
    have hi : s.seq.i + 1 = bitmapBytes s := hn
    simp only [Nat.zero_add, seqRun_one, seqStep, hp, seqDecZero, if_pos hi, Memory.fill, List.replicate, Memory.writeRange]
    simp only [hi]
  | succ m ih =>
    have hi : ¬(s.seq.i + 1 = bitmapBytes s) := by omega
    have hs : seqStep s = .next { s with bitmem := s.bitmem.write s.seq.i 0, seq := { s.seq with i := s.seq.i + 1 } } := by
      simp only [seqStep, hp, seqDecZero, if_neg hi]
    rw [seqRun_next hs, ih { s with bitmem := s.bitmem.write s.seq.i 0, seq := { s.seq with i := s.seq.i + 1 } } hp (by simp only [bitmapBytes] at hn ⊢; omega)]
    rfl

/-- `DEC_SCAN`, through the zeros: where step 1 of the decode loop ends, with the quotient counted. -/
theorem decScan_run (fuel : Nat) (s : State) (idx q : Nat) (hp : s.phase = .decScan)
    (hf : 8 * s.strlen.toNat - s.seq.idx ≤ fuel) (hi : s.seq.idx ≤ 8 * s.strlen.toNat)
    (h : scanPrefix s.strmem (8 * s.strlen.toNat) fuel s.seq.idx s.seq.q = some (idx, q)) :
    seqRun (idx - s.seq.idx) s = .next { s with seq := { s.seq with idx := idx, q := q } } ∧
    (idx < 8 * s.strlen.toNat → getBit s.strmem idx = some true) := by
  induction fuel generalizing s with
  | zero =>
    simp only [scanPrefix, Option.some.injEq, Prod.mk.injEq] at h
    obtain ⟨rfl, rfl⟩ := h
    exact ⟨by rw [Nat.sub_self]; rfl, fun hc => by omega⟩
  | succ fuel ih =>
    unfold scanPrefix at h
    by_cases hl : s.seq.idx < 8 * s.strlen.toNat
    · rw [if_pos hl] at h
      cases hb : getBit s.strmem s.seq.idx with
      | none => simp [hb] at h
      | some b =>
        cases b with
        | true =>
          simp only [hb, Option.some.injEq, Prod.mk.injEq] at h
          obtain ⟨rfl, rfl⟩ := h
          exact ⟨by rw [Nat.sub_self]; rfl, fun _ => hb⟩
        | false =>
          simp only [hb] at h
          have hne : ¬(s.seq.idx = 8 * s.strlen.toNat) := by omega
          have hs : seqStep s = .next { s with seq := { s.seq with idx := s.seq.idx + 1, q := s.seq.q + 1 } } := by
            simp only [seqStep, hp, seqDecScan, if_neg hne, hb, if_true]
          have hle := scanPrefix_some fuel _ _ h
          obtain ⟨r1, r2⟩ := ih { s with seq := { s.seq with idx := s.seq.idx + 1, q := s.seq.q + 1 } } hp
            (by dsimp only; omega) (by dsimp only; omega) h
          refine ⟨?_, r2⟩
          rw [show idx - s.seq.idx = (idx - (s.seq.idx + 1)) + 1 by omega, seqRun_next hs, r1]
    · rw [if_neg hl] at h
      simp only [Option.some.injEq, Prod.mk.injEq] at h
      obtain ⟨rfl, rfl⟩ := h
      exact ⟨by rw [Nat.sub_self]; rfl, fun hc => absurd hc hl⟩

theorem decScan_run_fault (fuel : Nat) (s : State) (hp : s.phase = .decScan) (hi : s.seq.idx ≤ 8 * s.strlen.toNat)
    (h : scanPrefix s.strmem (8 * s.strlen.toNat) fuel s.seq.idx s.seq.q = none) :
    ∃ k, k ≤ fuel ∧ seqRun k s = .fault (.unwrittenCell .strmem) := by
  induction fuel generalizing s with
  | zero => simp [scanPrefix] at h
  | succ fuel ih =>
    unfold scanPrefix at h
    by_cases hl : s.seq.idx < 8 * s.strlen.toNat
    · rw [if_pos hl] at h
      have hne : ¬(s.seq.idx = 8 * s.strlen.toNat) := by omega
      cases hb : getBit s.strmem s.seq.idx with
      | none =>
        exact ⟨1, by omega, seqRun_fault (by simp only [seqStep, hp, seqDecScan, if_neg hne, hb]) 0⟩
      | some b =>
        cases b with
        | true => simp [hb] at h
        | false =>
          simp only [hb] at h
          have hs : seqStep s = .next { s with seq := { s.seq with idx := s.seq.idx + 1, q := s.seq.q + 1 } } := by
            simp only [seqStep, hp, seqDecScan, if_neg hne, hb, if_true]
          obtain ⟨k, hk, hr⟩ := ih { s with seq := { s.seq with idx := s.seq.idx + 1, q := s.seq.q + 1 } } hp
            (by dsimp only; omega) h
          exact ⟨k + 1, by omega, by rw [seqRun_next hs, hr]⟩
    · rw [if_neg hl] at h
      cases h

theorem seq_eta (q : Seq) (hj : q.j = 0) (hr : q.r = 0) : q = { q with j := 0, r := 0 } := by
  cases q
  simp only at hj hr
  subst hj hr
  rfl

/-- `DEC_REM`, through the remainder bits: `j` bits read have given the value of the first `j` bits of the field. -/
theorem decRem_run (j : Nat) (s : State) (r : Nat) (hp : s.phase = .decRem) (hj : s.seq.j = 0) (hr0 : s.seq.r = 0)
    (hd : j ≤ s.seq.d) (h : readRemainder s.strmem s.seq.idx j = some r) :
    seqRun j s = .next { s with seq := { s.seq with idx := s.seq.idx + j, j := j, r := r } } := by
  induction j generalizing r with
  | zero =>
    simp only [readRemainder, Option.some.injEq] at h
    subst h
    simp only [seqRun, Nat.add_zero, Host.Outcome.next.injEq]
    exact congrArg (fun q => ({ s with seq := q } : State)) (seq_eta s.seq hj hr0)
  | succ j ih =>
    rw [readRemainder] at h
    cases h1 : readRemainder s.strmem s.seq.idx j with
    | none => simp [h1] at h
    | some r' =>
      cases h2 : getBit s.strmem (s.seq.idx + j) with
      | none => simp [h1, h2] at h
      | some b =>
        simp only [h1, h2, Option.some.injEq] at h
        subst h
        rw [seqRun_add (ih r' (by omega) h1) 1]
        have hlt : j < s.seq.d := by omega
        simp only [seqRun, seqStep, hp, seqDecRem, if_pos hlt, h2, Nat.add_assoc]

theorem decRem_run_fault (j : Nat) (s : State) (hp : s.phase = .decRem) (hj : s.seq.j = 0) (hr0 : s.seq.r = 0)
    (hd : j ≤ s.seq.d) (h : readRemainder s.strmem s.seq.idx j = none) :
    seqRun j s = .fault (.unwrittenCell .strmem) := by
  induction j with
  | zero => simp [readRemainder] at h
  | succ j ih =>
    rw [readRemainder] at h
    cases h1 : readRemainder s.strmem s.seq.idx j with
    | none => exact seqRun_add_fault (ih (by omega) h1) 1
    | some r' =>
      cases h2 : getBit s.strmem (s.seq.idx + j) with
      | some b => simp [h1, h2] at h
      | none =>
        rw [seqRun_add (decRem_run j s r' hp hj hr0 (by omega) h1) 1]
        have hlt : j < s.seq.d := by omega
        simp only [seqRun, seqStep, hp, seqDecRem, if_pos hlt, h2]

/-- The sequencer stands where the decode loop does at the start of a round. -/
structure AtRound (s : State) (run : DecodeRun) : Prop where
  phase : s.phase = .decScan
  idx : s.seq.idx = run.idx
  q : s.seq.q = 0
  prefixSum : s.seq.prefixSum = run.prefixSum
  cnt : s.seq.cnt = run.cnt
  lastpos : s.seq.lastpos = run.lastpos
  bitmem : s.bitmem = run.bitmem
  nd : s.seq.nd = false
  e : s.seq.e = .success
  inside : run.idx ≤ 8 * s.strlen.toNat

/-- The sequencer stands at `FINISH` with the loop's results, everything but the hidden registers and `BITMEM` as in `s`. -/
structure AtFinish (s : State) (run' : DecodeRun) (e : ECode) (u : State) : Prop where
  state : u = { s with phase := .finish, bitmem := run'.bitmem, seq := u.seq }
  cnt : u.seq.cnt = run'.cnt
  lastpos : u.seq.lastpos = run'.lastpos
  nd : u.seq.nd = false
  e : u.seq.e = e
  op : u.seq.op = s.seq.op
  ovr : u.seq.ovr = s.seq.ovr
  rsv : u.seq.rsv = s.seq.rsv

/-- `DEC_SCAN` and `DEC_REM`, all the way: the micro-steps compute the decode loop, in at most one step a bit, one a commit and one
to see the end (43_decoder.md R171). -/
theorem decLoop_run (fuel : Nat) (s : State) (run run' : DecodeRun) (e : ECode) (ha : AtRound s run)
    (h : decodeLoop s.strmem s.seq.d (8 * s.strlen.toNat) s.bitlen.toNat fuel run = some (run', e))
    (hf : 8 * s.strlen.toNat - run.idx < fuel) :
    ∃ k u, seqRun k s = .next u ∧ AtFinish s run' e u ∧ run.cnt ≤ run'.cnt ∧
      k + run.idx + run.cnt ≤ 8 * s.strlen.toNat + run'.cnt + 1 := by
  induction fuel generalizing s run with
  | zero => omega
  | succ fuel ih =>
    obtain ⟨hp, hi, hq, hps, hc, hlp, hb, hnd, he, hin⟩ := ha
    unfold decodeLoop at h
    cases hs : scanPrefix s.strmem (8 * s.strlen.toNat) (8 * s.strlen.toNat) run.idx 0 with
    | none => simp [hs] at h
    | some p =>
      obtain ⟨idx, q⟩ := p
      simp only [hs] at h
      have hle := scanPrefix_some _ _ _ hs
      obtain ⟨r1, r2⟩ := decScan_run (8 * s.strlen.toNat) s idx q hp (by omega) (by omega) (by rw [hi, hq]; exact hs)
      by_cases h1 : idx = 8 * s.strlen.toNat
      · simp only [if_pos h1, Option.some.injEq, Prod.mk.injEq] at h
        obtain ⟨rfl, rfl⟩ := h
        refine ⟨idx - s.seq.idx + 1, seqToFinish false { s with seq := { s.seq with idx := idx, q := q } }, ?_, ?_, le_rfl, ?_⟩
        · rw [seqRun_add r1 1, seqRun_one]
          simp only [seqStep, hp, seqDecScan, if_pos h1]
        · refine ⟨?_, hc, hlp, rfl, he, rfl, rfl, rfl⟩
          simp only [seqToFinish, ← hb]
        · simp only []; omega
      have hlt : idx < 8 * s.strlen.toNat := by omega
      have hb1 := r2 hlt
      by_cases h2 : 8 * s.strlen.toNat < idx + 1 + s.seq.d
      · simp only [if_neg h1, if_pos h2, Option.some.injEq, Prod.mk.injEq] at h
        obtain ⟨rfl, rfl⟩ := h
        refine ⟨idx - s.seq.idx + 1, seqRaise .trunc { s with seq := { s.seq with idx := idx + 1, q := q } }, ?_, ?_, le_rfl, ?_⟩
        · rw [seqRun_add r1 1, seqRun_one]
          simp only [seqStep, hp, seqDecScan, if_neg h1, hb1, if_pos h2, Bool.true_eq_false, if_false]
        · refine ⟨?_, hc, hlp, hnd, rfl, rfl, rfl, rfl⟩
          simp only [seqRaise, ← hb]
        · simp only []; omega
      simp only [if_neg h1, if_neg h2] at h
      have hs2 : seqRun (idx - s.seq.idx + 1) s
          = .next { s with phase := .decRem, seq := { s.seq with idx := idx + 1, q := q, r := 0, j := 0 } } := by
        rw [seqRun_add r1 1, seqRun_one]
        simp only [seqStep, hp, seqDecScan, if_neg h1, hb1, if_neg h2, Bool.true_eq_false, if_false]
      cases hr : readRemainder s.strmem (idx + 1) s.seq.d with
      | none => simp [hr] at h
      | some r =>
        simp only [hr] at h
        have hs3 := (seqRun_add hs2 s.seq.d).trans (decRem_run s.seq.d
          { s with phase := .decRem, seq := { s.seq with idx := idx + 1, q := q, r := 0, j := 0 } } r rfl rfl rfl le_rfl hr)
        by_cases h3 : s.bitlen.toNat ≤ run.prefixSum + (q * 2 ^ s.seq.d + r)
        · simp only [if_pos h3, Option.some.injEq, Prod.mk.injEq] at h
          obtain ⟨rfl, rfl⟩ := h
          refine ⟨idx - s.seq.idx + 1 + s.seq.d + 1, seqRaise .range { s with
            phase := .decRem
            seq := { s.seq with
              idx := idx + 1 + s.seq.d, q := q, r := r, j := s.seq.d,
              prefixSum := run.prefixSum + (q * 2 ^ s.seq.d + r) } }, ?_, ?_, le_rfl, ?_⟩
          · rw [seqRun_add hs3 1, seqRun_one]
            simp only [seqStep, seqDecRem, lt_self_iff_false, if_false, hps, if_pos h3]
          · refine ⟨?_, hc, hlp, hnd, rfl, rfl, rfl, rfl⟩
            simp only [seqRaise, ← hb]
          · simp only []; omega
        · simp only [if_neg h3] at h
          have hs4 : seqRun (idx - s.seq.idx + 1 + s.seq.d + 1) s
              = .next { s with
                  bitmem := setBit s.bitmem (run.prefixSum + (q * 2 ^ s.seq.d + r))
                  phase := .decScan
                  seq := { s.seq with
                    idx := idx + 1 + s.seq.d, q := 0, r := r, j := s.seq.d
                    prefixSum := run.prefixSum + (q * 2 ^ s.seq.d + r)
                    cnt := s.seq.cnt + 1
                    lastpos := run.prefixSum + (q * 2 ^ s.seq.d + r) } } := by
            rw [seqRun_add hs3 1, seqRun_one]
            simp only [seqStep, seqDecRem, lt_self_iff_false, if_false, hps, if_neg h3]
          obtain ⟨k, u, hk, hfin, hcnt, hbound⟩ := ih { s with
                  bitmem := setBit s.bitmem (run.prefixSum + (q * 2 ^ s.seq.d + r))
                  phase := .decScan
                  seq := { s.seq with
                    idx := idx + 1 + s.seq.d, q := 0, r := r, j := s.seq.d
                    prefixSum := run.prefixSum + (q * 2 ^ s.seq.d + r)
                    cnt := s.seq.cnt + 1
                    lastpos := run.prefixSum + (q * 2 ^ s.seq.d + r) } }
            { idx := idx + 1 + s.seq.d
              prefixSum := run.prefixSum + (q * 2 ^ s.seq.d + r)
              cnt := run.cnt + 1
              lastpos := run.prefixSum + (q * 2 ^ s.seq.d + r)
              bitmem := setBit run.bitmem (run.prefixSum + (q * 2 ^ s.seq.d + r)) }
            ⟨rfl, rfl, rfl, rfl, by dsimp only; rw [hc], rfl, by dsimp only; rw [hb], hnd, he, by dsimp only; omega⟩
            h (by dsimp only; omega)
          refine ⟨idx - s.seq.idx + 1 + s.seq.d + 1 + k, u, (seqRun_add hs4 k).trans hk, ?_, ?_, ?_⟩
          · exact ⟨hfin.state, hfin.cnt, hfin.lastpos, hfin.nd, hfin.e, hfin.op, hfin.ovr, hfin.rsv⟩
          · dsimp only at hcnt; omega
          · dsimp only at hcnt hbound; omega

/-- Where the decode loop reads an unspecified byte, so do the micro-steps. -/
theorem decLoop_run_fault (fuel : Nat) (s : State) (run : DecodeRun) (ha : AtRound s run)
    (h : decodeLoop s.strmem s.seq.d (8 * s.strlen.toNat) s.bitlen.toNat fuel run = none) :
    ∃ k, seqRun k s = .fault (.unwrittenCell .strmem) := by
  induction fuel generalizing s run with
  | zero => simp [decodeLoop] at h
  | succ fuel ih =>
    obtain ⟨hp, hi, hq, hps, hc, hlp, hb, hnd, he, hin⟩ := ha
    unfold decodeLoop at h
    cases hs : scanPrefix s.strmem (8 * s.strlen.toNat) (8 * s.strlen.toNat) run.idx 0 with
    | none =>
      obtain ⟨k, -, hk⟩ := decScan_run_fault (8 * s.strlen.toNat) s hp (by omega) (by rw [hi, hq]; exact hs)
      exact ⟨k, hk⟩
    | some p =>
      obtain ⟨idx, q⟩ := p
      simp only [hs] at h
      have hle := scanPrefix_some _ _ _ hs
      obtain ⟨r1, r2⟩ := decScan_run (8 * s.strlen.toNat) s idx q hp (by omega) (by omega) (by rw [hi, hq]; exact hs)
      by_cases h1 : idx = 8 * s.strlen.toNat
      · simp [if_pos h1] at h
      have hb1 := r2 (by omega)
      by_cases h2 : 8 * s.strlen.toNat < idx + 1 + s.seq.d
      · simp [if_neg h1, if_pos h2] at h
      simp only [if_neg h1, if_neg h2] at h
      have hs2 : seqRun (idx - s.seq.idx + 1) s
          = .next { s with phase := .decRem, seq := { s.seq with idx := idx + 1, q := q, r := 0, j := 0 } } := by
        rw [seqRun_add r1 1, seqRun_one]
        simp only [seqStep, hp, seqDecScan, if_neg h1, hb1, if_neg h2, Bool.true_eq_false, if_false]
      cases hr : readRemainder s.strmem (idx + 1) s.seq.d with
      | none =>
        exact ⟨_, (seqRun_add hs2 s.seq.d).trans (decRem_run_fault s.seq.d
          { s with phase := .decRem, seq := { s.seq with idx := idx + 1, q := q, r := 0, j := 0 } } rfl rfl rfl le_rfl hr)⟩
      | some r =>
        simp only [hr] at h
        have hs3 := (seqRun_add hs2 s.seq.d).trans (decRem_run s.seq.d
          { s with phase := .decRem, seq := { s.seq with idx := idx + 1, q := q, r := 0, j := 0 } } r rfl rfl rfl le_rfl hr)
        by_cases h3 : s.bitlen.toNat ≤ run.prefixSum + (q * 2 ^ s.seq.d + r)
        · simp [if_pos h3] at h
        · simp only [if_neg h3] at h
          have hs4 : seqRun (idx - s.seq.idx + 1 + s.seq.d + 1) s
              = .next { s with
                  bitmem := setBit s.bitmem (run.prefixSum + (q * 2 ^ s.seq.d + r))
                  phase := .decScan
                  seq := { s.seq with
                    idx := idx + 1 + s.seq.d, q := 0, r := r, j := s.seq.d
                    prefixSum := run.prefixSum + (q * 2 ^ s.seq.d + r)
                    cnt := s.seq.cnt + 1
                    lastpos := run.prefixSum + (q * 2 ^ s.seq.d + r) } } := by
            rw [seqRun_add hs3 1, seqRun_one]
            simp only [seqStep, seqDecRem, lt_self_iff_false, if_false, hps, if_neg h3]
          obtain ⟨k, hk⟩ := ih { s with
                  bitmem := setBit s.bitmem (run.prefixSum + (q * 2 ^ s.seq.d + r))
                  phase := .decScan
                  seq := { s.seq with
                    idx := idx + 1 + s.seq.d, q := 0, r := r, j := s.seq.d
                    prefixSum := run.prefixSum + (q * 2 ^ s.seq.d + r)
                    cnt := s.seq.cnt + 1
                    lastpos := run.prefixSum + (q * 2 ^ s.seq.d + r) } }
            { idx := idx + 1 + s.seq.d
              prefixSum := run.prefixSum + (q * 2 ^ s.seq.d + r)
              cnt := run.cnt + 1
              lastpos := run.prefixSum + (q * 2 ^ s.seq.d + r)
              bitmem := setBit run.bitmem (run.prefixSum + (q * 2 ^ s.seq.d + r)) }
            ⟨rfl, rfl, rfl, rfl, by dsimp only; rw [hc], rfl, by dsimp only; rw [hb], hnd, he, by dsimp only; omega⟩ h
          exact ⟨_, (seqRun_add hs4 k).trans hk⟩

end Sys2Proof.Machine
end

