-- ==== Sys2Proof/Tests/Slice0.lean ====
section
/-! SUPPORT. The model's own tests. Expected results are those of spec/95_test_vectors.md (the vector is named at each test) or
written out by hand from the rule named. -/

namespace Sys2Proof.Tests

open Sys2Proof Sys2Proof.Machine

/-! ## Helpers -/

/-- The next state of an outcome. -/
def after : Host.Outcome State Fault Refusal → Option State
  | .next t => some t
  | .fault _ => none
  | .refused _ => none

/-- The fault of an outcome. -/
def faultOf : Host.Outcome State Fault Refusal → Option Fault
  | .next _ => none
  | .fault r => some r
  | .refused _ => none

/-- The refusal of an outcome. -/
def refusalOf : Host.Outcome State Fault Refusal → Option Refusal
  | .next _ => none
  | .fault _ => none
  | .refused r => some r

/-- The reset state with gaps loaded and `DIV` set. -/
def withGaps (gs : List Nat) (d : Nat) : State :=
  { State.reset with
    gapmem := State.reset.gapmem.writeRange 0 (gs.map (BitVec.ofNat 64))
    ngaps := BitVec.ofNat 64 gs.length
    div := BitVec.ofNat 8 d }

/-- The reset state with a payload loaded, and `DIV` and `BITLEN` set. -/
def withPayload (bytes : List Byte) (d N : Nat) : State :=
  { State.reset with
    strmem := State.reset.strmem.writeRange 0 bytes
    strlen := BitVec.ofNat 64 bytes.length
    div := BitVec.ofNat 8 d
    bitlen := BitVec.ofNat 64 N }

/-- The reset state with one item of the environment pending. -/
def withInput (ev : Event) (s : State) : State := { s with inputs := [ev] }

/-- `STATUS`, `RDIV`, `TOTBITS`, `STRLEN` and the listed bytes of `STRMEM`. -/
def encView (o : Host.Outcome State Fault Refusal) : Option (Nat × Nat × Nat × Nat × List Byte) :=
  (after o).map fun t =>
    ((statusWord t.status).toNat, t.rdiv.toNat, t.totbits.toNat, t.strlen.toNat, t.strmem.cells.map Prod.snd)

/-- `STATUS`, `COUNT`, `POS` and the listed bytes of `BITMEM`. -/
def decView (o : Host.Outcome State Fault Refusal) : Option (Nat × Nat × Nat × List Byte) :=
  (after o).map fun t => ((statusWord t.status).toNat, t.count.toNat, t.pos.toNat, t.bitmem.cells.map Prod.snd)

/-- The reset state in the middle of a command with word `c`, about to check it. -/
def inFlight (c : Nat) : State := startCommand c State.reset

/-- `STATUS` and `RDIV`. -/
def estView (o : Host.Outcome State Fault Refusal) : Option (Nat × Nat) :=
  (after o).map fun t => ((statusWord t.status).toNat, t.rdiv.toNat)

/-! ## The configuration and the checks of WellFormed -/

/-- 00_scope.md R6, R7: the decided parameters obey the constraints that name them. -/
theorem test_decided_parameters : 8 ≤ Config.W ∧ Config.divMax = 63 ∧ Config.divMax < 2 ^ Config.divW := by decide

/-- 00_scope.md R1. -/
theorem test_name : Config.name = "GRC-W64-D63" := by decide

/-- 95_test_vectors.md, test configuration. -/
theorem test_params_accepted : Params.WF ⟨16, 32, 128⟩ := by decide

theorem test_no_gap_depth_refused : ¬Params.WF ⟨0, 32, 128⟩ := by decide

theorem test_gap_depth_too_large_refused : ¬Params.WF ⟨2 ^ 64, 32, 128⟩ := by decide

theorem test_no_str_bytes_refused : ¬Params.WF ⟨16, 0, 128⟩ := by decide

theorem test_str_bytes_too_large_refused : ¬Params.WF ⟨16, 2 ^ 61, 128⟩ := by decide

theorem test_no_bm_bytes_refused : ¬Params.WF ⟨16, 32, 0⟩ := by decide

theorem test_bm_bytes_too_large_refused : ¬Params.WF ⟨16, 32, 2 ^ 61⟩ := by decide

theorem test_register_16_refused :
    Event.wellFormed ⟨16, 32, 128⟩ (.regRead 16) = false ∧ Event.wellFormed ⟨16, 32, 128⟩ (.regWrite 16 0) = false ∧
      Event.wellFormed ⟨16, 32, 128⟩ (.regRead 15) = true := by decide

theorem test_read_outside_refused :
    Event.wellFormed ⟨16, 32, 128⟩ (.memRead .gapmem 16 1) = false ∧
      Event.wellFormed ⟨16, 32, 128⟩ (.memRead .strmem 31 2) = false ∧
      Event.wellFormed ⟨16, 32, 128⟩ (.memRead .bitmem 0 0) = false ∧
      Event.wellFormed ⟨16, 32, 128⟩ (.memRead .bitmem 127 1) = true := by decide

theorem test_write_outside_refused :
    Event.wellFormed ⟨16, 32, 128⟩ (.memWriteGap 16 [0]) = false ∧
      Event.wellFormed ⟨16, 32, 128⟩ (.memWriteStr 32 [0]) = false ∧
      Event.wellFormed ⟨16, 32, 128⟩ (.memWriteBm 127 [0, 0]) = false ∧
      Event.wellFormed ⟨16, 32, 128⟩ (.memWriteBm 0 []) = false ∧
      Event.wellFormed ⟨16, 32, 128⟩ (.memWriteGap 15 [0]) = true := by decide

/-- The step refuses what the checks refuse, each under its name. -/
theorem test_step_refuses :
    refusalOf (step (withInput (.regRead 16) State.reset)) = some .hostRegister ∧
      refusalOf (step (withInput (.memRead .bitmem 128 1) State.reset)) = some .hostBounds ∧
      refusalOf (step (withInput (.memWriteStr 32 [0]) State.reset)) = some .hostBounds ∧
      refusalOf (step { State.reset with params := ⟨0, 32, 128⟩ }) = some .badConfiguration := by decide

/-! ## Decoding: words written out from the fields of 30_encoding.md R95, R96 -/

/-- V-W1 to V-W7: `RSV`, `OVR`, `OP` bit by bit. -/
theorem test_decode_legal_words :
    decode 0b00000000000000000000000000000000#32 = .ok .nop ∧
      decode 0b00000000000000000000000000000001#32 = .ok .est ∧
      decode 0b00000000000000000000000000010001#32 = .ok .estO ∧
      decode 0b00000000000000000000000000000010#32 = .ok .enc ∧
      decode 0b00000000000000000000000000000011#32 = .ok .cmpr ∧
      decode 0b00000000000000000000000000010011#32 = .ok .cmprO ∧
      decode 0b00000000000000000000000000000100#32 = .ok .dec := by decide

/-- V-W8 to V-W15. -/
theorem test_decode_illegal_words :
    decode 0x00000005#32 = .error (.illegalOp 5) ∧ decode 0x0000000F#32 = .error (.illegalOp 15) ∧
      decode 0x00000010#32 = .error (.illegalOverride 0) ∧ decode 0x00000012#32 = .error (.illegalOverride 2) ∧
      decode 0x00000014#32 = .error (.illegalOverride 4) ∧ decode 0x00000020#32 = .error .reservedBits ∧
      decode 0x80000004#32 = .error .reservedBits ∧ decode 0x00000101#32 = .error .reservedBits := by decide

/-- The encoder gives the words of the table (30_encoding.md R96). -/
theorem test_encode_words :
    encode .nop = 0x00000000#32 ∧ encode .est = 0x00000001#32 ∧ encode .estO = 0x00000011#32 ∧
      encode .enc = 0x00000002#32 ∧ encode .cmpr = 0x00000003#32 ∧ encode .cmprO = 0x00000013#32 ∧
      encode .dec = 0x00000004#32 := by decide

theorem test_decode_table_words :
    decodeTableWord 32 0x13 = some .cmprO ∧ decodeTableWord 8 0x04 = some .dec ∧ decodeTableWord 32 0x12 = none := by decide

/-- V-W1 to V-W8 as the first command after reset: `STATUS` at completion. -/
theorem test_first_command_after_reset :
    [0x00, 0x01, 0x11, 0x02, 0x03, 0x13, 0x04, 0x05].map
        (fun w => (after (step (State.reset.withFetchWord 32 w))).map fun t => (statusWord t.status).toNat)
      = [some 0x02, some 0x0A, some 0x02, some 0x0A, some 0x0A, some 0x0A, some 0x0A, some 0x16] := by decide

/-! ## Codewords -/

/-- V-C6, V-C7, V-C11 (30_encoding.md R80, R81). -/
theorem test_codewords :
    codeword 5 2 = [false, true, true, false] ∧ codeword 5 3 = [true, true, false, true] ∧
      codeword 13 2 = [false, false, false, true, true, false] := by decide

/-- X1 (30_encoding.md R89): the stream `"100010000001"` packs to `11 08`. -/
theorem test_payload : payload [0, 3, 6] 0 = [0x11, 0x08] := by decide

/-- 41_gap_sequence.md R136. -/
theorem test_gaps :
    positions [true, false, false, true, false, false, false, false, false, true] = [0, 3, 9] ∧
      gapsOf [0, 3, 9] = [0, 3, 6] ∧ runningSums [0, 3, 6] = [0, 3, 9] := by decide

/-- 20_memory.md R55: least significant byte at the lowest address. -/
theorem test_gap_word_bytes :
    gapWordBytes 0x0123456789ABCDEF#64 = [0xEF, 0xCD, 0xAB, 0x89, 0x67, 0x45, 0x23, 0x01] := by decide

/-! ## The commands -/

/-- 43_decoder.md R161, the rule's example: after an error, `NOP` leaves `STATUS = 2`. -/
theorem test_nop :
    (after (step (withInput (.command 0) { State.reset with status := statusCompleted .range false }))).map
        (fun t => (statusWord t.status, t.cmd)) = some (0x00000002#32, 0) := by decide

/-- V-S1. -/
theorem test_est : estView (exec .est (withGaps [0, 3, 6] 0)) = some (0x02, 1) := by decide

/-- V-S39. -/
theorem test_est_overflow : estView (exec .est (withGaps [2 ^ 64 - 1, 1] 0)) = some (0x46, 0) := by decide

/-- V-S23, V-S24, V-S25, V-S26, V-S35, V-S36, V-S37: means on both sides of a threshold. -/
theorem test_estimates :
    [(258, 100), (259, 100), (46, 10), (47, 10), (2 ^ 63, 1), (2 ^ 64 - 1, 1), (2 ^ 64 - 1, 2)].map
        (fun p => estDiv p.1 p.2) = [0, 1, 1, 2, 62, 63, 62] := by decide

/-- The thresholds to the 12 decimal places of the table of 40_estimator.md R116, at the ends of its columns. -/
theorem test_thresholds :
    thresholds.length = 64 ∧
      [thresholds.getD 0 0, thresholds.getD 31 0, thresholds.getD 32 0, thresholds.getD 63 0].map (fun t => t / 10 ^ 28)
        = [2580960381715, 4381465560992749322724, 8762931121485498645420, 18818251290866667986646906945113] := by decide

/-- V-S52. -/
theorem test_estO : estView (exec .estO { State.reset with div := 63 }) = some (0x02, 63) := by decide

/-- V-S53. -/
theorem test_estO_too_large : estView (exec .estO { State.reset with div := 64, rdiv := 7 }) = some (0x26, 7) := by decide

/-- V-E34: old bytes do not leak, the byte past the payload stays, a field straddles a byte boundary. -/
theorem test_enc :
    encView (exec .enc
        { withGaps [100, 127, 773] 7 with strmem := State.reset.strmem.writeRange 0 [0xFF, 0xFF, 0xFF, 0xFF, 0xEE] })
      = some (0x02, 7, 30, 4, [0xC9, 0xFF, 0xC0, 0x02, 0xEE]) := by decide

/-- V-E31: `E_DIV` comes before `E_LEN`. -/
theorem test_enc_order_of_checks :
    encView (exec .enc { State.reset with div := 64, ngaps := 17 }) = some (0x26, 0, 0, 0, []) := by decide

/-- V-A1. -/
theorem test_cmpr : encView (exec .cmpr (withGaps [0, 3, 6] 200)) = some (0x02, 1, 10, 2, [0x19, 0x01]) := by decide

/-- V-E23. -/
theorem test_cmpr_overflow : encView (exec .cmpr (withGaps [2 ^ 64 - 1, 1] 0)) = some (0x46, 0, 0, 0, []) := by decide

/-- V-E3. -/
theorem test_cmprO : encView (exec .cmprO (withGaps [0, 3, 6] 2)) = some (0x02, 2, 10, 2, [0xB9, 0x02]) := by decide

/-- V-E27: `E_CAP`, nothing written. -/
theorem test_cmprO_capacity : encView (exec .cmprO (withGaps [256] 0)) = some (0x56, 0, 0, 0, []) := by decide

/-- V-D2. -/
theorem test_dec : decView (exec .dec (withPayload [0x19, 0x01] 1 10)) = some (0x02, 3, 9, [0x09, 0x02]) := by decide

/-- V-D26: the out-of-range codeword is reported, the truncated one after it never reached; V-D27: with room, the truncation. -/
theorem test_dec_errors :
    decView (exec .dec (withPayload [0x79] 2 3)) = some (0x76, 1, 0, [0x01]) ∧
      decView (exec .dec (withPayload [0x79] 2 4)) = some (0x66, 2, 3, [0x09]) := by decide

/-! ## Unspecified cells, host access, reset, the sequencer -/

/-- 70_reset_and_hazards.md R223: a command that reads an unwritten cell faults. -/
theorem test_unwritten_cells :
    faultOf (exec .enc { State.reset with ngaps := 1 }) = some (.unwrittenCell .gapmem) ∧
      faultOf (exec .dec { State.reset with strlen := 1 }) = some (.unwrittenCell .strmem) := by decide

/-- V-R5: `WR DIV, 0x1FF` stores `0xFF`; V-R8: `RDIV` is read-only. -/
theorem test_reg_write :
    (after (step (withInput (.regWrite 3 0x1FF) State.reset))).map (fun t => t.div) = some 0xFF ∧
      (after (step (withInput (.regWrite 7 7) State.reset))).map (fun t => t.rdiv) = some 0 := by decide

/-- V-R1, V-R10: `ID` and a reserved register. -/
theorem test_reg_read :
    (after (step (withInput (.regRead 0) State.reset))).map (fun t => t.rdata) = some (some (.reg 0x47524301)) ∧
      (after (step (withInput (.regRead 11) State.reset))).map (fun t => t.rdata) = some (some (.reg 0)) := by decide

/-- 20_memory.md R56, R57: a written `GAPMEM` cell takes `trunc_64` of the value and reads back. -/
theorem test_gapmem_access :
    (after (step (withInput (.memWriteGap 2 [2 ^ 64 + 5]) State.reset))).map (fun t => t.gapmem.read 2) = some (some 5) ∧
      (after (step (withInput (.memRead .gapmem 1 2) (withGaps [7, 8, 9] 0)))).map (fun t => t.rdata)
        = some (some (.gaps [8, 9])) := by decide

/-- A write of the same cell twice and in either order gives the same list: the form is canonical. -/
theorem test_canonical_form :
    ((Memory.write (⟨[], 0⟩ : Memory Byte) 5 1).write 3 2).write 5 9 = (Memory.write (⟨[], 0⟩ : Memory Byte) 5 9).write 3 2 := by
  decide

/-- 70_reset_and_hazards.md R221: a reset during `DEC` keeps `STRMEM` and the bitmap bytes outside the range. -/
theorem test_reset_during_dec :
    (after (step (withInput .reset
        { startCommand 4 (withPayload [0x11] 0 8) with bitmem := State.reset.bitmem.writeRange 0 [1, 2] }))).map
      (fun t => ((statusWord t.status).toNat, t.strmem.read 0, t.bitmem.read 1, t.strlen)) = some (0, some 0x11, some 2, 0) := by
  decide

/-- 95_test_vectors.md, the trace of V-D2: `CHECK`, two `DEC_ZERO` steps, 20 steps to `FINISH`, and the completion step. -/
theorem test_sequencer_trace :
    (after (seqRun 23 (startCommand 4 (withPayload [0x19, 0x01] 1 10)))).map (fun t => (t.phase, t.seq.idx)) = some (.finish, 16) ∧
      decView (seqRun 24 (startCommand 4 (withPayload [0x19, 0x01] 1 10))) = some (0x02, 3, 9, [0x09, 0x02]) := by decide

/-- The program of 30_encoding.md R101 for the source's vector. -/
theorem test_pseudo_operation :
    compressDivProgram [0, 3] 1
      = [.memWriteGap 0 [0], .memWriteGap 1 [3], .regWrite 4 2, .regWrite 3 1, .regWrite 1 0x13, .wait] := by decide

/-! ## Witnesses: states and operands that meet all hypotheses of a statement of Obligations.lean together -/

theorem witness_CommandWordDecodingOrder :
    (0x00000020#32).extractLsb 31 5 ≠ 0 ∧ (0x80000004#32).extractLsb 31 5 ≠ 0 ∧ decode 0x00000013#32 = .ok .cmprO := by decide

theorem witness_StepRunsDecodedCommand :
    (withInput (.command 0x04) State.reset).params.WF ∧
      (withInput (.command 0x04) State.reset).inputs = [Event.command 0x04] ∧
      (withInput (.command 0x04) State.reset).status.busy = false ∧ decode (BitVec.ofNat 32 0x04) = .ok .dec ∧
      (inFlight 0).params.WF ∧ decodeTableWord 32 0x13 = some .cmprO := by decide

theorem witness_IllegalCommandCompletesWithECmd :
    (withInput (.command 0x12) State.reset).params.WF ∧
      (withInput (.command 0x12) State.reset).inputs = [Event.command 0x12] ∧
      (withInput (.command 0x12) State.reset).status.busy = false ∧
      decode (BitVec.ofNat 32 0x12) = .error (.illegalOverride 2) := by decide

theorem witness_CommandStartLatchesAndClears :
    (withInput (.regWrite 1 0x104) State.reset).params.WF ∧
      (withInput (.regWrite 1 0x104) State.reset).inputs = [Event.regWrite 1 0x104] ∧
      (withInput (.regWrite 1 0x104) State.reset).status.busy = false := by decide

theorem witness_CommandsIgnoreHiddenState :
    State.reset.status.busy = false ∧ (statusCompleted .range false).busy = false := by decide

theorem witness_NopLeavesACleanStatus :
    (0x00000010#32).extractLsb 3 0 = 0 ∧ 0x00000010#32 ≠ 0 ∧
      (withInput (.command 0) State.reset).params.WF ∧
      (withInput (.command 0) State.reset).inputs = [Event.command 0] ∧
      (withInput (.command 0) State.reset).status.busy = false := by decide

theorem witness_EstWritesTheEstimate_length :
    { State.reset with ngaps := 17 }.params.gapDepth < { State.reset with ngaps := 17 }.ngaps.toNat := by decide

theorem witness_EstWritesTheEstimate_empty : State.reset.ngaps = 0 := by decide

theorem witness_EstWritesTheEstimate_sum :
    (withGaps [2 ^ 64 - 1, 1] 0).ngaps.toNat ≤ (withGaps [2 ^ 64 - 1, 1] 0).params.gapDepth ∧
      (withGaps [2 ^ 64 - 1, 1] 0).ngaps ≠ 0 ∧
      gapOperand (withGaps [2 ^ 64 - 1, 1] 0) = some [2 ^ 64 - 1, 1] ∧ 2 ^ 64 ≤ [2 ^ 64 - 1, 1].sum ∧
      (withGaps [2 ^ 64 - 1] 0).ngaps.toNat ≤ (withGaps [2 ^ 64 - 1] 0).params.gapDepth ∧
      (withGaps [2 ^ 64 - 1] 0).ngaps ≠ 0 ∧
      gapOperand (withGaps [2 ^ 64 - 1] 0) = some [2 ^ 64 - 1] ∧ [2 ^ 64 - 1].sum < 2 ^ 64 := by decide

theorem witness_EstOverrideCopiesDiv :
    { State.reset with div := 63 }.div.toNat ≤ 63 ∧ 63 < { State.reset with div := 64 }.div.toNat := by decide

theorem witness_EstimateIsTheRoundedLogarithm : 1 ≤ 1 ∧ 2 ^ 64 - 1 < 2 ^ 64 ∧ 1 ≤ 1 ∧ 1 < 2 ^ 64 - 1 := by decide

theorem witness_EstimateCountsThresholds : 1 ≤ 1 ∧ 1 < 2 ∧ 2 < 2 ^ 64 := by decide

theorem witness_EstimateIsALegalDivisor :
    (1 ≤ 1 ∧ 2 ^ 64 - 1 < 2 ^ 64) ∧
      (∃ t, exec .est (withGaps [0, 3, 6] 0) = .next t ∧ t.status.ecode = .success) ∧
      ∃ t, exec .cmpr (withGaps [0, 3, 6] 0) = .next t ∧ t.status.ecode = .success :=
  ⟨by decide, ⟨_, rfl, by decide⟩, ⟨_, rfl, by decide⟩⟩

theorem witness_EstimateMonotoneInTheMean :
    258 ≤ 259 ∧ 1 ≤ 2 ∧ 1 ≤ 3 ∧ 1 < 3 ∧ 3 * 2 = 6 * 1 := by decide

/-- The three commands, at the largest payload that fits (V-E26) and, for `CMPR`, an estimate. -/
theorem witness_EncodeWritesThePayload :
    (withGaps [255] 0).div.toNat ≤ 63 ∧ (withGaps [255] 0).params.WF ∧
      (withGaps [255] 0).ngaps.toNat ≤ (withGaps [255] 0).params.gapDepth ∧ (withGaps [255] 0).ngaps ≠ 0 ∧
      gapOperand (withGaps [255] 0) = some [255] ∧ [255].sum < 2 ^ 64 ∧
      ceilDiv8 (totalBits [255] (withGaps [255] 0).div.toNat) = (withGaps [255] 0).params.strBytes ∧
      ceilDiv8 (totalBits [255] (estDiv [255].sum (withGaps [255] 0).ngaps.toNat))
        ≤ (withGaps [255] 0).params.strBytes := by decide

theorem witness_EmptyGapSequenceGivesEmptyPayload :
    { State.reset with div := 63 }.ngaps = 0 ∧ { State.reset with div := 63 }.div.toNat ≤ 63 ∧
      { State.reset with div := 200 }.ngaps = 0 ∧ { State.reset with div := 200 }.div = 200#8 := by decide

/-- V-E27 for `ENC` and `CMPR.O`; for `CMPR` the buffer is made small. -/
theorem witness_PayloadTooLargeIsECap :
    (withGaps [256] 0).div.toNat ≤ 63 ∧ (withGaps [256] 0).ngaps.toNat ≤ (withGaps [256] 0).params.gapDepth ∧
      (withGaps [256] 0).ngaps ≠ 0 ∧ gapOperand (withGaps [256] 0) = some [256] ∧
      (withGaps [256] 0).params.strBytes < ceilDiv8 (totalBits [256] (withGaps [256] 0).div.toNat) ∧
      [0, 3, 6].sum < 2 ^ 64 ∧
      gapOperand { withGaps [0, 3, 6] 0 with params := ⟨16, 1, 128⟩ } = some [0, 3, 6] ∧
      { withGaps [0, 3, 6] 0 with params := ⟨16, 1, 128⟩ }.params.strBytes
        < ceilDiv8 (totalBits [0, 3, 6] (estDiv [0, 3, 6].sum 3)) := by decide

theorem witness_CmprIsEstThenEnc :
    ∃ t u, exec .est (withGaps [0, 3, 6] 0) = .next t ∧ t.status.ecode = .success ∧
      exec .enc { t with div := t.rdiv } = .next u ∧ u.status.ecode = .success :=
  ⟨_, _, rfl, by decide, rfl, by decide⟩

theorem witness_CodeIsPrefixFree : codeword 5 2 <+: codeword 5 2 := by decide

theorem witness_PutBitsIsBitwiseSetBit :
    ((Memory.fill (⟨[], 0⟩ : Memory Byte) 0 4 0).wf ∧ 5 < 2 ^ 7) ∧ (Memory.fill (⟨[], 0⟩ : Memory Byte) 0 4 0).wf ∧ 0 < 2 ^ 0 := by
  decide

theorem witness_SetBitIsAnIdempotentOr :
    (Memory.fill (⟨[], 0⟩ : Memory Byte) 0 2 4).wf ∧ (Memory.fill (⟨[], 0⟩ : Memory Byte) 0 2 4).read (9 / 8) = some 4 ∧
      0 ≠ 9 / 8 ∧ getBit (Memory.fill (⟨[], 0⟩ : Memory Byte) 0 2 4) 10 = some true := by decide

theorem witness_RunningSumsInvertGaps :
    [0, 3, 9].Pairwise (· < ·) ∧ (∀ i, i < [0, 3, 6].length → 0 < i → 1 ≤ [0, 3, 6].getD i 0) := by decide

theorem witness_GapSequencesOfBitmaps :
    ([true, false, true].length ≤ 2 ^ 64) ∧ (1 ∈ gapsOf (positions [false, true])) := by decide

theorem witness_DecodeCommitsTheStreamsPositions :
    (withPayload [0x79] 2 3).params.WF ∧ (withPayload [0x79] 2 3).div.toNat ≤ 63 ∧
      (withPayload [0x79] 2 3).strlen.toNat ≤ (withPayload [0x79] 2 3).params.strBytes ∧
      bitmapBytes (withPayload [0x79] 2 3) ≤ (withPayload [0x79] 2 3).params.bmBytes ∧
      payloadOperand (withPayload [0x79] 2 3) = some [0x79] := by decide

/-- At the largest bitmap (V-D34's `BITLEN`). -/
theorem witness_EmptyPayloadDecodesToZeros :
    (withPayload [] 63 1024).strlen = 0 ∧ (withPayload [] 63 1024).div.toNat ≤ 63 ∧
      bitmapBytes (withPayload [] 63 1024) = (withPayload [] 63 1024).params.bmBytes := by decide

/-- V-D10: the position is `N - 1`. -/
theorem witness_ExhaustedPrefixEndsTheDecode :
    (withPayload [0x10] 0 5).params.WF ∧ (withPayload [0x10] 0 5).div.toNat ≤ 63 ∧
      (withPayload [0x10] 0 5).strlen.toNat ≤ (withPayload [0x10] 0 5).params.strBytes ∧
      bitmapBytes (withPayload [0x10] 0 5) ≤ (withPayload [0x10] 0 5).params.bmBytes ∧
      payloadOperand (withPayload [0x10] 0 5) = some [0x10] ∧
      bitsOf [0x10] = encBits [4] (withPayload [0x10] 0 5).div.toNat ++ List.replicate 3 false ∧
      (∀ p ∈ runningSums [4], p < (withPayload [0x10] 0 5).bitlen.toNat) := by decide

/-- V-D28: one codeword, then a terminator with one bit left for a remainder of two. -/
theorem witness_ShortRemainderIsETrunc :
    (withPayload [0x41] 2 4).params.WF ∧ (withPayload [0x41] 2 4).div.toNat ≤ 63 ∧
      (withPayload [0x41] 2 4).strlen.toNat ≤ (withPayload [0x41] 2 4).params.strBytes ∧
      bitmapBytes (withPayload [0x41] 2 4) ≤ (withPayload [0x41] 2 4).params.bmBytes ∧
      payloadOperand (withPayload [0x41] 2 4) = some [0x41] ∧
      bitsOf [0x41]
        = encBits [0] (withPayload [0x41] 2 4).div.toNat ++ (List.replicate 3 false ++ true :: [false]) ∧
      [false].length < (withPayload [0x41] 2 4).div.toNat ∧
      (∀ p ∈ runningSums [0], p < (withPayload [0x41] 2 4).bitlen.toNat) := by decide

/-- V-D11: the position is `N`. -/
theorem witness_PositionOutsideIsERange :
    (withPayload [0x10] 0 4).params.WF ∧ (withPayload [0x10] 0 4).div.toNat ≤ 63 ∧
      (withPayload [0x10] 0 4).strlen.toNat ≤ (withPayload [0x10] 0 4).params.strBytes ∧
      bitmapBytes (withPayload [0x10] 0 4) ≤ (withPayload [0x10] 0 4).params.bmBytes ∧
      payloadOperand (withPayload [0x10] 0 4) = some [0x10] ∧
      bitsOf [0x10]
        = encBits [] (withPayload [0x10] 0 4).div.toNat ++
          (codeword 4 (withPayload [0x10] 0 4).div.toNat ++ [false, false, false]) ∧
      (∀ p ∈ runningSums [], p < (withPayload [0x10] 0 4).bitlen.toNat) ∧
      (withPayload [0x10] 0 4).bitlen.toNat ≤ ([] : List Nat).sum + 4 := by decide

/-- V-E9 and its decode: positions 0 and `N - 1`. -/
theorem witness_RoundTrip :
    ∃ (b : List Bool) (s t u : State), s.params.WF ∧ ceilDiv8 b.length ≤ s.params.bmBytes ∧
      (gapsOf (positions b)).length ≤ s.params.gapDepth ∧ s.ngaps.toNat = (gapsOf (positions b)).length ∧
      gapOperand s = some (gapsOf (positions b)) ∧ exec .enc s = .next t ∧ t.status.ecode = .success ∧
      u.params = t.params ∧ u.strmem = t.strmem ∧ u.strlen = t.strlen ∧ u.bitlen.toNat = b.length ∧
      u.div.toNat ≤ 63 ∧ gapsOf (positions b) ≠ [] ∧ u.div = t.rdiv ∧ s.div = 2 :=
  ⟨true :: List.replicate 14 false ++ [true], withGaps [0, 15] 2, (after (exec .enc (withGaps [0, 15] 2))).getD State.reset,
    { (after (exec .enc (withGaps [0, 15] 2))).getD State.reset with bitlen := 16 },
    by decide, by decide, by decide, by decide, by decide, rfl, by decide, by decide, by decide, by decide, by decide, by decide,
    by decide, by decide, by decide⟩

theorem witness_PreCheckErrors :
    63 < { State.reset with div := 64 }.div.toNat ∧
      (∃ t, exec .est (withGaps [0, 3, 6] 64) = .next t ∧ t.status.ecode = .success) ∧
      { State.reset with div := 63, ngaps := 17 }.div.toNat ≤ 63 ∧
      { State.reset with div := 63, ngaps := 17 }.params.gapDepth < { State.reset with div := 63, ngaps := 17 }.ngaps.toNat ∧
      { State.reset with strlen := 33 }.params.strBytes < { State.reset with strlen := 33 }.strlen.toNat ∧
      { State.reset with bitlen := 1025 }.params.bmBytes < ceilDiv8 { State.reset with bitlen := 1025 }.bitlen.toNat :=
  ⟨by decide, ⟨_, rfl, by decide⟩, by decide, by decide, by decide, by decide⟩

theorem witness_GapSumOverflowIsEOvf :
    ((withGaps [2 ^ 64 - 1, 1] 0).ngaps.toNat ≤ (withGaps [2 ^ 64 - 1, 1] 0).params.gapDepth ∧
      (withGaps [2 ^ 64 - 1, 1] 0).ngaps ≠ 0 ∧
      gapOperand (withGaps [2 ^ 64 - 1, 1] 0) = some [2 ^ 64 - 1, 1] ∧ 2 ^ 64 ≤ [2 ^ 64 - 1, 1].sum) ∧
      (∃ t, exec .enc (withGaps [2 ^ 64 - 1, 1] 63) = .next t) ∧ [true, false, true].length ≤ 2 ^ 64 :=
  ⟨by decide, ⟨_, rfl⟩, by decide⟩

theorem witness_CompletionStatusPerCommand :
    (∃ t, exec .dec (withPayload [0x79] 2 3) = .next t) ∧ ∃ t, exec .est State.reset = .next t := ⟨⟨_, rfl⟩, ⟨_, rfl⟩⟩

theorem witness_FailedCommandsChangeOnlyStatus :
    (∃ t, exec .dec (withPayload [0x79] 2 4) = .next t ∧ t.status.ecode = .trunc) ∧
      ∃ t, exec .enc (withGaps [256] 0) = .next t ∧ t.status.ecode = .cap :=
  ⟨⟨_, rfl, by decide⟩, ⟨_, rfl, by decide⟩⟩

theorem witness_CommandsWriteOnlyTheirResults : ∃ t, exec .cmpr (withGaps [0, 3, 6] 0) = .next t := ⟨_, rfl⟩

theorem witness_ReadyCommandsComplete :
    operandsReady .cmpr (withGaps [0, 3, 6] 0) ∧ operandsReady .dec (withPayload [0x11, 0x08] 0 10) := by
  constructor <;> simp only [operandsReady, Memory.knownTo] <;> decide

/-- Two states that differ in a buffer cell no operand covers. -/
theorem witness_CommandsDependOnlyOnTheirOperands :
    (withGaps [0, 3, 6] 1).params = { withGaps [0, 3, 6] 1 with strmem := ⟨[(0, 7)], 0⟩ }.params ∧
      (withGaps [0, 3, 6] 1).div = { withGaps [0, 3, 6] 1 with strmem := ⟨[(0, 7)], 0⟩ }.div ∧
      (withGaps [0, 3, 6] 1).ngaps = { withGaps [0, 3, 6] 1 with strmem := ⟨[(0, 7)], 0⟩ }.ngaps ∧
      (∀ k, k < 3 → (withGaps [0, 3, 6] 1).gapmem.read k
        = { withGaps [0, 3, 6] 1 with strmem := ⟨[(0, 7)], 0⟩ }.gapmem.read k) ∧
      (∃ t, exec .enc (withGaps [0, 3, 6] 1) = .next t) ∧
      ∃ t, exec .enc { withGaps [0, 3, 6] 1 with strmem := ⟨[(0, 7)], 0⟩ } = .next t :=
  ⟨by decide, by decide, by decide, fun _ _ => rfl, ⟨_, rfl⟩, ⟨_, rfl⟩⟩

theorem witness_RegReadChangesNothing :
    (withInput (.regRead 15) State.reset).params.WF ∧ (withInput (.regRead 15) State.reset).inputs = [Event.regRead 15] ∧
      15 ≤ 15 ∧ (withInput (.regRead 15) State.reset).status.busy = false ∧
      (withInput (.regRead 10) (inFlight 4)).params.WF ∧ (withInput (.regRead 10) (inFlight 4)).inputs = [Event.regRead 10] := by
  decide

theorem witness_RegWriteStoresOrIsIgnored :
    (withInput (.regWrite 3 0x1FF) State.reset).params.WF ∧
      (withInput (.regWrite 3 0x1FF) State.reset).inputs = [Event.regWrite 3 0x1FF] ∧ 3 ≤ 15 ∧
      (withInput (.regWrite 3 0x1FF) State.reset).status.busy = false ∧
      (withInput (.regWrite 1 0) (inFlight 4)).params.WF ∧
      (withInput (.regWrite 1 0) (inFlight 4)).inputs = [Event.regWrite 1 0] ∧
      (withInput (.regWrite 1 0) (inFlight 4)).status.busy = true := by decide

/-- Accesses that end at the last cell of each buffer. -/
theorem witness_HostBufferAccess :
    State.reset.params.WF ∧ State.reset.status.busy = false ∧ 15 + [2 ^ 64].length ≤ State.reset.params.gapDepth ∧
      31 + [0xFF#8].length ≤ State.reset.params.strBytes ∧ 127 + [0xFF#8].length ≤ State.reset.params.bmBytes ∧
      (withPayload [1, 2] 0 0).strmem.readRange 0 2 = some [1, 2] ∧ 0 + 2 ≤ (withPayload [1, 2] 0 0).params.strBytes ∧
      { State.reset with bitmem := State.reset.bitmem.writeRange 126 [1, 2] }.bitmem.readRange 126 2 = some [1, 2] ∧
      126 + 2 ≤ State.reset.params.bmBytes ∧
      (withGaps [7, 8] 0).gapmem.readRange 0 2 = some [7, 8] ∧ 0 + 2 ≤ (withGaps [7, 8] 0).params.gapDepth := by decide

theorem witness_BusyBufferAccessHasNoEffect :
    (withInput (.memWriteGap 15 [1]) (inFlight 4)).params.WF ∧ (withInput (.memWriteGap 15 [1]) (inFlight 4)).status.busy = true ∧
      (Event.memWriteGap 15 [1]).wellFormed (inFlight 4).params = true ∧
      (Event.memRead .bitmem 127 1).wellFormed (inFlight 4).params = true := by decide

theorem witness_RefusedAccesses :
    ¬Params.WF ⟨16, 2 ^ 61, 128⟩ ∧ (withInput (.regWrite 16 0) State.reset).params.WF ∧ 16 ≤ 16 ∧
      (withInput (.memRead .strmem 32 1) State.reset).params.WF ∧
      (withInput (.memRead .strmem 32 1) State.reset).params.cells .strmem < 32 + 1 ∧
      (withInput (.memWriteGap 15 [0, 0]) (inFlight 4)).params.WF ∧
      (withInput (.memWriteGap 15 [0, 0]) (inFlight 4)).inputs = [Event.memWriteGap 15 [0, 0]] ∧
      (withInput (.memWriteGap 15 [0, 0]) (inFlight 4)).params.gapDepth < 15 + [0, 0].length ∧
      (withInput (.memWriteStr 32 [0]) State.reset).inputs = [Event.memWriteStr 32 [0]] ∧
      (withInput (.memWriteStr 32 [0]) State.reset).params.strBytes < 32 + [0#8].length ∧
      (withInput (.memWriteBm 0 []) State.reset).inputs = [Event.memWriteBm 0 []] ∧
      (withInput (.memWriteBm 128 [0]) State.reset).params.bmBytes < 128 + [0#8].length := by decide

theorem witness_WaitPollsTheStatus :
    (withInput .wait State.reset).params.WF ∧ (withInput .wait State.reset).inputs = [Event.wait] ∧
      (withInput .wait State.reset).status.busy = false ∧ (withInput .wait (inFlight 4)).params.WF ∧
      (withInput .wait (inFlight 4)).inputs = [Event.wait] ∧ (withInput .wait (inFlight 4)).status.busy = true := by decide

theorem witness_ResetAtAnyTime :
    (withInput .reset State.reset).params.WF ∧ (withInput .reset State.reset).inputs = [Event.reset] ∧
      (withInput .reset State.reset).status.busy = false ∧
      (withInput .reset (inFlight 2)).params.WF ∧ (withInput .reset (inFlight 2)).inputs = [Event.reset] ∧
      (withInput .reset (inFlight 2)).status.busy = true ∧ seqCommand (inFlight 2) = .ok .enc ∧
      seqCommand (inFlight 4) = .ok .dec ∧ seqCommand (inFlight 0x11) = .ok .estO ∧
      seqCommand (inFlight 0x12) = .error (.illegalOverride 2) := by decide

/-- A state that meets the invariant and has a next state, idle; witness_SequencerAccessesInside has one in each phase with an access. -/
theorem witness_StepKeepsInvariant :
    Inv (withInput (.regWrite 1 4) State.reset) ∧ ∃ t, step (withInput (.regWrite 1 4) State.reset) = .next t := by
  refine ⟨⟨by decide, ⟨by decide, by decide, by decide, by decide⟩, by decide, ⟨by decide, by decide⟩, ⟨by decide, by decide⟩,
    ⟨by decide, by decide⟩, by decide, by decide, by decide, trivial⟩, ⟨_, rfl⟩⟩

/-- A command about to be checked, and one about to finish. -/
theorem witness_OnlyFinishCompletes :
    (Inv (inFlight 4) ∧ (inFlight 4).status.busy = true ∧ ∃ t, seqStep (inFlight 4) = .next t) ∧
      Inv { inFlight 4 with phase := .finish } ∧ ∃ t, seqStep { inFlight 4 with phase := .finish } = .next t := by
  refine ⟨⟨⟨by decide, ⟨by decide, by decide, by decide, by decide⟩, by decide, ⟨by decide, by decide⟩, ⟨by decide, by decide⟩,
    ⟨by decide, by decide⟩, by decide, by decide, by decide, rfl⟩, by decide, ⟨_, rfl⟩⟩,
    ⟨by decide, ⟨by decide, by decide, by decide, by decide⟩, by decide, ⟨by decide, by decide⟩, ⟨by decide, by decide⟩,
    ⟨by decide, by decide⟩, by decide, by decide, by decide, trivial⟩, ⟨_, rfl⟩⟩

/-- For SequencerRefinesEstimator, SequencerRefinesEncoder and SequencerRefinesDecoder. -/
theorem witness_SequencerRefines :
    State.reset.status.busy = false ∧ decode (BitVec.ofNat 32 0x01) = .ok .est ∧
      decode (BitVec.ofNat 32 0x12) = .error (.illegalOverride 2) ∧ decode (BitVec.ofNat 32 0x03) = .ok .cmpr ∧
      decode (BitVec.ofNat 32 0x04) = .ok .dec := by decide

theorem witness_CommandsCompleteWithinTheBound :
    (withPayload [0x19, 0x01] 1 10).params.WF ∧ (withPayload [0x19, 0x01] 1 10).status.busy = false ∧
      decode (BitVec.ofNat 32 4) = .ok .dec ∧ ∃ t, runCommand 4 (withPayload [0x19, 0x01] 1 10) = .next t :=
  ⟨by decide, by decide, by decide, ⟨_, rfl⟩⟩

/-- A state in phase `p` of a command, with hidden registers `q`. -/
def busyAt (p : Phase) (q : Seq) (s : State) : State := { s with status := statusStarted, phase := p, seq := q }

theorem busyAt_inv {p : Phase} {q : Seq} {s : State} (hw : s.params.WF) (hg : BufferLegal s.gapmem s.params.gapDepth)
    (hs : BufferLegal s.strmem s.params.strBytes) (hb : BufferLegal s.bitmem s.params.bmBytes)
    (hr : s.rdiv.toNat ≤ Config.divMax) (hp : p ≠ .idle) (hd : q.d ≤ Config.divMax) (he : q.result ≤ Config.divMax)
    (h : PhaseLegal (busyAt p q s)) : Inv (busyAt p q s) where
  params := hw
  status := by constructor <;> simp [busyAt, statusStarted]
  busyPhase := by simp [busyAt, statusStarted, hp]
  gapmem := hg
  strmem := hs
  bitmem := hb
  rdivLegal := hr
  divInEffect := hd
  estimate := he
  phase := h

/-- One gap of 255, whose payload fills `STRMEM` when `d = 0`, with `n` bytes of `STRMEM` zeroed. -/
def fullStream (n : Nat) : State := { withGaps [255] 0 with strmem := State.reset.strmem.fill 0 n 0 }

/-- The longest payload and bitmap, with `n` bytes of `BITMEM` zeroed. -/
def fullBitmap (n : Nat) : State :=
  { State.reset with strlen := 32, bitlen := 1024, bitmem := State.reset.bitmem.fill 0 n 0 }

theorem fullStream_inv (n : Nat) (hn : n ≤ 32) {p : Phase} {q : Seq} (hp : p ≠ .idle) (hd : q.d ≤ Config.divMax)
    (he : q.result ≤ Config.divMax) (h : PhaseLegal (busyAt p q (fullStream n))) : Inv (busyAt p q (fullStream n)) := by
  refine busyAt_inv (show Params.WF ⟨16, 32, 128⟩ by decide) ?_ ?_ ?_ (show (0 : BitVec 8).toNat ≤ Config.divMax by decide) hp hd he h
  · show BufferLegal (withGaps [255] 0).gapmem 16
    exact ⟨by decide, by decide⟩
  · show BufferLegal (State.reset.strmem.fill 0 n 0) 32
    exact fill_legal ⟨by decide, by decide⟩ (by omega) 0
  · show BufferLegal State.reset.bitmem 128
    exact ⟨by decide, by decide⟩

theorem fullBitmap_inv (n : Nat) (hn : n ≤ 128) {p : Phase} {q : Seq} (hp : p ≠ .idle) (hd : q.d ≤ Config.divMax)
    (he : q.result ≤ Config.divMax) (h : PhaseLegal (busyAt p q (fullBitmap n))) : Inv (busyAt p q (fullBitmap n)) := by
  refine busyAt_inv (show Params.WF ⟨16, 32, 128⟩ by decide) ?_ ?_ ?_ (show (0 : BitVec 8).toNat ≤ Config.divMax by decide) hp hd he h
  · show BufferLegal State.reset.gapmem 16
    exact ⟨by decide, by decide⟩
  · show BufferLegal State.reset.strmem 32
    exact ⟨by decide, by decide⟩
  · show BufferLegal (State.reset.bitmem.fill 0 n 0) 128
    exact fill_legal ⟨by decide, by decide⟩ (by omega) 0

theorem fill_known (m : Memory Byte) (n : Nat) : (m.fill 0 n 0).knownTo n := fun k hk => by simp [read_fill, hk]

/-- One state for each clause, with the access at the last cell of its space. -/
theorem witness_SequencerAccessesInside :
    Inv (busyAt .estSum { Seq.zero with i := 15 } { State.reset with ngaps := 16 }) ∧
      Inv (busyAt .encZero { Seq.zero with tot := 256, i := 31 } (fullStream 31)) ∧
      Inv (busyAt .encEmit { Seq.zero with tot := 256 } (fullStream 32)) ∧
      Inv (busyAt .decZero { Seq.zero with i := 127 } (fullBitmap 127)) ∧
      Inv (busyAt .decScan { Seq.zero with idx := 255 } (fullBitmap 128)) ∧
      Inv (busyAt .decRem { Seq.zero with idx := 255, d := 1 } (fullBitmap 128)) ∧ 1023 < (fullBitmap 128).bitlen.toNat :=
  have bits : (withGaps [255] 0).gapmem.readRange 0 1 = some [255] := by decide
  ⟨busyAt_inv (by decide) ⟨by decide, by decide⟩ ⟨by decide, by decide⟩ ⟨by decide, by decide⟩ (by decide) (by decide) (by decide)
      (by decide) ⟨by decide, by decide⟩,
    fullStream_inv 31 (by decide) (by decide) (by decide) (by decide)
      ⟨by decide, by decide, by decide, by decide, ⟨[255], bits, by decide⟩, fill_known _ 31⟩,
    fullStream_inv 32 (by decide) (by decide) (by decide) (by decide)
      ⟨by decide, by decide, by decide, by decide, ⟨[255], bits, by decide⟩, fill_known _ 32⟩,
    fullBitmap_inv 127 (by decide) (by decide) (by decide) (by decide)
      ⟨by decide, by decide, by decide, rfl, fill_known _ 127⟩,
    fullBitmap_inv 128 (by decide) (by decide) (by decide) (by decide)
      ⟨by decide, by decide, by decide, fill_known _ 128⟩,
    fullBitmap_inv 128 (by decide) (by decide) (by decide) (by decide)
      ⟨by decide, by decide, by decide, by decide, fill_known _ 128⟩, by decide⟩

end Sys2Proof.Tests
end

section
/-! PROOFS, family 00_scope.md: a command's results are a function of its operands (R9), a step runs the decoded command (R8),
and what the model refuses (R7). -/

namespace Sys2Proof.Machine

/-! ## Buffers that agree on their first cells -/

/-- Cells `0 .. n-1` of two buffers have the same contents, or are unspecified in both. -/
abbrev AgreeTo {α : Type} (n : Nat) (m m' : Memory α) : Prop := ∀ k, k < n → m.read k = m'.read k

theorem getBit_congr {m m' : Memory Byte} {n : Nat} (h : AgreeTo n m m') : ∀ j, j < 8 * n → getBit m j = getBit m' j :=
  fun j hj => by rw [getBit_eq, getBit_eq, h (j / 8) (by omega)]

theorem setBit_agreeTo {m m' : Memory Byte} {n : Nat} (h : AgreeTo n m m') (idx : Nat) :
    AgreeTo n (setBit m idx) (setBit m' idx) := by
  intro k hk
  by_cases hi : k = idx / 8
  · rw [setBit, setBit, read_orByte, read_orByte, if_pos hi, if_pos hi, ← hi, h k hk]
  · rw [read_setBit_other m hi, read_setBit_other m' hi, h k hk]

theorem emitStream_agreeTo (m m' : Memory Byte) (d : Nat) (gs : List Nat) :
    AgreeTo (ceilDiv8 (totalBits gs d)) (emitStream m (ceilDiv8 (totalBits gs d)) d gs)
      (emitStream m' (ceilDiv8 (totalBits gs d)) d gs) :=
  fun _ hk => by rw [read_emitStream_inside m d gs hk, read_emitStream_inside m' d gs hk]

/-! ## Outcomes that agree -/

/-- Both commands stop with the same fault, or both complete, in states that `R` relates; neither is refused. -/
inductive OutcomesAgree (R : State → State → Prop) :
    Host.Outcome State Fault Refusal → Host.Outcome State Fault Refusal → Prop where
  | next {t t' : State} (h : R t t') : OutcomesAgree R (.next t) (.next t')
  | fault (r : Fault) : OutcomesAgree R (.fault r) (.fault r)

section
variable {R : State → State → Prop} {a a' b b' : Host.Outcome State Fault Refusal}

/-- A check that reads only what the two states share takes the same branch in both. -/
theorem OutcomesAgree.ite {p p' : Prop} [Decidable p] [Decidable p'] (hp : p ↔ p') (ha : OutcomesAgree R a a')
    (hb : OutcomesAgree R b b') : OutcomesAgree R (if p then a else b) (if p' then a' else b') := by
  by_cases h : p
  · rw [if_pos h, if_pos (hp.1 h)]; exact ha
  · rw [if_neg h, if_neg (mt hp.2 h)]; exact hb

theorem OutcomesAgree.fault_iff (h : OutcomesAgree R a a') (r : Fault) : a = .fault r ↔ a' = .fault r := by
  cases h with
  | next => exact iff_of_false nofun nofun
  | fault => rfl

theorem OutcomesAgree.of_next {t t' : State} (h : OutcomesAgree R (.next t) (.next t')) : R t t' := by
  cases h with
  | next h => exact h

end

/-! ## The results of a command -/

/-- Two completion states of command `i` with the same status and, where the command writes them, the same results; `n` is the
number of bytes of the bitmap (10_state.md R26 to R31, R37). -/
structure SameResults (i : Instr) (n : Nat) (t t' : State) : Prop where
  status : t.status = t'.status
  estimate : t.status.ecode = .success → i ≠ .nop → i ≠ .dec → t.rdiv = t'.rdiv
  payload : t.status.ecode = .success → i = .enc ∨ i = .cmpr ∨ i = .cmprO →
    t.strlen = t'.strlen ∧ t.totbits = t'.totbits ∧ AgreeTo t.strlen.toNat t.strmem t'.strmem
  bitmap : t.status.ecode = .success ∨ t.status.ecode = .trunc ∨ t.status.ecode = .range → i = .dec →
    t.count = t'.count ∧ t.pos = t'.pos ∧ AgreeTo n t.bitmem t'.bitmem

/-- A code under which no command writes a result. -/
abbrev WritesNothing (e : ECode) : Prop := e ≠ .success ∧ e ≠ .trunc ∧ e ≠ .range

section
variable {i : Instr} {n : Nat} {s s' : State}

theorem raise_agrees {e : ECode} (he : WritesNothing e) : OutcomesAgree (SameResults i n) (raise e s) (raise e s') := by
  obtain ⟨hs, ht, hr⟩ := he
  exact .next
    { status := rfl
      estimate := fun h => absurd h hs
      payload := fun h => absurd h hs
      bitmap := fun h => absurd h (by simp [statusCompleted, hs, ht, hr]) }

/-- A completion of `EST` or `EST.O`, whose one result is `RDIV`. -/
theorem complete_estimate_agrees (hi : i = .est ∨ i = .estO) (nd : Bool) (hr : s.rdiv = s'.rdiv) :
    OutcomesAgree (SameResults i n) (.next (complete .success nd s)) (.next (complete .success nd s')) :=
  .next
    { status := rfl
      estimate := fun _ _ _ => hr
      payload := fun _ h => by rcases hi with rfl | rfl <;> simp at h
      bitmap := fun _ h => by rcases hi with rfl | rfl <;> cases h }

/-- A completion of an encoder command. -/
theorem complete_payload_agrees (hi : i ≠ .dec) (nd : Bool) (hr : s.rdiv = s'.rdiv) (hl : s.strlen = s'.strlen)
    (ht : s.totbits = s'.totbits) (hm : AgreeTo s.strlen.toNat s.strmem s'.strmem) :
    OutcomesAgree (SameResults i n) (.next (complete .success nd s)) (.next (complete .success nd s')) :=
  .next
    { status := rfl
      estimate := fun _ _ _ => hr
      payload := fun _ _ => ⟨hl, ht, hm⟩
      bitmap := fun _ h => absurd h hi }

/-- A completion of `DEC`, with whatever code. -/
theorem complete_bitmap_agrees (e : ECode) (nd : Bool) (hc : s.count = s'.count) (hp : s.pos = s'.pos)
    (hm : AgreeTo n s.bitmem s'.bitmem) :
    OutcomesAgree (SameResults .dec n) (.next (complete e nd s)) (.next (complete e nd s')) :=
  .next
    { status := rfl
      estimate := fun _ _ h => absurd rfl h
      payload := fun _ h => by simp at h
      bitmap := fun _ _ => ⟨hc, hp, hm⟩ }

/-! ## The pre-checks -/

theorem divTooLarge_congr (hd : s.div = s'.div) : divTooLarge s ↔ divTooLarge s' := by rw [divTooLarge, divTooLarge, hd]

theorem gapsTooLong_congr (hp : s.params = s'.params) (hn : s.ngaps = s'.ngaps) : gapsTooLong s ↔ gapsTooLong s' := by
  rw [gapsTooLong, gapsTooLong, hp, hn]

theorem bitmapBytes_congr (hb : s.bitlen = s'.bitlen) : bitmapBytes s = bitmapBytes s' := by rw [bitmapBytes, bitmapBytes, hb]

theorem decodeTooLong_congr (hp : s.params = s'.params) (hl : s.strlen = s'.strlen) (hb : s.bitlen = s'.bitlen) :
    decodeTooLong s ↔ decodeTooLong s' := by
  rw [decodeTooLong, decodeTooLong, hp, hl, bitmapBytes_congr hb]

/-! ## The commands on gaps -/

theorem execEst_agrees (hp : s.params = s'.params) (hn : s.ngaps = s'.ngaps) (hg : AgreeTo s.ngaps.toNat s.gapmem s'.gapmem) :
    OutcomesAgree (SameResults .est n) (execEst s) (execEst s') := by
  unfold execEst
  rw [← gapOperand_congr hn hg]
  refine .ite (gapsTooLong_congr hp hn) (raise_agrees (by decide))
    (.ite (by rw [hn]) (complete_estimate_agrees (.inl rfl) true rfl) ?_)
  cases gapOperand s with
  | none => exact .fault _
  | some gs => exact .ite Iff.rfl (raise_agrees (by decide)) (complete_estimate_agrees (.inl rfl) false (by rw [hn]))

theorem execEstO_agrees (hd : s.div = s'.div) : OutcomesAgree (SameResults .estO n) (execEstO s) (execEstO s') := by
  unfold execEstO
  exact .ite (divTooLarge_congr hd) (raise_agrees (by decide)) (complete_estimate_agrees (.inr rfl) false hd)

theorem emptyResult_agrees (hi : i ≠ .dec) : OutcomesAgree (SameResults i n) (emptyResult s) (emptyResult s') :=
  complete_payload_agrees hi true rfl rfl rfl fun _ hk => absurd hk (Nat.not_lt_zero _)

/-- The payload length that `EncodeCore` writes is at most the number of bytes it fills. -/
theorem encodeResult_strlen_le (d : Nat) (gs : List Nat) (s : State) :
    (encodeResult d gs s).strlen.toNat ≤ ceilDiv8 (totalBits gs d) := by
  rw [encodeResult_strlen, BitVec.toNat_ofNat]
  exact Nat.mod_le _ _

theorem encodeCore_agrees (hi : i ≠ .dec) (hp : s.params = s'.params) (d : Nat) (gs : List Nat) :
    OutcomesAgree (SameResults i n) (encodeCore d gs s) (encodeCore d gs s') := by
  unfold encodeCore
  exact .ite (by rw [hp]) (raise_agrees (by decide)) (complete_payload_agrees hi false rfl rfl rfl
    fun k hk => emitStream_agreeTo s.strmem s'.strmem d gs k (hk.trans_le (encodeResult_strlen_le d gs s)))

theorem encodeWithDiv_agrees (hi : i ≠ .dec) (hp : s.params = s'.params) (hd : s.div = s'.div) (hn : s.ngaps = s'.ngaps)
    (hg : AgreeTo s.ngaps.toNat s.gapmem s'.gapmem) :
    OutcomesAgree (SameResults i n) (encodeWithDiv s) (encodeWithDiv s') := by
  unfold encodeWithDiv
  refine .ite (divTooLarge_congr hd) (raise_agrees (by decide)) (.ite (gapsTooLong_congr hp hn) (raise_agrees (by decide))
    (.ite (by rw [hn]) (emptyResult_agrees hi) ?_))
  rw [← gapOperand_congr hn hg, ← hd]
  cases gapOperand s with
  | none => exact .fault _
  | some gs => exact encodeCore_agrees hi hp _ gs

theorem execCmpr_agrees (hp : s.params = s'.params) (hn : s.ngaps = s'.ngaps) (hg : AgreeTo s.ngaps.toNat s.gapmem s'.gapmem) :
    OutcomesAgree (SameResults .cmpr n) (execCmpr s) (execCmpr s') := by
  unfold execCmpr
  refine .ite (gapsTooLong_congr hp hn) (raise_agrees (by decide)) (.ite (by rw [hn]) (emptyResult_agrees (by decide)) ?_)
  rw [← gapOperand_congr hn hg, ← hn]
  cases gapOperand s with
  | none => exact .fault _
  | some gs => exact .ite Iff.rfl (raise_agrees (by decide)) (encodeCore_agrees (by decide) hp _ gs)

end

/-! ## The decoder -/

/-- Two runs of the decode loop with the same counters, over bitmaps that agree on their first `n` bytes. -/
structure RunsAgree (n : Nat) (run run' : DecodeRun) : Prop where
  idx : run.idx = run'.idx
  prefixSum : run.prefixSum = run'.prefixSum
  cnt : run.cnt = run'.cnt
  lastpos : run.lastpos = run'.lastpos
  bitmem : AgreeTo n run.bitmem run'.bitmem

/-- The loop writes to the bitmap but never reads it back: over another bitmap it stops at the same bit, with the same code. -/
theorem decodeLoop_agrees (m : Memory Byte) (d L N : Nat) {n : Nat} (fuel : Nat) {run run' : DecodeRun} (h : RunsAgree n run run') :
    Option.Rel (fun p p' => RunsAgree n p.1 p'.1 ∧ p.2 = p'.2) (decodeLoop m d L N fuel run) (decodeLoop m d L N fuel run') := by
  induction fuel generalizing run run' with
  | zero => exact .some ⟨h, rfl⟩
  | succ fuel ih =>
    obtain ⟨hi, hs, hc, hl, hb⟩ := h
    unfold decodeLoop
    rw [← hi, ← hs, ← hc]
    cases scanPrefix m L L run.idx 0 with
    | none => exact .none
    | some p =>
      obtain ⟨idx, q⟩ := p
      dsimp only
      by_cases h1 : idx = L
      · rw [if_pos h1, if_pos h1]
        exact .some ⟨⟨rfl, rfl, rfl, hl, hb⟩, rfl⟩
      by_cases h2 : L < idx + 1 + d
      · rw [if_neg h1, if_neg h1, if_pos h2, if_pos h2]
        exact .some ⟨⟨rfl, rfl, rfl, hl, hb⟩, rfl⟩
      rw [if_neg h1, if_neg h1, if_neg h2, if_neg h2]
      cases readRemainder m (idx + 1) d with
      | none => exact .none
      | some r =>
        dsimp only
        by_cases h3 : N ≤ run.prefixSum + (q * 2 ^ d + r)
        · rw [if_pos h3, if_pos h3]
          exact .some ⟨⟨rfl, rfl, rfl, hl, hb⟩, rfl⟩
        · rw [if_neg h3, if_neg h3]
          exact ih ⟨rfl, rfl, rfl, rfl, setBit_agreeTo hb _⟩

section
variable {s s' : State}

/-- The loop starts from an all-zero bitmap range, whatever the bitmap held. -/
theorem decodeStart_agrees (hb : s.bitlen = s'.bitlen) : RunsAgree (bitmapBytes s) (decodeStart s) (decodeStart s') where
  idx := rfl
  prefixSum := rfl
  cnt := rfl
  lastpos := rfl
  bitmem := fun k hk => by rw [read_decodeStart, read_decodeStart, ← bitmapBytes_congr hb, if_pos hk, if_pos hk]

theorem complete_decodeResult_agrees {n : Nat} {run run' : DecodeRun} (h : RunsAgree n run run') (e : ECode) (nd : Bool) :
    OutcomesAgree (SameResults .dec n) (.next (complete e nd (decodeResult run s)))
      (.next (complete e nd (decodeResult run' s'))) :=
  complete_bitmap_agrees e nd (by simp only [decodeResult_count, h.cnt]) (by simp only [decodeResult_pos, h.lastpos]) h.bitmem

theorem execDec_agrees (hp : s.params = s'.params) (hd : s.div = s'.div) (hl : s.strlen = s'.strlen) (hb : s.bitlen = s'.bitlen)
    (hm : AgreeTo s.strlen.toNat s.strmem s'.strmem) :
    OutcomesAgree (SameResults .dec (bitmapBytes s)) (execDec s) (execDec s') := by
  unfold execDec
  have start := decodeStart_agrees hb
  refine .ite (divTooLarge_congr hd) (raise_agrees (by decide)) (.ite (decodeTooLong_congr hp hl hb) (raise_agrees (by decide))
    (.ite (by rw [hl]) (complete_decodeResult_agrees start .success true) ?_))
  have loop := decodeLoop_agrees s.strmem s.div.toNat (8 * s.strlen.toNat) s.bitlen.toNat (8 * s.strlen.toNat + 1) start
  rw [decodeLoop_congr (getBit_congr hm) _ _ _ (decodeStart s')] at loop
  dsimp only
  rw [← hd, ← hl, ← hb]
  generalize decodeLoop _ _ _ _ _ (decodeStart s) = out, decodeLoop _ _ _ _ _ (decodeStart s') = out' at loop ⊢
  cases loop with
  | none => exact .fault _
  | some h =>
    obtain ⟨runs, codes⟩ := h
    dsimp only
    rw [← codes]
    exact complete_decodeResult_agrees runs _ false

end

/-- Settles O40: command by command, the checks take the same branch in both states, and the results are written from the
operands alone. -/
theorem commandsDependOnlyOnTheirOperands : Obligations.CommandsDependOnlyOnTheirOperands := by
  unfold Obligations.CommandsDependOnlyOnTheirOperands
  intro i s s' hp hdiv hgaps hdec
  have agree : OutcomesAgree (SameResults i (bitmapBytes s)) (exec i s) (exec i s') := by
    cases i with
    | nop => exact .next ⟨rfl, fun _ h => absurd rfl h, fun _ h => by simp at h, fun _ h => nomatch h⟩
    | est =>
      obtain ⟨hn, hg⟩ := hgaps (by decide)
      exact execEst_agrees hp hn hg
    | estO => exact execEstO_agrees (hdiv (by decide))
    | enc =>
      obtain ⟨hn, hg⟩ := hgaps (by decide)
      exact encodeWithDiv_agrees (by decide) hp (hdiv (by decide)) hn hg
    | cmpr =>
      obtain ⟨hn, hg⟩ := hgaps (by decide)
      exact execCmpr_agrees hp hn hg
    | cmprO =>
      obtain ⟨hn, hg⟩ := hgaps (by decide)
      exact encodeWithDiv_agrees (by decide) hp (hdiv (by decide)) hn hg
    | dec =>
      obtain ⟨hl, hb, hm⟩ := hdec rfl
      exact execDec_agrees hp (hdiv (by decide)) hl hb hm
  refine ⟨agree.fault_iff, fun t t' ht ht' => ?_⟩
  rw [ht, ht'] at agree
  obtain ⟨status, estimate, payload, bitmap⟩ := agree.of_next
  exact ⟨status, estimate, payload, bitmap⟩

/-! ## Running a command word -/

/-- `WR CMD` while idle with a legal word: the command runs from the state its start leaves (10_state.md R36). -/
theorem runCommand_of_decode {c : Nat} {s : State} {i : Instr} (hb : s.status.busy = false)
    (hd : decode (BitVec.ofNat 32 c) = .ok i) : runCommand c s = exec i (startCommand c s) := by
  unfold runCommand
  rw [if_neg (by simp [hb]), hd]

/-- `WR CMD` while idle with an illegal word (60_exceptions.md R192). -/
theorem runCommand_of_decode_error {c : Nat} {s : State} {err : DecodeError} (hb : s.status.busy = false)
    (hd : decode (BitVec.ofNat 32 c) = .error err) : runCommand c s = raise .cmd (startCommand c s) := by
  unfold runCommand
  rw [if_neg (by simp [hb]), hd]

theorem step_of_command {s : State} {c : Nat} {rest : List Event} {i : Instr} (hw : s.params.WF)
    (hi : s.inputs = .command c :: rest) (hb : s.status.busy = false) (hd : decode (BitVec.ofNat 32 c) = .ok i) :
    step s = exec i (startCommand c { s with inputs := rest }) :=
  (step_of_input hw hi rfl).trans (runCommand_of_decode hb hd)

theorem decode_of_decodeTableWord {nbits w : Nat} {i : Instr} (h : decodeTableWord nbits w = some i) :
    decode (tableWord nbits w) = .ok i := by
  unfold decodeTableWord at h
  cases hd : decode (tableWord nbits w) with
  | error err => simp [hd] at h
  | ok j => simpa [hd] using h

/-- Settles O4: the item is an accepted one, and the block is idle. -/
theorem stepRunsDecodedCommand : Obligations.StepRunsDecodedCommand := by
  unfold Obligations.StepRunsDecodedCommand
  refine ⟨fun s c rest i hw hi hb hd => step_of_command hw hi hb hd, fun s nbits w i hw hd => ?_⟩
  have hword : decode (BitVec.ofNat 32 (tableWord nbits w).toNat) = .ok i := by
    rw [BitVec.ofNat_toNat, BitVec.setWidth_eq]
    exact decode_of_decodeTableWord hd
  exact step_of_command (s := s.withFetchWord nbits w) hw rfl rfl hword

/-- A command start overwrites the hidden registers, the status and the phase (10_state.md R36, R40). -/
theorem startCommand_overwrites (c : Nat) (s : State) (h : Seq) (st : Status) (p : Phase) :
    startCommand c { s with seq := h, status := st, phase := p } = startCommand c s := rfl

/-- Settles O7: legal or not, the word runs from the state its start leaves, and that state is the same. -/
theorem commandsIgnoreHiddenState : Obligations.CommandsIgnoreHiddenState := by
  unfold Obligations.CommandsIgnoreHiddenState
  intro c s h st p hb hst
  cases hd : decode (BitVec.ofNat 32 c) with
  | ok i =>
    rw [runCommand_of_decode hb hd, runCommand_of_decode (s := { s with seq := h, status := st, phase := p }) hst hd,
      startCommand_overwrites]
  | error err =>
    rw [runCommand_of_decode_error hb hd, runCommand_of_decode_error (s := { s with seq := h, status := st, phase := p }) hst hd,
      startCommand_overwrites]

/-! ## What the model refuses -/

/-- A configuration that breaks a constraint of 00_scope.md R7 is refused, whatever comes next. -/
theorem step_refuses_configuration {s : State} (hw : ¬s.params.WF) : step s = .refused .badConfiguration := by
  unfold step blockStep
  exact if_neg hw

theorem not_inside_iff (p : Params) (space : Space) (addr n : Nat) :
    ¬p.Inside space addr n ↔ n = 0 ∨ p.cells space < addr + n := by
  unfold Params.Inside
  omega

/-- A host access to a buffer whose cells do not lie inside the space is refused as `hostBounds` (20_memory.md R56, R57). -/
theorem step_refuses_bounds {s : State} {ev : Event} {rest : List Event} (hw : s.params.WF) (hi : s.inputs = ev :: rest)
    {space : Space} {addr n : Nat} (hf : ev.wellFormed s.params = decide (s.params.Inside space addr n))
    (hr : accessRefusal ev = .hostBounds) (hout : n = 0 ∨ s.params.cells space < addr + n) :
    step s = .refused .hostBounds := by
  rw [← hr]
  exact step_refuses_access hw hi (by rw [hf, decide_eq_true_iff, not_inside_iff]; exact hout)

/-- Settles O45: each access fails its form check, which comes before any look at `BUSY`. -/
theorem refusedAccesses : Obligations.RefusedAccesses := by
  unfold Obligations.RefusedAccesses
  refine ⟨fun s hw => step_refuses_configuration hw, ?_, ?_, ?_, ?_, ?_⟩
  · intro s r v rest hw hr hi
    have hnum : ¬decide (RegNumber r) = true := by simp only [decide_eq_true_iff]; omega
    rcases hi with hi | hi
    · exact step_refuses_access hw hi hnum
    · exact step_refuses_access hw hi hnum
  · intro s space addr n rest hw hi hout
    exact step_refuses_bounds hw hi rfl rfl hout
  · intro s addr v rest hw hi hout
    exact step_refuses_bounds (space := .gapmem) hw hi rfl rfl (hout.imp_left List.length_eq_zero_iff.2)
  · intro s addr v rest hw hi hout
    exact step_refuses_bounds (space := .strmem) hw hi rfl rfl (hout.imp_left List.length_eq_zero_iff.2)
  · intro s addr v rest hw hi hout
    exact step_refuses_bounds (space := .bitmem) hw hi rfl rfl (hout.imp_left List.length_eq_zero_iff.2)

end Sys2Proof.Machine
end

section
/-! PROOFS, family 10_state.md: the invariant holds at reset and every step keeps it (R33, R38, R39). -/

namespace Sys2Proof.Machine

variable {s t : State}

/-! ## The invariant of the data -/

/-- The part of `Inv` that speaks neither of `STATUS` nor of the phase. -/
structure DataLegal (s : State) : Prop where
  params : s.params.WF
  gapmem : BufferLegal s.gapmem s.params.gapDepth
  strmem : BufferLegal s.strmem s.params.strBytes
  bitmem : BufferLegal s.bitmem s.params.bmBytes
  rdivLegal : s.rdiv.toNat ≤ Config.divMax
  divInEffect : s.seq.d ≤ Config.divMax
  estimate : s.seq.result ≤ Config.divMax

theorem Inv.data (h : Inv s) : DataLegal s := { h with }

theorem Inv.idle_of_not_busy (h : Inv s) (hb : s.status.busy = false) : s.phase = .idle := by
  by_contra hp
  simp [h.busyPhase.2 hp] at hb

theorem DataLegal.inv_of_idle (h : DataLegal s) (hs : StatusLegal s.status) (hb : s.status.busy = false)
    (hp : s.phase = .idle) : Inv s :=
  { h with
    status := hs
    busyPhase := by simp [hb, hp]
    phase := by simp only [PhaseLegal, hp] }

theorem statusCompleted_legal (e : ECode) (nd : Bool) : StatusLegal (statusCompleted e nd) := by
  constructor <;> simp [statusCompleted]

/-- A completion keeps the invariant, whatever code it writes. -/
theorem DataLegal.inv_complete (h : DataLegal s) (e : ECode) (nd : Bool) : Inv (complete e nd s) :=
  DataLegal.inv_of_idle { h with } (statusCompleted_legal e nd) rfl rfl

theorem empty_legal {α : Type} (epoch n : Nat) : BufferLegal (⟨[], epoch⟩ : Memory α) n := ⟨.nil, nofun⟩

/-- Settles O49: nothing is listed in a buffer, and every register is 0. -/
theorem invariantAtReset : Obligations.InvariantAtReset := by
  unfold Obligations.InvariantAtReset
  exact DataLegal.inv_of_idle
    ⟨by decide, empty_legal _ _, empty_legal _ _, empty_legal _ _, by decide, by decide, by decide⟩
    (by constructor <;> decide) rfl rfl

/-! ## The micro-steps -/

/-- A state inside a command whose status is `st`, with the bounds of its phase. -/
structure MidCommand (st : Status) (t : State) : Prop where
  data : DataLegal t
  status : t.status = st
  running : t.phase ≠ .idle
  phase : PhaseLegal t

theorem MidCommand.inv (h : MidCommand s.status t) (hs : Inv s) (hp : s.phase ≠ .idle) : Inv t :=
  { h.data with
    status := h.status ▸ hs.status
    busyPhase := by simp [h.status, hs.busyPhase, hp, h.running]
    phase := h.phase }

theorem DataLegal.toPhase (h : DataLegal s) {p : Phase} {q : Seq} (hp : p ≠ .idle) (hd : q.d ≤ Config.divMax)
    (hr : q.result ≤ Config.divMax) (hl : PhaseLegal { s with phase := p, seq := q }) :
    MidCommand s.status { s with phase := p, seq := q } :=
  ⟨{ h with divInEffect := hd, estimate := hr }, rfl, hp, hl⟩

/-- `FINISH` asks for nothing: it is reached from anywhere, with a code or with a result. -/
theorem DataLegal.toFinish (h : DataLegal s) {q : Seq} (hd : q.d ≤ Config.divMax) (hr : q.result ≤ Config.divMax) :
    MidCommand s.status { s with phase := .finish, seq := q } :=
  h.toPhase (by decide) hd hr trivial

/-- `CHECK` of `EST` and of `CMPR`. -/
theorem DataLegal.estSum_start (h : DataLegal s) (hn : ¬gapsTooLong s) (h0 : s.ngaps.toNat ≠ 0) :
    MidCommand s.status { s with phase := .estSum, seq := { s.seq with i := 0, sum := 0 } } :=
  h.toPhase (by decide) h.divInEffect h.estimate ⟨Nat.pos_of_ne_zero h0, Nat.not_lt.1 hn⟩

theorem seqCheckEst_mid (h : DataLegal s) : MidCommand s.status (seqCheckEst s) := by
  unfold seqCheckEst
  split_ifs with hn h0
  · exact h.toFinish h.divInEffect h.estimate
  · exact h.toFinish h.divInEffect h.estimate
  · exact h.estSum_start hn h0

theorem seqCheckCmpr_mid (h : DataLegal s) : MidCommand s.status (seqCheckCmpr s) := seqCheckEst_mid h

theorem seqCheckEstO_mid (h : DataLegal s) : MidCommand s.status (seqCheckEstO s) := by
  unfold seqCheckEstO
  split_ifs with hd
  · exact h.toFinish h.divInEffect h.estimate
  · exact h.toFinish h.divInEffect (Nat.not_lt.1 hd)

theorem seqCheckEnc_mid (h : DataLegal s) : MidCommand s.status (seqCheckEnc s) := by
  unfold seqCheckEnc
  split_ifs with hd hn h0
  · exact h.toFinish h.divInEffect h.estimate
  · exact h.toFinish h.divInEffect h.estimate
  · exact h.toFinish h.divInEffect h.estimate
  · exact h.toPhase (by decide) (Nat.not_lt.1 hd) h.estimate
      ⟨Nat.pos_of_ne_zero h0, Nat.not_lt.1 hn, streamBits_none _ _⟩

/-- The bitmap range is zeroed: to `DEC_SCAN`, or to `FINISH` when there is no payload. -/
theorem seqAfterDecZero_mid (h : DataLegal s) (hi : s.seq.idx = 0) (hl : s.strlen.toNat ≤ s.params.strBytes)
    (hb : bitmapBytes s ≤ s.params.bmBytes) (hk : s.bitmem.knownTo (bitmapBytes s)) :
    MidCommand s.status (seqAfterDecZero s) := by
  unfold seqAfterDecZero
  split_ifs with h0
  · exact h.toFinish h.divInEffect h.estimate
  · exact h.toPhase (by decide) h.divInEffect h.estimate ⟨hi.trans_le (Nat.zero_le _), hl, hb, hk⟩

theorem seqCheckDec_mid (h : DataLegal s) (hi : s.seq.idx = 0) : MidCommand s.status (seqCheckDec s) := by
  unfold seqCheckDec
  split_ifs with hd hn hb
  · exact h.toFinish h.divInEffect h.estimate
  · exact h.toFinish h.divInEffect h.estimate
  · obtain ⟨hl, hm⟩ := not_or.1 hn
    exact h.toPhase (by decide) (Nat.not_lt.1 hd) h.estimate ⟨hb, Nat.not_lt.1 hm, Nat.not_lt.1 hl, hi, nofun⟩
  · obtain ⟨hl, hm⟩ := not_or.1 hn
    have h1 : DataLegal { s with seq := { s.seq with d := s.div.toNat, i := 0 } } :=
      { h with divInEffect := Nat.not_lt.1 hd }
    exact seqAfterDecZero_mid h1 hi (Nat.not_lt.1 hl) (Nat.not_lt.1 hm) fun k hk => absurd (Nat.zero_le k |>.trans_lt hk) hb

theorem seqCheck_mid (h : Inv s) (hp : s.phase = .check) : MidCommand s.status (seqCheck s) := by
  have hz : s.seq = { Seq.zero with op := s.seq.op, ovr := s.seq.ovr, rsv := s.seq.rsv } := by
    simpa only [PhaseLegal, hp] using h.phase
  unfold seqCheck
  cases seqCommand s with
  | error err => exact h.data.toFinish h.divInEffect h.estimate
  | ok i =>
    cases i with
    | nop => exact h.data.toFinish h.divInEffect h.estimate
    | est => exact seqCheckEst_mid h.data
    | estO => exact seqCheckEstO_mid h.data
    | enc => exact seqCheckEnc_mid h.data
    | cmpr => exact seqCheckCmpr_mid h.data
    | cmprO => exact seqCheckEnc_mid h.data
    | dec => exact seqCheckDec_mid h.data (by rw [hz]; rfl)

theorem seqEstSum_mid (h : Inv s) (hp : s.phase = .estSum) (ht : seqEstSum s = .next t) : MidCommand s.status t := by
  obtain ⟨hi, hn⟩ : s.seq.i < s.ngaps.toNat ∧ s.ngaps.toNat ≤ s.params.gapDepth := by
    simpa only [PhaseLegal, hp] using h.phase
  unfold seqEstSum at ht
  cases hg : s.gapmem.read s.seq.i with
  | none => simp [hg] at ht
  | some g =>
    simp only [hg] at ht
    split_ifs at ht with hlast hovf
    · cases ht
      exact h.data.toFinish h.divInEffect h.estimate
    · cases ht
      exact h.data.toPhase (by decide) h.divInEffect h.estimate ⟨Nat.zero_lt_of_lt hi, hn, Nat.not_le.1 hovf⟩
    · cases ht
      exact h.data.toPhase (p := s.phase) (by simp [hp]) h.divInEffect h.estimate
        (by simp only [PhaseLegal, hp]; omega)

theorem seqEstLog_mid (h : Inv s) (hp : s.phase = .estLog) : MidCommand s.status (seqEstLog s) := by
  obtain ⟨h0, hn, hs⟩ : 0 < s.ngaps.toNat ∧ s.ngaps.toNat ≤ s.params.gapDepth ∧ s.seq.sum < 2 ^ Config.W := by
    simpa only [PhaseLegal, hp] using h.phase
  have hest : estDiv s.seq.sum s.ngaps.toNat ≤ Config.divMax := estDiv_le_divMax h0 hs
  unfold seqEstLog
  dsimp only
  split
  · exact h.data.toPhase (by decide) hest h.estimate ⟨h0, hn, streamBits_none _ _⟩
  · exact h.data.toFinish h.divInEffect hest

theorem ceilDiv8_pos {n : Nat} (h : 0 < n) : 0 < ceilDiv8 n := by unfold ceilDiv8; omega

theorem codewordLength_pos (g d : Nat) : 0 < codewordLength g d := by
  unfold codewordLength
  exact Nat.add_pos_left (Nat.succ_pos _) d

theorem seqEncSize_mid (h : Inv s) (hp : s.phase = .encSize) (ht : seqEncSize s = .next t) : MidCommand s.status t := by
  obtain ⟨hi, hn, hb⟩ : s.seq.i < s.ngaps.toNat ∧ s.ngaps.toNat ≤ s.params.gapDepth ∧ StreamBits s 0 s.seq.i s.seq.tot := by
    simpa only [PhaseLegal, hp] using h.phase
  unfold seqEncSize at ht
  cases hg : s.gapmem.read s.seq.i with
  | none => simp [hg] at ht
  | some g =>
    simp only [hg] at ht
    have hsum := streamBits_snoc hb hg
    split_ifs at ht with hlast hcap
    · cases ht
      exact h.data.toFinish h.divInEffect h.estimate
    · cases ht
      refine h.data.toPhase (by decide) h.divInEffect h.estimate
        ⟨Nat.zero_lt_of_lt hi, hn, ceilDiv8_pos (Nat.add_pos_right _ (codewordLength_pos _ _)), Nat.not_lt.1 hcap, ?_, nofun⟩
      rwa [hlast] at hsum
    · cases ht
      exact h.data.toPhase (p := s.phase) (by simp [hp]) h.divInEffect h.estimate
        (by simp only [PhaseLegal, hp]; exact ⟨by omega, hn, hsum⟩)

/-- Zeroing the next cell lengthens the known part of a buffer by one (20_memory.md R66). -/
theorem knownTo_write {α : Type} {m : Memory α} {n : Nat} (h : m.knownTo n) (v : α) : (m.write n v).knownTo (n + 1) := by
  intro k hk
  rw [read_write]
  split_ifs with he
  · rfl
  · exact h k (by omega)

theorem seqEncZero_mid (h : Inv s) (hp : s.phase = .encZero) : MidCommand s.status (seqEncZero s) := by
  obtain ⟨h0, hn, hi, hc, hb, hk⟩ : 0 < s.ngaps.toNat ∧ s.ngaps.toNat ≤ s.params.gapDepth ∧
      s.seq.i < ceilDiv8 s.seq.tot ∧ ceilDiv8 s.seq.tot ≤ s.params.strBytes ∧
      StreamBits s 0 s.ngaps.toNat s.seq.tot ∧ s.strmem.knownTo s.seq.i := by
    simpa only [PhaseLegal, hp] using h.phase
  have hd : DataLegal { s with strmem := s.strmem.write s.seq.i 0 } :=
    { h.data with strmem := write_legal h.strmem (by omega) 0 }
  have hk' := knownTo_write hk 0
  unfold seqEncZero
  dsimp only
  split_ifs with hlast
  · exact hd.toPhase (by decide) h.divInEffect h.estimate ⟨h0, hn, hc, Nat.zero_le _, hb, hlast ▸ hk'⟩
  · exact hd.toPhase (p := s.phase) (by simp [hp]) h.divInEffect h.estimate
      (by simp only [PhaseLegal, hp]; exact ⟨h0, hn, by omega, hc, hb, hk'⟩)

theorem seqEncEmit_mid (h : Inv s) (hp : s.phase = .encEmit) (ht : seqEncEmit s = .next t) : MidCommand s.status t := by
  obtain ⟨hi, hn, hc, hx, hb, hk⟩ : s.seq.i < s.ngaps.toNat ∧ s.ngaps.toNat ≤ s.params.gapDepth ∧
      ceilDiv8 s.seq.tot ≤ s.params.strBytes ∧ s.seq.idx ≤ s.seq.tot ∧
      StreamBits s s.seq.i (s.ngaps.toNat - s.seq.i) (s.seq.tot - s.seq.idx) ∧ s.strmem.knownTo (ceilDiv8 s.seq.tot) := by
    simpa only [PhaseLegal, hp] using h.phase
  obtain ⟨g, hg, hle, hrest⟩ :=
    streamBits_head (n := s.ngaps.toNat - (s.seq.i + 1)) (by rwa [← Nat.sub_sub, Nat.sub_add_cancel (by omega)])
  have hd : DataLegal { s with strmem := (emitGap s.seq.d (s.strmem, s.seq.idx) g.toNat).1 } :=
    { h.data with strmem := emitGap_legal h.strmem _ }
  unfold seqEncEmit at ht
  simp only [hg] at ht
  split_ifs at ht with hlast
  · cases ht
    exact hd.toFinish h.divInEffect h.estimate
  · cases ht
    refine hd.toPhase (p := s.phase) (by simp [hp]) h.divInEffect h.estimate ?_
    simp only [PhaseLegal, hp, emitGap_cursor]
    refine ⟨by omega, hn, hc, by omega, ?_, fun k hk' => by rw [emitGap_isSome]; exact hk k hk'⟩
    rwa [Nat.sub_sub] at hrest

theorem seqDecZero_mid (h : Inv s) (hp : s.phase = .decZero) : MidCommand s.status (seqDecZero s) := by
  obtain ⟨hi, hb, hl, hx, hk⟩ : s.seq.i < bitmapBytes s ∧ bitmapBytes s ≤ s.params.bmBytes ∧
      s.strlen.toNat ≤ s.params.strBytes ∧ s.seq.idx = 0 ∧ s.bitmem.knownTo s.seq.i := by
    simpa only [PhaseLegal, hp] using h.phase
  have hd : DataLegal { s with bitmem := s.bitmem.write s.seq.i 0, seq := { s.seq with i := s.seq.i + 1 } } :=
    { h.data with bitmem := write_legal h.bitmem (by omega) 0 }
  have hk' := knownTo_write hk 0
  unfold seqDecZero
  dsimp only
  split_ifs with hlast
  · exact seqAfterDecZero_mid hd hx hl hb (by rw [hlast] at hk'; exact hk')
  · exact hd.toPhase (p := s.phase) (by simp [hp]) h.divInEffect h.estimate
      (by simp only [PhaseLegal, hp]; exact ⟨by simp only [bitmapBytes] at *; omega, hb, hl, hx, hk'⟩)

theorem seqDecScan_mid (h : Inv s) (hp : s.phase = .decScan) (ht : seqDecScan s = .next t) : MidCommand s.status t := by
  obtain ⟨hx, hl, hb, hk⟩ : s.seq.idx ≤ 8 * s.strlen.toNat ∧ s.strlen.toNat ≤ s.params.strBytes ∧
      bitmapBytes s ≤ s.params.bmBytes ∧ s.bitmem.knownTo (bitmapBytes s) := by
    simpa only [PhaseLegal, hp] using h.phase
  unfold seqDecScan at ht
  by_cases hend : s.seq.idx = 8 * s.strlen.toNat
  · rw [if_pos hend] at ht
    cases ht
    exact h.data.toFinish h.divInEffect h.estimate
  rw [if_neg hend] at ht
  cases hg : getBit s.strmem s.seq.idx with
  | none => simp [hg] at ht
  | some b =>
    simp only [hg] at ht
    split_ifs at ht with hzero hshort
    · cases ht
      exact h.data.toPhase (p := s.phase) (by simp [hp]) h.divInEffect h.estimate
        (by simp only [PhaseLegal, hp]; exact ⟨by omega, hl, hb, hk⟩)
    · cases ht
      exact h.data.toFinish h.divInEffect h.estimate
    · cases ht
      exact h.data.toPhase (by decide) h.divInEffect h.estimate ⟨Nat.zero_le _, Nat.not_lt.1 hshort, hl, hb, hk⟩

theorem seqDecRem_mid (h : Inv s) (hp : s.phase = .decRem) (ht : seqDecRem s = .next t) : MidCommand s.status t := by
  obtain ⟨hj, hx, hl, hb, hk⟩ : s.seq.j ≤ s.seq.d ∧ s.seq.idx + (s.seq.d - s.seq.j) ≤ 8 * s.strlen.toNat ∧
      s.strlen.toNat ≤ s.params.strBytes ∧ bitmapBytes s ≤ s.params.bmBytes ∧ s.bitmem.knownTo (bitmapBytes s) := by
    simpa only [PhaseLegal, hp] using h.phase
  unfold seqDecRem at ht
  by_cases hmore : s.seq.j < s.seq.d
  · rw [if_pos hmore] at ht
    cases hg : getBit s.strmem s.seq.idx with
    | none => simp [hg] at ht
    | some b =>
      simp only [hg] at ht
      cases ht
      exact h.data.toPhase (p := s.phase) (by simp [hp]) h.divInEffect h.estimate
        (by simp only [PhaseLegal, hp]; exact ⟨by omega, by omega, hl, hb, hk⟩)
  · simp only [if_neg hmore] at ht
    split_ifs at ht with hrange
    · cases ht
      exact h.data.toFinish h.divInEffect h.estimate
    · cases ht
      have hd : DataLegal { s with bitmem := setBit s.bitmem (s.seq.prefixSum + (s.seq.q * 2 ^ s.seq.d + s.seq.r)) } :=
        { h.data with bitmem := setBit_legal h.bitmem _ }
      exact hd.toPhase (by decide) h.divInEffect h.estimate
        ⟨by dsimp only; omega, hl, hb, fun k hk' => by rw [setBit_isSome]; exact hk k hk'⟩

/-- A micro-step from any phase but `IDLE` and `FINISH` stays inside the command (R38). -/
theorem seqStep_mid (h : Inv s) (hi : s.phase ≠ .idle) (hf : s.phase ≠ .finish) (ht : seqStep s = .next t) :
    MidCommand s.status t := by
  unfold seqStep at ht
  cases hp : s.phase <;> simp only [hp] at ht
  case idle => exact absurd hp hi
  case check => cases ht; exact seqCheck_mid h hp
  case estSum => exact seqEstSum_mid h hp ht
  case estLog => cases ht; exact seqEstLog_mid h hp
  case encSize => exact seqEncSize_mid h hp ht
  case encZero => cases ht; exact seqEncZero_mid h hp
  case encEmit => exact seqEncEmit_mid h hp ht
  case decZero => cases ht; exact seqDecZero_mid h hp
  case decScan => exact seqDecScan_mid h hp ht
  case decRem => exact seqDecRem_mid h hp ht
  case finish => exact absurd hp hf

/-! ## The completion step -/

theorem toNat_ofNat_le_divMax {x : Nat} (h : x ≤ Config.divMax) : (BitVec.ofNat 8 x).toNat ≤ Config.divMax :=
  (Nat.mod_le _ _).trans h

theorem seqResults_legal (h : DataLegal s) : DataLegal (seqResults s) := by
  unfold seqResults seqResults.seqEncResults seqResults.seqDecResults
  split
  · exact { h with rdivLegal := toNat_ofNat_le_divMax h.estimate }
  · exact { h with rdivLegal := toNat_ofNat_le_divMax h.estimate }
  · exact { h with rdivLegal := toNat_ofNat_le_divMax h.divInEffect }
  · exact { h with rdivLegal := toNat_ofNat_le_divMax h.divInEffect }
  · exact { h with rdivLegal := toNat_ofNat_le_divMax h.divInEffect }
  · exact { h with }
  · exact { h with }
  · exact { h with }
  · exact h

theorem seqStep_idle (hp : s.phase = .idle) : seqStep s = .next s := by simp only [seqStep, hp]

theorem seqStep_finish (hp : s.phase = .finish) : seqStep s = .next (seqFinish s) := by simp only [seqStep, hp]

/-- A micro-step keeps the invariant. -/
theorem seqStep_inv (h : Inv s) (ht : seqStep s = .next t) : Inv t := by
  by_cases hi : s.phase = .idle
  · cases (seqStep_idle hi).symm.trans ht
    exact h
  by_cases hf : s.phase = .finish
  · cases (seqStep_finish hf).symm.trans ht
    exact (seqResults_legal h.data).inv_complete _ _
  exact (seqStep_mid h hi hf ht).inv h hi

/-! ## What a command can answer -/

/-- The codes with which command `i` ends without a result (10_state.md R41). -/
def errorCodes : Instr → List ECode
  | .nop => []
  | .est => [.len, .ovf]
  | .estO => [.div]
  | .enc => [.div, .len, .cap]
  | .cmpr => [.len, .ovf, .cap]
  | .cmprO => [.div, .len, .cap]
  | .dec => [.div, .len]

/-- The commands that write a payload. -/
abbrev WritesPayload (i : Instr) : Prop := i = .enc ∨ i = .cmpr ∨ i = .cmprO

/-- The completion states of a command: the results are in place, then `complete` writes the status (10_state.md R37). -/
inductive Completion (s : State) : Instr → State → Prop where
  | nop : Completion s .nop (complete .success false s)
  | error {i : Instr} {e : ECode} (he : e ∈ errorCodes i) : Completion s i (complete e false s)
  | noEstimate (h0 : s.ngaps.toNat = 0) : Completion s .est (complete .success true { s with rdiv := 0 })
  | estimate {S : Nat} (h0 : s.ngaps.toNat ≠ 0) (hS : S < 2 ^ Config.W) :
      Completion s .est (complete .success false { s with rdiv := BitVec.ofNat 8 (estDiv S s.ngaps.toNat) })
  | override (hd : s.div.toNat ≤ Config.divMax) : Completion s .estO (complete .success false { s with rdiv := s.div })
  | noPayload {i : Instr} (hi : WritesPayload i) (h0 : s.ngaps.toNat = 0) :
      Completion s i (complete .success true { s with rdiv := 0, strlen := 0, totbits := 0 })
  | payload {i : Instr} {d : Nat} {gs : List Nat} (hi : WritesPayload i) (h0 : s.ngaps.toNat ≠ 0) (hd : d ≤ Config.divMax)
      (hc : ceilDiv8 (totalBits gs d) ≤ s.params.strBytes) : Completion s i (complete .success false (encodeResult d gs s))
  | noBitmap (h0 : s.strlen.toNat = 0) (hb : bitmapBytes s ≤ s.params.bmBytes) :
      Completion s .dec (complete .success true (decodeResult (decodeStart s) s))
  | bitmap {run : DecodeRun} {e : ECode} (h0 : s.strlen.toNat ≠ 0) (hb : bitmapBytes s ≤ s.params.bmBytes)
      (hk : LoopKeeps s.bitlen.toNat (decodeStart s) run e) : Completion s .dec (complete e false (decodeResult run s))

theorem encodeCore_completion {i : Instr} {d : Nat} {gs : List Nat} (hi : WritesPayload i) (h0 : s.ngaps.toNat ≠ 0)
    (hd : d ≤ Config.divMax) (ht : encodeCore d gs s = .next t) : Completion s i t := by
  obtain ⟨-, h⟩ | ⟨hc, h⟩ := encodeCore_cases d gs s
  · cases h.symm.trans ht
    exact .error (by rcases hi with rfl | rfl | rfl <;> decide)
  · cases h.symm.trans ht
    exact .payload hi h0 hd hc

theorem emptyResult_completion {i : Instr} (hi : WritesPayload i) (h0 : s.ngaps.toNat = 0)
    (ht : emptyResult s = .next t) : Completion s i t := by
  cases ht
  exact .noPayload hi h0

theorem execEst_completion (ht : execEst s = .next t) : Completion s .est t := by
  obtain ⟨-, h⟩ | ⟨-, h0, h⟩ | ⟨-, -, -, h⟩ | ⟨gs, -, -, -, -, h⟩ | ⟨gs, -, h0, -, hS, h⟩ := execEst_cases s
  all_goals cases h.symm.trans ht
  · exact .error (by decide)
  · exact .noEstimate h0
  · exact .error (by decide)
  · exact .estimate h0 hS

theorem execEstO_completion (ht : execEstO s = .next t) : Completion s .estO t := by
  obtain ⟨-, h⟩ | ⟨hd, h⟩ := execEstO_cases s
  all_goals cases h.symm.trans ht
  · exact .error (by decide)
  · exact .override (Nat.not_lt.1 hd)

theorem encodeWithDiv_completion {i : Instr} (hi : i = .enc ∨ i = .cmprO) (ht : encodeWithDiv s = .next t) :
    Completion s i t := by
  have hw : WritesPayload i := hi.imp_right .inr
  have hcodes : errorCodes i = [.div, .len, .cap] := by rcases hi with rfl | rfl <;> rfl
  obtain ⟨-, h⟩ | ⟨-, -, h⟩ | ⟨-, -, h0, h⟩ | ⟨-, -, -, -, h⟩ | ⟨gs, hd, -, h0, -, h⟩ := encodeWithDiv_cases s
  · cases h.symm.trans ht
    exact .error (by rw [hcodes]; decide)
  · cases h.symm.trans ht
    exact .error (by rw [hcodes]; decide)
  · exact emptyResult_completion hw h0 (h.symm.trans ht)
  · cases h.symm.trans ht
  · exact encodeCore_completion hw h0 (Nat.not_lt.1 hd) (h.symm.trans ht)

theorem execCmpr_completion (ht : execCmpr s = .next t) : Completion s .cmpr t := by
  have hw : WritesPayload .cmpr := .inr (.inl rfl)
  obtain ⟨-, h⟩ | ⟨-, h0, h⟩ | ⟨-, -, -, h⟩ | ⟨gs, -, -, -, -, h⟩ | ⟨gs, -, h0, -, hS, h⟩ := execCmpr_cases s
  · cases h.symm.trans ht
    exact .error (by decide)
  · exact emptyResult_completion hw h0 (h.symm.trans ht)
  · cases h.symm.trans ht
  · cases h.symm.trans ht
    exact .error (by decide)
  · exact encodeCore_completion hw h0 (estDiv_le_divMax (Nat.pos_of_ne_zero h0) hS) (h.symm.trans ht)

theorem execDec_completion (ht : execDec s = .next t) : Completion s .dec t := by
  obtain ⟨-, h⟩ | ⟨-, -, h⟩ | ⟨-, hn, h0, h⟩ | ⟨-, -, -, -, h⟩ | ⟨run, e, -, hn, h0, hrun, h⟩ := execDec_cases s
  all_goals cases h.symm.trans ht
  · exact .error (by decide)
  · exact .error (by decide)
  · exact .noBitmap h0 (Nat.not_lt.1 (not_or.1 hn).2)
  · exact .bitmap h0 (Nat.not_lt.1 (not_or.1 hn).2) (decodeLoop_keeps _ hrun)

/-- Whatever a command answers as a next state is one of its completion states. -/
theorem exec_completion {i : Instr} (ht : exec i s = .next t) : Completion s i t := by
  cases i with
  | nop => cases ht; exact .nop
  | est => exact execEst_completion ht
  | estO => exact execEstO_completion ht
  | enc => exact encodeWithDiv_completion (.inl rfl) ht
  | cmpr => exact execCmpr_completion ht
  | cmprO => exact encodeWithDiv_completion (.inr rfl) ht
  | dec => exact execDec_completion ht

theorem decodeStart_legal (h : DataLegal s) (hb : bitmapBytes s ≤ s.params.bmBytes) :
    BufferLegal (decodeStart s).bitmem s.params.bmBytes :=
  fill_legal h.bitmem (by omega) 0

/-- A command keeps the invariant, and asks only for the data's part of it. -/
theorem Completion.inv {i : Instr} (hc : Completion s i t) (h : DataLegal s) : Inv t := by
  cases hc <;> refine DataLegal.inv_complete ?_ _ _
  case nop => exact h
  case error => exact h
  case noEstimate => exact { h with rdivLegal := Nat.zero_le _ }
  case estimate h0 hS =>
    exact { h with rdivLegal := toNat_ofNat_le_divMax (estDiv_le_divMax (Nat.pos_of_ne_zero h0) hS) }
  case override hd => exact { h with rdivLegal := hd }
  case noPayload => exact { h with rdivLegal := Nat.zero_le _ }
  case payload hd hfit _ =>
    exact { h with rdivLegal := toNat_ofNat_le_divMax hd, strmem := emitStream_legal h.strmem hfit _ _ }
  case noBitmap hb => exact { h with bitmem := decodeStart_legal h hb }
  case bitmap hb hk => exact { h with bitmem := hk.legal _ (decodeStart_legal h hb) }

/-! ## The items of the environment -/

/-- The environment's own fields are outside the invariant. -/
theorem Inv.environment (h : Inv s) (inputs : List Event) (rdata : Option ReadData) (freeCtr : Nat) :
    Inv { s with inputs := inputs, rdata := rdata, freeCtr := freeCtr } := { h with }

theorem regRead_inv (h : Inv s) (i : Nat) : Inv (regRead i s) := by
  unfold regRead
  split
  · exact h.environment _ _ _
  · exact h.environment _ _ _

theorem memRead_inv (h : Inv s) (space : Space) (addr n : Nat) : Inv (memRead space addr n s) := by
  unfold memRead
  cases space <;> split <;> exact h.environment _ _ _

theorem statusStarted_legal : StatusLegal statusStarted := by constructor <;> decide

theorem startCommand_data (h : DataLegal s) (c : Nat) : DataLegal (startCommand c s) :=
  { h with divInEffect := Nat.zero_le _, estimate := Nat.zero_le _ }

theorem startCommand_inv (h : DataLegal s) (c : Nat) : Inv (startCommand c s) :=
  { startCommand_data h c with
    status := statusStarted_legal
    busyPhase := iff_of_true rfl nofun
    phase := rfl }

/-- While idle the registers that hold operands may take any value (10_state.md R35). -/
theorem Inv.operands (h : Inv s) (hb : s.status.busy = false) (div : BitVec 8) (ngaps strlen bitlen : Word) :
    Inv { s with div := div, ngaps := ngaps, strlen := strlen, bitlen := bitlen } :=
  DataLegal.inv_of_idle { h.data with } h.status hb (h.idle_of_not_busy hb)

theorem regWrite_inv (h : Inv s) (i v : Nat) : Inv (regWrite i v s) := by
  unfold regWrite
  by_cases hb : s.status.busy = true
  · rw [if_pos hb]; exact h
  rw [if_neg hb]
  have hb' : s.status.busy = false := by simpa using hb
  split
  · exact startCommand_inv h.data v
  · exact h.operands hb' _ _ _ _
  · exact h.operands hb' _ _ _ _
  · exact h.operands hb' _ _ _ _
  · exact h.operands hb' _ _ _ _
  · exact h

/-- While idle the buffers may take any legal contents (20_memory.md R57). -/
theorem Inv.buffers (h : Inv s) (hb : s.status.busy = false) {g : Memory Word} {m b : Memory Byte}
    (hg : BufferLegal g s.params.gapDepth) (hm : BufferLegal m s.params.strBytes) (hbm : BufferLegal b s.params.bmBytes) :
    Inv { s with gapmem := g, strmem := m, bitmem := b } :=
  DataLegal.inv_of_idle { h.data with gapmem := hg, strmem := hm, bitmem := hbm } h.status hb (h.idle_of_not_busy hb)

theorem memWriteGap_inv (h : Inv s) {addr : Nat} {v : List Nat} (hv : addr + v.length ≤ s.params.gapDepth) :
    Inv (memWriteGap addr v s) := by
  unfold memWriteGap
  split_ifs with hb
  · exact h
  · exact h.buffers (by simpa using hb) (writeRange_legal _ h.gapmem (by simpa using hv)) h.strmem h.bitmem

theorem memWriteStr_inv (h : Inv s) {addr : Nat} {v : List Byte} (hv : addr + v.length ≤ s.params.strBytes) :
    Inv (memWriteStr addr v s) := by
  unfold memWriteStr
  split_ifs with hb
  · exact h
  · exact h.buffers (by simpa using hb) h.gapmem (writeRange_legal _ h.strmem hv) h.bitmem

theorem memWriteBm_inv (h : Inv s) {addr : Nat} {v : List Byte} (hv : addr + v.length ≤ s.params.bmBytes) :
    Inv (memWriteBm addr v s) := by
  unfold memWriteBm
  split_ifs with hb
  · exact h
  · exact h.buffers (by simpa using hb) h.gapmem h.strmem (writeRange_legal _ h.bitmem hv)

theorem waitStep_inv (h : Inv s) (ht : waitStep s = .next t) : Inv t := by
  unfold waitStep at ht
  split_ifs at ht
  · exact seqStep_inv (regRead_inv (h.environment _ _ _) 2) ht
  · cases ht
    exact regRead_inv h 2

theorem runCommand_inv (h : Inv s) {c : Nat} (ht : runCommand c s = .next t) : Inv t := by
  by_cases hb : s.status.busy = true
  · simp only [runCommand, if_pos hb] at ht
    cases ht
    exact h.environment _ _ _
  have hb' : s.status.busy = false := by simpa using hb
  have hd := startCommand_data h.data c
  cases hdec : decode (BitVec.ofNat 32 c) with
  | ok i =>
    rw [runCommand_of_decode hb' hdec] at ht
    exact (exec_completion ht).inv hd
  | error err =>
    rw [runCommand_of_decode_error hb' hdec] at ht
    cases ht
    exact hd.inv_complete _ _

/-- Reset zeroes every register and keeps what it is given of the buffers (10_state.md R42). -/
theorem resetWith_inv (h : Inv s) {g : Memory Word} {m b : Memory Byte} (hg : BufferLegal g s.params.gapDepth)
    (hm : BufferLegal m s.params.strBytes) (hb : BufferLegal b s.params.bmBytes) (freeCtr : Nat) :
    Inv (resetWith g m b freeCtr s) :=
  DataLegal.inv_of_idle ⟨h.params, hg, hm, hb, Nat.zero_le _, Nat.zero_le _, Nat.zero_le _⟩
    invariantAtReset.status rfl rfl

theorem abortCommand_inv (h : Inv s) : Inv (abortCommand s) := by
  unfold abortCommand
  split
  · exact resetWith_inv h h.gapmem (forget_legal _ _) h.bitmem _
  · exact resetWith_inv h h.gapmem (forget_legal _ _) h.bitmem _
  · exact resetWith_inv h h.gapmem (forget_legal _ _) h.bitmem _
  · have hlen : 0 + (freeValues Config.freeByte s.freeCtr (abortedBytes s)).length ≤ s.params.bmBytes := by
      simp [freeValues, abortedBytes]
    exact resetWith_inv h h.gapmem h.strmem (writeRange_legal _ h.bitmem hlen) _
  · exact resetWith_inv h h.gapmem h.strmem h.bitmem _

theorem resetBlock_inv (h : Inv s) : Inv (resetBlock s) := by
  unfold resetBlock
  split_ifs
  · exact abortCommand_inv h
  · exact resetWith_inv h (forget_legal _ _) (forget_legal _ _) (forget_legal _ _) _

/-- Every accepted item of the environment keeps the invariant. -/
theorem acceptEvent_inv (h : Inv s) {ev : Event} (hw : ev.wellFormed s.params = true)
    (ht : acceptEvent ev s = .next t) : Inv t := by
  cases ev with
  | regRead i => cases ht; exact regRead_inv h i
  | regWrite i v => cases ht; exact regWrite_inv h i v
  | memRead space addr n => cases ht; exact memRead_inv h space addr n
  | memWriteGap addr v => cases ht; exact memWriteGap_inv h (of_decide_eq_true hw).2
  | memWriteStr addr v => cases ht; exact memWriteStr_inv h (of_decide_eq_true hw).2
  | memWriteBm addr v => cases ht; exact memWriteBm_inv h (of_decide_eq_true hw).2
  | wait => exact waitStep_inv h ht
  | sequencer => exact seqStep_inv h ht
  | command c => exact runCommand_inv h ht
  | reset => cases ht; exact resetBlock_inv h

/-- Settles O50: a step is a micro-step or an accepted item, and each keeps the invariant. -/
theorem stepKeepsInvariant : Obligations.StepKeepsInvariant := by
  unfold Obligations.StepKeepsInvariant
  intro s t h ht
  obtain ⟨-, ⟨-, hstep⟩ | ⟨ev, rest, -, hw, hev⟩⟩ := step_next_cases ht
  · exact seqStep_inv h hstep
  · exact acceptEvent_inv (h.environment rest s.rdata s.freeCtr) hw hev

end Sys2Proof.Machine
end

section
/-! PROOFS, family 10_state.md: how a command completes and what it writes (R37, R38, R41), and the registers as the host reads
and writes them (R20 to R36, R42). -/

namespace Sys2Proof.Machine

variable {s t : State}

/-! ## The completion step -/

@[simp] theorem seqResults_gapmem (s : State) : (seqResults s).gapmem = s.gapmem := by unfold seqResults; split <;> rfl
@[simp] theorem seqResults_strmem (s : State) : (seqResults s).strmem = s.strmem := by unfold seqResults; split <;> rfl
@[simp] theorem seqResults_bitmem (s : State) : (seqResults s).bitmem = s.bitmem := by unfold seqResults; split <;> rfl

theorem statusCompleted_err (e : ECode) (nd : Bool) : (statusCompleted e nd).err = true ↔ e ≠ .success := decide_eq_true_iff

theorem statusCompleted_nodata (e : ECode) (nd : Bool) :
    (statusCompleted e nd).nodata = true ↔ nd = true ∧ e = .success := by
  simp [statusCompleted]

/-- Settles O51: a micro-step from another phase keeps `STATUS`, and `FINISH` is `complete` with the carried code and flag. -/
theorem onlyFinishCompletes : Obligations.OnlyFinishCompletes := by
  unfold Obligations.OnlyFinishCompletes
  intro s t h hb ht
  by_cases hf : s.phase = .finish
  · cases (seqStep_finish hf).symm.trans ht
    refine ⟨iff_of_true rfl hf, fun _ => ?_, fun hn => absurd hf hn⟩
    exact ⟨rfl, rfl, rfl, statusCompleted_err _ _, statusCompleted_nodata _ _, seqResults_gapmem s, seqResults_strmem s,
      seqResults_bitmem s⟩
  · have hst : t.status = s.status := (seqStep_mid h (h.busyPhase.1 hb) hf ht).status
    exact ⟨iff_of_false (by simp [hst, hb]) hf, fun he => absurd he hf, fun _ => hst⟩

/-! ## The status of a completed command -/

theorem success_not_mem_errorCodes (i : Instr) : ECode.success ∉ errorCodes i := by cases i <;> decide

/-- The input of command `i` is empty: no gap, or no payload (10_state.md R37, R41). -/
def NoData (i : Instr) (s : State) : Prop :=
  ((i = .est ∨ i = .enc ∨ i = .cmpr ∨ i = .cmprO) ∧ s.ngaps = 0) ∨ (i = .dec ∧ s.strlen = 0)

theorem word_eq_zero_iff (w : Word) : w = 0 ↔ w.toNat = 0 := BitVec.toNat_inj.symm

theorem noData_of_gaps {i : Instr} (hi : i = .est ∨ WritesPayload i) : NoData i s ↔ s.ngaps.toNat = 0 := by
  have hdec : i ≠ .dec := by rintro rfl; simp [WritesPayload] at hi
  rw [NoData, word_eq_zero_iff]
  simp [hi, hdec]

theorem noData_dec : NoData .dec s ↔ s.strlen.toNat = 0 := by simp [NoData, ← word_eq_zero_iff]

/-- The codes a completion can carry: success, one of `errorCodes`, or a run-time error of `DEC` (10_state.md R41). -/
def CompletionCode (i : Instr) (e : ECode) : Prop :=
  e = .success ∨ e ∈ errorCodes i ∨ (i = .dec ∧ (e = .trunc ∨ e = .range))

/-- The status of every completion state of a command. -/
theorem Completion.status {i : Instr} (hc : Completion s i t) : ∃ e nd, t.status = statusCompleted e nd ∧
    CompletionCode i e ∧ (e = .success → (nd = true ↔ NoData i s)) := by
  cases hc with
  | nop => exact ⟨_, _, rfl, .inl rfl, fun _ => by simp [NoData]⟩
  | error he => exact ⟨_, _, rfl, .inr (.inl he), fun hs => absurd (hs ▸ he) (success_not_mem_errorCodes i)⟩
  | noEstimate h0 => exact ⟨_, _, rfl, .inl rfl, fun _ => iff_of_true rfl ((noData_of_gaps (.inl rfl)).2 h0)⟩
  | estimate h0 hS => exact ⟨_, _, rfl, .inl rfl, fun _ => iff_of_false nofun (mt (noData_of_gaps (.inl rfl)).1 h0)⟩
  | override hd => exact ⟨_, _, rfl, .inl rfl, fun _ => by simp [NoData]⟩
  | noPayload hi h0 => exact ⟨_, _, rfl, .inl rfl, fun _ => iff_of_true rfl ((noData_of_gaps (.inr hi)).2 h0)⟩
  | payload hi h0 hd hfit =>
    exact ⟨_, _, rfl, .inl rfl, fun _ => iff_of_false nofun (mt (noData_of_gaps (.inr hi)).1 h0)⟩
  | noBitmap h0 hb => exact ⟨_, _, rfl, .inl rfl, fun _ => iff_of_true rfl (noData_dec.2 h0)⟩
  | bitmap h0 hb hk =>
    exact ⟨_, _, rfl, hk.code.imp_right fun h => .inr ⟨rfl, h⟩, fun _ => iff_of_false nofun (mt noData_dec.1 h0)⟩

/-- Settles O35: the status is that of one of the command's completion states. -/
theorem completionStatusPerCommand : Obligations.CompletionStatusPerCommand := by
  unfold Obligations.CompletionStatusPerCommand
  intro i s t ht
  obtain ⟨e, nd, hst, hcode, hnd⟩ := (exec_completion ht).status
  rw [hst]
  refine ⟨rfl, rfl, statusCompleted_err e nd, ?_, hcode.imp_right fun h => ?_⟩
  · rw [statusCompleted_nodata, and_comm]
    exact and_congr_right hnd
  · cases i
    case nop => simp [errorCodes] at h
    all_goals simpa [errorCodes, statusCompleted, or_assoc] using h

/-! ## What a command writes -/

/-- No command changes an operand, `GAPMEM`, the hidden registers or the environment. -/
theorem Completion.operands {i : Instr} (hc : Completion s i t) :
    t.params = s.params ∧ t.cmd = s.cmd ∧ t.div = s.div ∧ t.ngaps = s.ngaps ∧ t.bitlen = s.bitlen ∧
      t.gapmem = s.gapmem ∧ t.seq = s.seq ∧ t.inputs = s.inputs ∧ t.rdata = s.rdata ∧ t.freeCtr = s.freeCtr := by
  cases hc <;> exact ⟨rfl, rfl, rfl, rfl, rfl, rfl, rfl, rfl, rfl, rfl⟩

theorem Completion.stream {i : Instr} (hc : Completion s i t) (hi : ¬WritesPayload i) :
    t.strlen = s.strlen ∧ t.totbits = s.totbits ∧ t.strmem = s.strmem := by
  cases hc
  case noPayload hw => exact absurd hw hi
  case payload hw => exact absurd hw hi
  all_goals exact ⟨rfl, rfl, rfl⟩

theorem Completion.rdiv {i : Instr} (hc : Completion s i t) (hi : i = .nop ∨ i = .dec) : t.rdiv = s.rdiv := by
  have hw : ¬WritesPayload i := by rcases hi with rfl | rfl <;> decide
  cases hc
  case noEstimate => simp at hi
  case estimate => simp at hi
  case override => simp at hi
  case noPayload hp => exact absurd hp hw
  case payload hp => exact absurd hp hw
  all_goals rfl

theorem Completion.bitmem {i : Instr} (hc : Completion s i t) (hi : i ≠ .dec) :
    t.count = s.count ∧ t.pos = s.pos ∧ t.bitmem = s.bitmem := by
  cases hc
  case noBitmap => exact absurd rfl hi
  case bitmap => exact absurd rfl hi
  all_goals exact ⟨rfl, rfl, rfl⟩

/-- Settles O37: read off the completion states. -/
theorem commandsWriteOnlyTheirResults : Obligations.CommandsWriteOnlyTheirResults := by
  unfold Obligations.CommandsWriteOnlyTheirResults
  intro i s t ht
  have hc := exec_completion ht
  refine ⟨hc.operands, fun hi => hc.stream ?_, hc.rdiv, hc.bitmem⟩
  rcases hi with rfl | rfl | rfl | rfl <;> decide

/-! ## The layout of `STATUS` -/

theorem getLsbD_zero_append {v w : Nat} (x : BitVec w) (i : Nat) : (0#v ++ x).getLsbD i = x.getLsbD i := by
  rw [BitVec.getLsbD_append]
  split_ifs with h
  · rfl
  · rw [BitVec.getLsbD_zero, BitVec.getLsbD_of_ge _ _ (Nat.not_lt.1 h)]

/-- `STATUS` bit by bit, low bit first (10_state.md R23). -/
theorem getLsbD_statusWord (st : Status) (i : Nat) : (statusWord st).getLsbD i =
    if i < 4 then [st.busy, st.done, st.err, st.nodata].getD i false else (ecodeBits st.ecode).getLsbD (i - 4) := by
  change BitVec.getLsbD (((((0#24 ++ ecodeBits st.ecode).concat st.nodata).concat st.err).concat st.done).concat st.busy) i = _
  obtain _ | _ | _ | _ | k := i
  iterate 4 simp
  rw [if_neg (by omega)]
  simp only [BitVec.getLsbD_concat_succ]
  exact getLsbD_zero_append _ k

/-- Settles O38: bit by bit; above bit 7 the code's field has no bit left. -/
theorem statusWordLayout : Obligations.StatusWordLayout := by
  unfold Obligations.StatusWordLayout
  refine ⟨fun st => ⟨getLsbD_statusWord st 0, getLsbD_statusWord st 1, getLsbD_statusWord st 2, getLsbD_statusWord st 3, ?_, ?_⟩,
    rfl, rfl, rfl, rfl, rfl, rfl, rfl, rfl⟩
  · ext i hi
    rw [BitVec.extractLsb, BitVec.getElem_extractLsb', getLsbD_statusWord, if_neg (by omega), Nat.add_sub_cancel_left,
      BitVec.getLsbD_eq_getElem]
  · ext i hi
    rw [BitVec.extractLsb, BitVec.getElem_extractLsb', getLsbD_statusWord, if_neg (by omega),
      BitVec.getLsbD_of_ge _ _ (by omega)]
    exact (BitVec.getElem_zero hi).symm

/-! ## Register access -/

theorem step_of_regRead {r : Nat} {rest : List Event} (hw : s.params.WF) (hi : s.inputs = .regRead r :: rest)
    (hr : r ≤ 15) : step s = .next (regRead r { s with inputs := rest }) := step_of_input hw hi (decide_eq_true hr)

theorem step_of_regWrite {r v : Nat} {rest : List Event} (hw : s.params.WF) (hi : s.inputs = .regWrite r v :: rest)
    (hr : r ≤ 15) : step s = .next (regWrite r v { s with inputs := rest }) := step_of_input hw hi (decide_eq_true hr)

theorem regRead_defined {i : Nat} (h : s.status.busy = false ∨ i = 0 ∨ i = 2) :
    regRead i s = { s with rdata := some (.reg (regValue s i)) } := if_pos h

theorem regRead_free {i : Nat} (h : ¬(s.status.busy = false ∨ i = 0 ∨ i = 2)) :
    regRead i s = { s with rdata := some (.reg (Config.freeWord s.freeCtr)), freeCtr := s.freeCtr + 1 } := if_neg h

theorem regValue_reserved (s : State) {i : Nat} (h : 11 ≤ i) : regValue s i = 0 := by
  unfold regValue
  split
  case h_12 => rfl
  all_goals omega

theorem toNat_setWidth_word {w : Nat} (x : BitVec w) (h : w ≤ 64) : (x.setWidth 64).toNat = x.toNat :=
  BitVec.toNat_setWidth_of_le h

/-- Settles O41: while idle, and for `ID` and `STATUS` always, the value is the register's. -/
theorem regReadChangesNothing : Obligations.RegReadChangesNothing := by
  unfold Obligations.RegReadChangesNothing
  intro s r rest hw hi hr
  rw [step_of_regRead hw hi hr]
  by_cases h : s.status.busy = false ∨ r = 0 ∨ r = 2
  · refine ⟨_, regValue s r, congrArg _ (regRead_defined h), rfl, ?_, ?_, fun _ => ⟨?_, ?_, ?_, ?_, ?_, ?_, ?_, ?_, ?_,
      regValue_reserved s⟩⟩
    · rintro rfl; rfl
    · rintro rfl; rfl
    · rintro rfl; exact toNat_setWidth_word _ (by decide)
    · rintro rfl; exact toNat_setWidth_word _ (by decide)
    · rintro rfl; rfl
    · rintro rfl; rfl
    · rintro rfl; rfl
    · rintro rfl; exact toNat_setWidth_word _ (by decide)
    · rintro rfl; rfl
    · rintro rfl; rfl
    · rintro rfl; rfl
  · obtain ⟨hb, h0, h2⟩ : s.status.busy ≠ false ∧ r ≠ 0 ∧ r ≠ 2 := by simpa only [not_or] using h
    exact ⟨_, _, congrArg _ (regRead_free h), rfl, fun e => absurd e h0, fun e => absurd e h2, fun e => absurd e hb⟩

theorem regWrite_busy (hb : s.status.busy = true) (r v : Nat) : regWrite r v s = s := if_pos hb

theorem regWrite_cmd (hb : s.status.busy = false) (c : Nat) : regWrite 1 c s = startCommand c s := if_neg (by simp [hb])

theorem regWrite_div (hb : s.status.busy = false) (v : Nat) : regWrite 3 v s = { s with div := BitVec.ofNat 8 v } :=
  if_neg (by simp [hb])

theorem regWrite_ngaps (hb : s.status.busy = false) (v : Nat) : regWrite 4 v s = { s with ngaps := BitVec.ofNat 64 v } :=
  if_neg (by simp [hb])

theorem regWrite_strlen (hb : s.status.busy = false) (v : Nat) : regWrite 5 v s = { s with strlen := BitVec.ofNat 64 v } :=
  if_neg (by simp [hb])

theorem regWrite_bitlen (hb : s.status.busy = false) (v : Nat) : regWrite 6 v s = { s with bitlen := BitVec.ofNat 64 v } :=
  if_neg (by simp [hb])

/-- Read-only and reserved registers. -/
theorem regWrite_ignored {r : Nat} (hr : r = 0 ∨ r = 2 ∨ 7 ≤ r) (v : Nat) : regWrite r v s = s := by
  unfold regWrite
  split
  · rfl
  split
  case h_6 => rfl
  all_goals omega

/-- Settles O6: the write starts the command, and `seqLatched` is zero but for the three latched fields. -/
theorem commandStartLatchesAndClears : Obligations.CommandStartLatchesAndClears := by
  unfold Obligations.CommandStartLatchesAndClears
  intro s c rest hw hi hb
  refine ⟨startCommand c { s with inputs := rest }, ?_, rfl, rfl, rfl, rfl, rfl, rfl, rfl, rfl, rfl, rfl, rfl, rfl, rfl, rfl, rfl⟩
  exact (step_of_regWrite hw hi (by decide)).trans (congrArg _ (regWrite_cmd (s := { s with inputs := rest }) hb c))

/-- Settles O42: a write while busy does nothing; idle, the number picks the register. -/
theorem regWriteStoresOrIsIgnored : Obligations.RegWriteStoresOrIsIgnored := by
  unfold Obligations.RegWriteStoresOrIsIgnored
  intro s r v rest hw hi hr
  rw [step_of_regWrite hw hi hr]
  refine ⟨fun hb => congrArg _ (regWrite_busy (s := { s with inputs := rest }) hb r v), fun hb => ?_⟩
  have hidle : ({ s with inputs := rest } : State).status.busy = false := hb
  refine ⟨?_, ?_, ?_, ?_, ?_, fun h => congrArg _ (regWrite_ignored h v)⟩
  · rintro rfl
    exact ⟨startCommand v { s with inputs := rest }, congrArg _ (regWrite_cmd hidle v), rfl, rfl⟩
  · rintro rfl; exact congrArg _ (regWrite_div hidle v)
  · rintro rfl; exact congrArg _ (regWrite_ngaps hidle v)
  · rintro rfl; exact congrArg _ (regWrite_strlen hidle v)
  · rintro rfl; exact congrArg _ (regWrite_bitlen hidle v)

/-- Settles O47: `State.reset` written out; no cell is listed, so no cell can be read. -/
theorem resetValues : Obligations.ResetValues := by
  unfold Obligations.ResetValues
  exact ⟨rfl, by decide, rfl, rfl, rfl, rfl, rfl, rfl, rfl, rfl, rfl, rfl, rfl, rfl, rfl, rfl, rfl, rfl, rfl, rfl, rfl, rfl,
    rfl, rfl, rfl, by decide, fun _ => ⟨rfl, rfl, rfl⟩⟩

end Sys2Proof.Machine
end

section
/-! PROOFS, family 20_memory.md: `SetBit` and `PutBits` (R60 to R62), the buffers as the host accesses them (R56 to R58), and
where the sequencer's accesses fall (R66, R69). -/

namespace Sys2Proof.Machine

variable {α : Type} {s : State}

/-! ## Bits -/

/-- Two buffers in canonical form and of one epoch are the same when their bits are. -/
theorem memory_ext_bits {m m' : Memory Byte} (h : m.wf) (h' : m'.wf) (he : m.epoch = m'.epoch)
    (hb : ∀ j, getBit m j = getBit m' j) : m = m' :=
  memory_ext h h' he fun _ => read_eq_of_getBit fun _ _ => hb _

theorem setBit_setBit {m : Memory Byte} (h : m.wf) (idx : Nat) : setBit (setBit m idx) idx = setBit m idx := by
  refine memory_ext_bits (setBit_wf (setBit_wf h idx) idx) (setBit_wf h idx) (setBit_epoch _ _) fun j => ?_
  rw [getBit_setBit, getBit_setBit, Option.map_map]
  exact congrArg (Option.map · _) (funext fun b => by simp)

/-- Settles O24: `setBit` is the OR of one byte, and by bits it only adds bit `idx`. -/
theorem setBitIsAnIdempotentOr : Obligations.SetBitIsAnIdempotentOr := by
  unfold Obligations.SetBitIsAnIdempotentOr
  intro m idx h
  refine ⟨fun b hb => ?_, fun k hk => read_setBit_other m hk, setBit_setBit h idx, fun j hj => ?_⟩
  · rw [setBit, read_orByte, if_pos rfl, hb, Option.map_some]
  · rw [getBit_setBit, hj, Option.map_some, Bool.true_or]

/-- What ORing a byte keeps, `PutBits` keeps (R62). -/
theorem putBitsLoop_keeps {P : Memory Byte → Prop} (hor : ∀ m k x, P m → P (orByte m k x)) (fuel : Nat) {m : Memory Byte}
    (hm : P m) (idx v n : Nat) : P (putBitsLoop fuel m idx v n) := by
  induction fuel generalizing m idx v n with
  | zero => exact hm
  | succ fuel ih =>
    unfold putBitsLoop
    split_ifs
    · exact hm
    · exact ih (hor _ _ _ hm) _ _ _

theorem putBits_wf {m : Memory Byte} (h : m.wf) (idx v n : Nat) : (putBits m idx v n).wf :=
  putBitsLoop_keeps (P := Memory.wf) (fun _ k x hm => orByte_wf hm k x) n h idx v n

theorem putBits_epoch (m : Memory Byte) (idx v n : Nat) : (putBits m idx v n).epoch = m.epoch :=
  putBitsLoop_keeps (P := (·.epoch = m.epoch)) (fun m k x => (orByte_epoch m k x).trans) n rfl idx v n

theorem foldl_setBit_wf (ps : List Nat) {m : Memory Byte} (h : m.wf) : (ps.foldl setBit m).wf := by
  induction ps generalizing m with
  | nil => exact h
  | cons p ps ih => exact ih (setBit_wf h p)

theorem foldl_setBit_epoch (ps : List Nat) (m : Memory Byte) : (ps.foldl setBit m).epoch = m.epoch := by
  induction ps generalizing m with
  | nil => rfl
  | cons p ps ih => exact (ih _).trans (setBit_epoch m p)

/-- The stream bits that the 1 bits of an `n`-bit value put at `idx` fall on. -/
def oneBits (idx v n : Nat) : List Nat := ((List.range n).filter v.testBit).map (idx + ·)

theorem foldl_oneBits (m : Memory Byte) (idx v n : Nat) : (oneBits idx v n).foldl setBit m
    = (List.range n).foldl (fun acc t => if v.testBit t then setBit acc (idx + t) else acc) m := by
  rw [oneBits, List.foldl_map, List.foldl_filter]

theorem mem_oneBits {idx v n j : Nat} : j ∈ oneBits idx v n ↔ (idx ≤ j ∧ j < idx + n) ∧ v.testBit (j - idx) = true := by
  simp only [oneBits, List.mem_map, List.mem_filter, List.mem_range]
  constructor
  · rintro ⟨t, ⟨ht, hv⟩, rfl⟩
    exact ⟨by omega, by rwa [Nat.add_sub_cancel_left]⟩
  · rintro ⟨hj, hv⟩
    exact ⟨j - idx, ⟨by omega, hv⟩, by omega⟩

/-- Settles O23: both sides OR the same bits into the same buffer, and a buffer in canonical form is its bits
(`PutBits` takes `n` bits of any value). -/
theorem putBitsIsBitwiseSetBit : Obligations.PutBitsIsBitwiseSetBit := by
  unfold Obligations.PutBitsIsBitwiseSetBit
  intro m idx v n h _
  rw [← foldl_oneBits]
  refine memory_ext_bits (putBits_wf h idx v n) (foldl_setBit_wf _ h)
    ((putBits_epoch m idx v n).trans (foldl_setBit_epoch _ m).symm) fun j => ?_
  simp only [getBit_putBits, getBit_foldl_setBit, mem_oneBits, Bool.decide_and, Bool.decide_eq_true]

/-! ## Buffer access -/

theorem read_writeRange_inside (m : Memory α) (a : Nat) {vs : List α} {k : Nat} (hk : k < vs.length) :
    (m.writeRange a vs).read (a + k) = vs[k]? := by
  rw [read_writeRange, if_pos (by omega), Nat.add_sub_cancel_left]

theorem read_writeRange_outside (m : Memory α) {a b : Nat} {vs : List α} (hb : b < a ∨ a + vs.length ≤ b) :
    (m.writeRange a vs).read b = m.read b := by
  rw [read_writeRange, if_neg (by omega)]

/-- Cells that can all be read hold what the read answers; no free value enters (R56). -/
theorem cellValues_of_readRange {m : Memory α} {a n : Nat} {vs : List α} (h : m.readRange a n = some vs)
    (unlisted : Nat → Nat → α) : cellValues unlisted m a n = vs := by
  obtain ⟨hl, hr⟩ := (readRange_eq_some m a n vs).1 h
  refine List.ext_getElem (by simp [cellValues, hl]) fun k _ hk => ?_
  simp [cellValues, hr k (hl ▸ hk), hk]

theorem memWriteGap_idle (hb : s.status.busy = false) (addr : Nat) (v : List Nat) :
    memWriteGap addr v s = { s with gapmem := s.gapmem.writeRange addr (v.map (BitVec.ofNat 64)) } := if_neg (by simp [hb])

theorem memWriteStr_idle (hb : s.status.busy = false) (addr : Nat) (v : List Byte) :
    memWriteStr addr v s = { s with strmem := s.strmem.writeRange addr v } := if_neg (by simp [hb])

theorem memWriteBm_idle (hb : s.status.busy = false) (addr : Nat) (v : List Byte) :
    memWriteBm addr v s = { s with bitmem := s.bitmem.writeRange addr v } := if_neg (by simp [hb])

theorem memWriteGap_busy (hb : s.status.busy = true) (addr : Nat) (v : List Nat) : memWriteGap addr v s = s := if_pos hb

theorem memWriteStr_busy (hb : s.status.busy = true) (addr : Nat) (v : List Byte) : memWriteStr addr v s = s := if_pos hb

theorem memWriteBm_busy (hb : s.status.busy = true) (addr : Nat) (v : List Byte) : memWriteBm addr v s = s := if_pos hb

theorem memRead_gapmem {addr n : Nat} {cells : List Word} (hb : s.status.busy = false)
    (hr : s.gapmem.readRange addr n = some cells) : memRead .gapmem addr n s = { s with rdata := some (.gaps cells) } := by
  simp [memRead, hb, cellValues_of_readRange hr]

theorem memRead_strmem {addr n : Nat} {cells : List Byte} (hb : s.status.busy = false)
    (hr : s.strmem.readRange addr n = some cells) : memRead .strmem addr n s = { s with rdata := some (.bytes cells) } := by
  simp [memRead, hb, cellValues_of_readRange hr]

theorem memRead_bitmem {addr n : Nat} {cells : List Byte} (hb : s.status.busy = false)
    (hr : s.bitmem.readRange addr n = some cells) : memRead .bitmem addr n s = { s with rdata := some (.bytes cells) } := by
  simp [memRead, hb, cellValues_of_readRange hr]

/-- A host read writes `rdata` and the free values' counter, idle or busy (R56, R58). -/
theorem memRead_frame (space : Space) (addr n : Nat) (s : State) : memRead space addr n s
    = { s with rdata := (memRead space addr n s).rdata, freeCtr := (memRead space addr n s).freeCtr } := by
  unfold memRead
  split
  · cases space <;> rfl
  · cases space <;> rfl

/-- Settles O43: each access is inside, so the step is the access while idle. -/
theorem hostBufferAccess : Obligations.HostBufferAccess := by
  unfold Obligations.HostBufferAccess
  refine ⟨?_, ?_, ?_, ?_, ?_, ?_⟩
  · intro s addr v rest hw hb hi h1 hin
    refine ⟨s.gapmem.writeRange addr (v.map (BitVec.ofNat 64)), ?_, fun k hk => ?_, fun k hk => ?_⟩
    · exact (step_of_input hw hi (decide_eq_true ⟨h1, hin⟩)).trans
        (congrArg _ (memWriteGap_idle (s := { s with inputs := rest }) hb addr v))
    · rw [read_writeRange_inside _ _ (by simpa using hk)]
      simp [hk]
    · exact read_writeRange_outside _ (by simpa using hk)
  · intro s addr v rest hw hb hi h1 hin
    exact ⟨s.strmem.writeRange addr v, (step_of_input hw hi (decide_eq_true ⟨h1, hin⟩)).trans
        (congrArg _ (memWriteStr_idle (s := { s with inputs := rest }) hb addr v)),
      fun k hk => read_writeRange_inside _ _ hk, fun k hk => read_writeRange_outside _ hk⟩
  · intro s addr v rest hw hb hi h1 hin
    exact ⟨s.bitmem.writeRange addr v, (step_of_input hw hi (decide_eq_true ⟨h1, hin⟩)).trans
        (congrArg _ (memWriteBm_idle (s := { s with inputs := rest }) hb addr v)),
      fun k hk => read_writeRange_inside _ _ hk, fun k hk => read_writeRange_outside _ hk⟩
  · intro s addr n cells rest hw hb hi h1 hin hr
    exact (step_of_input hw hi (decide_eq_true ⟨h1, hin⟩)).trans
      (congrArg _ (memRead_strmem (s := { s with inputs := rest }) hb hr))
  · intro s addr n cells rest hw hb hi h1 hin hr
    exact (step_of_input hw hi (decide_eq_true ⟨h1, hin⟩)).trans
      (congrArg _ (memRead_bitmem (s := { s with inputs := rest }) hb hr))
  · intro s addr n cells rest hw hb hi h1 hin hr
    exact (step_of_input hw hi (decide_eq_true ⟨h1, hin⟩)).trans
      (congrArg _ (memRead_gapmem (s := { s with inputs := rest }) hb hr))

/-- Settles O44: a write is dropped, a read writes what it returns. -/
theorem busyBufferAccessHasNoEffect : Obligations.BusyBufferAccessHasNoEffect := by
  unfold Obligations.BusyBufferAccessHasNoEffect
  intro s ev rest hw hb hi he
  rw [step_of_input hw hi he]
  constructor
  · rintro (⟨addr, v, rfl⟩ | ⟨addr, v, rfl⟩ | ⟨addr, v, rfl⟩)
    · exact congrArg _ (memWriteGap_busy (s := { s with inputs := rest }) hb addr v)
    · exact congrArg _ (memWriteStr_busy (s := { s with inputs := rest }) hb addr v)
    · exact congrArg _ (memWriteBm_busy (s := { s with inputs := rest }) hb addr v)
  · rintro ⟨space, addr, n, rfl⟩
    exact ⟨_, rfl, memRead_frame space addr n { s with inputs := rest }⟩

/-! ## The sequencer's accesses -/

/-- The byte of a bit among the first `n` is one of those that `n` bits occupy (R53). -/
theorem div_lt_ceilDiv8 {j n : Nat} (h : j < n) : j / 8 < ceilDiv8 n := by unfold ceilDiv8; omega

/-- The gap that `EST_SUM`, `ENC_SIZE` or `ENC_EMIT` reads next is in the buffer. -/
theorem Inv.gapIndex_inside (h : Inv s) (hp : s.phase = .estSum ∨ s.phase = .encSize ∨ s.phase = .encEmit) :
    s.seq.i < s.params.gapDepth := by
  have hl := h.phase
  unfold PhaseLegal at hl
  rcases hp with hp | hp | hp <;> simp only [hp] at hl
  case inl =>
    obtain ⟨hi, hn⟩ := hl
    exact hi.trans_le hn
  all_goals
    obtain ⟨hi, hn, _⟩ := hl
    exact hi.trans_le hn

theorem Inv.encZero_inside (h : Inv s) (hp : s.phase = .encZero) : s.seq.i < s.params.strBytes := by
  have hl := h.phase
  simp only [PhaseLegal, hp] at hl
  obtain ⟨_, _, hi, hc, _⟩ := hl
  exact hi.trans_le hc

/-- The cursor plus the bits of the gaps left is `tot`, so the next codeword ends within the payload, which is known. -/
theorem Inv.encEmit_inside (h : Inv s) (hp : s.phase = .encEmit) : ∃ g, s.gapmem.read s.seq.i = some g ∧
    ∀ j, s.seq.idx ≤ j → j < s.seq.idx + codewordLength g.toNat s.seq.d →
      j / 8 < ceilDiv8 s.seq.tot ∧ ceilDiv8 s.seq.tot ≤ s.params.strBytes ∧ (s.strmem.read (j / 8)).isSome = true := by
  have hl := h.phase
  simp only [PhaseLegal, hp] at hl
  obtain ⟨hi, _, hc, hx, hb, hk⟩ := hl
  obtain ⟨n, hn⟩ : ∃ n, s.ngaps.toNat - s.seq.i = n + 1 := ⟨s.ngaps.toNat - s.seq.i - 1, by omega⟩
  obtain ⟨g, hg, hle, _⟩ := streamBits_head (hn ▸ hb)
  refine ⟨g, hg, fun j _ hj => ?_⟩
  have hin : j / 8 < ceilDiv8 s.seq.tot := div_lt_ceilDiv8 (by omega)
  exact ⟨hin, hc, hk _ hin⟩

theorem Inv.decZero_inside (h : Inv s) (hp : s.phase = .decZero) :
    s.seq.i < bitmapBytes s ∧ bitmapBytes s ≤ s.params.bmBytes := by
  have hl := h.phase
  simp only [PhaseLegal, hp] at hl
  obtain ⟨hi, hb, _⟩ := hl
  exact ⟨hi, hb⟩

/-- `DEC_SCAN` reads a bit before the end of the stream; of the bits `DEC_REM` has still to read, the next is one. -/
theorem Inv.streamBit_inside (h : Inv s)
    (hp : s.phase = .decScan ∧ s.seq.idx ≠ 8 * s.strlen.toNat ∨ s.phase = .decRem ∧ s.seq.j < s.seq.d) :
    s.seq.idx / 8 < s.strlen.toNat ∧ s.strlen.toNat ≤ s.params.strBytes := by
  have hl := h.phase
  unfold PhaseLegal at hl
  rcases hp with ⟨hp, hend⟩ | ⟨hp, hmore⟩ <;> simp only [hp] at hl
  · obtain ⟨hx, hs, _⟩ := hl
    exact ⟨by omega, hs⟩
  · obtain ⟨_, hx, hs, _⟩ := hl
    exact ⟨by omega, hs⟩

theorem Inv.decRem_inside (h : Inv s) (hp : s.phase = .decRem) {p : Nat} (hN : p < s.bitlen.toNat) :
    p / 8 < bitmapBytes s ∧ bitmapBytes s ≤ s.params.bmBytes ∧ (s.bitmem.read (p / 8)).isSome = true := by
  have hl := h.phase
  simp only [PhaseLegal, hp] at hl
  obtain ⟨_, _, _, hb, hk⟩ := hl
  have hin : p / 8 < bitmapBytes s := div_lt_ceilDiv8 hN
  exact ⟨hin, hb, hk _ hin⟩

/-- Settles O56: each phase's bounds in `Inv` hold its accesses inside. -/
theorem sequencerAccessesInside : Obligations.SequencerAccessesInside := by
  unfold Obligations.SequencerAccessesInside
  intro s h
  exact ⟨h.gapIndex_inside, h.encZero_inside, h.encEmit_inside, h.decZero_inside, h.streamBit_inside,
    fun hp _ hN => h.decRem_inside hp hN⟩

end Sys2Proof.Machine
end

section
/-! PROOFS, family 30_encoding.md: the command word (R95 to R98), the codeword (R80 to R87), and `WAIT` (R100). -/

namespace Sys2Proof.Machine

/-! ## The command word -/

/-- A word is its three fields (30_encoding.md R95). -/
theorem eq_iff_cmdFields {c e : BitVec 32} :
    c = e ↔ cmdRsv c = cmdRsv e ∧ cmdOp c = cmdOp e ∧ cmdOvr c = cmdOvr e := by
  simp only [← BitVec.toNat_inj, cmdRsv, cmdOp, cmdOvr, BitVec.extractLsb'_toNat, Nat.shiftRight_eq_div_pow]
  omega

@[simp] theorem cmdRsv_encode (i : Instr) : cmdRsv (encode i) = 0 := by cases i <;> rfl

/-- The whole table of 30_encoding.md R96: the fields that decode to a command are those of its word. -/
theorem decodeFields_ok_iff {op : BitVec 4} {ovr : BitVec 1} {rsv : BitVec 27} {i : Instr} :
    decodeFields op ovr rsv = .ok i ↔ rsv = 0 ∧ op = cmdOp (encode i) ∧ ovr = cmdOvr (encode i) := by
  constructor
  · intro h
    unfold decodeFields at h
    split_ifs at h with hr
    refine ⟨BitVec.eq_of_toNat_eq (not_not.1 hr), ?_⟩
    -- The rows that give an error contradict `h`; in the others the matched numbers are those of the fields.
    split at h <;> cases h <;> exact ⟨BitVec.eq_of_toNat_eq ‹_›, BitVec.eq_of_toNat_eq ‹_›⟩
  · rintro ⟨rfl, rfl, rfl⟩
    cases i <;> rfl

/-- 30_encoding.md R98 in match form: a word decodes to a command exactly when it is that command's word. -/
theorem decode_ok_iff {c : BitVec 32} {i : Instr} : decode c = .ok i ↔ c = encode i := by
  rw [decode, decodeFields_ok_iff, eq_iff_cmdFields, cmdRsv_encode]

theorem decode_encode (i : Instr) : decode (encode i) = .ok i := decode_ok_iff.2 rfl

theorem decode_of_rsv {c : BitVec 32} (h : cmdRsv c ≠ 0) : decode c = .error .reservedBits :=
  if_pos (mt BitVec.eq_of_toNat_eq h)

/-- Settles O1: `RSV` is looked at first; then a word decodes to a command by the pair of `OP` and `OVR` in that command's word. -/
theorem commandWordDecodingOrder : Obligations.CommandWordDecodingOrder := by
  unfold Obligations.CommandWordDecodingOrder
  intro c
  refine ⟨decode_of_rsv, fun i => decodeFields_ok_iff.trans (and_congr_right fun _ => ?_), fun i => ?_⟩
  · -- Of the seven disjuncts, the one that names `i` is left.
    cases i <;> simp only [reduceCtorEq, and_true, and_false, or_false, false_or] <;> rfl
  · rw [show (0xFFFFFFFF#32) = BitVec.allOnes 32 from rfl, BitVec.and_allOnes]
    exact decode_ok_iff

/-- Settles O2: the seven legal words are the commands' encodings; the other three are decoded. -/
theorem specCommandWords : Obligations.SpecCommandWords :=
  ⟨decode_encode .nop, decode_encode .est, decode_encode .estO, decode_encode .enc, decode_encode .cmpr,
    decode_encode .cmprO, decode_encode .dec, rfl, rfl, decode_of_rsv (by decide)⟩

theorem tableWord_toNat (c : BitVec 32) : tableWord 32 c.toNat = c := by
  rw [tableWord, Nat.mod_eq_of_lt c.isLt, BitVec.ofNat_toNat, BitVec.setWidth_eq]

/-- Settles O3: a command's word as an entry of the opcode table is the `CMD` word itself. -/
theorem decodeOfEncode : Obligations.DecodeOfEncode := by
  unfold Obligations.DecodeOfEncode
  intro i
  refine ⟨decode_encode i, ?_⟩
  rw [decodeTableWord, tableWord_toNat, decode_encode]

/-! ## The codeword -/

theorem getElem?_codeword {g d t : Nat} (h : t < codewordLength g d) :
    (codeword g d)[t]? = some ((codeword g d).getD t false) := by
  rw [← codeword_length] at h
  rw [List.getElem?_eq_getElem h, List.getD_eq_getElem _ _ h]

/-- Settles O21: each offset lies inside the codeword, and `getD_codeword` says which bit stands there. -/
theorem codewordFields : Obligations.CodewordFields := by
  unfold Obligations.CodewordFields
  intro g d
  refine ⟨codeword_length g d, rfl, fun t ht => ?_, ?_, fun t ht => ?_⟩
  · rw [getElem?_codeword (by unfold codewordLength; omega), getD_codeword]
    have : ¬g / 2 ^ d + 1 ≤ t := by omega
    simp [ht.ne, this]
  · rw [getElem?_codeword (by unfold codewordLength; omega), getD_codeword]
    simp
  · rw [getElem?_codeword (by unfold codewordLength; omega), getD_codeword]
    have : g / 2 ^ d + 1 + t ≠ g / 2 ^ d := by omega
    simp [ht, this]

/-- Settles O22: a decoder reads back the first codeword of a stream whatever follows it, so one stream starts with one codeword. -/
theorem codeIsPrefixFree : Obligations.CodeIsPrefixFree := by
  unfold Obligations.CodeIsPrefixFree
  rintro g h d ⟨rest, hrest⟩
  have hg := streamDeltas_codeword d 0 g rest
  have hh := streamDeltas_codeword d 0 h []
  rw [hrest] at hg
  rw [List.append_nil, hg] at hh
  exact (List.cons.inj (congrArg Prod.fst hh)).1

/-! ## `WAIT` -/

theorem regRead_status (s : State) :
    regRead 2 s = { s with rdata := some (.reg ((statusWord s.status).setWidth 64)) } := regRead_defined (.inr (.inr rfl))

/-- Settles O46: `WAIT` reads `STATUS`; while busy it stays the next item and the sequencer takes its micro-step. -/
theorem waitPollsTheStatus : Obligations.WaitPollsTheStatus := by
  unfold Obligations.WaitPollsTheStatus
  intro s rest hw hi
  have hstep : step s = waitStep { s with inputs := rest } := step_of_input hw hi rfl
  rw [hstep, waitStep, regRead_status, regRead_status]
  refine ⟨fun hb => if_neg (by simp [hb]), fun hb => ?_⟩
  rw [if_pos hb, ← hi]

end Sys2Proof.Machine
end

section
/-! PROOFS, family 40_estimator.md: the estimate over the reals (R113 to R117, R121), the commands `EST` and `EST.O` (R110, R111),
and the sequencer's run of them (R118). -/

namespace Sys2Proof.Machine

variable {s t : State}

/-! ## The estimate is the rounded logarithm -/

theorem estDiv_of_le {S n : ℕ} (h : S ≤ n) : estDiv S n = 0 := if_pos h

theorem estDiv_of_lt {S n : ℕ} (h : n < S) :
    estDiv S n = thresholds.countP fun t => decide (t * n ≤ S * thresholdScale) := if_neg (Nat.not_le.2 h)

/-- Rounding to nearest and clamping at 0 counts the half-integers `k + 1/2` that are at most `x`. -/
theorem lt_toNat_round_iff (k : ℕ) (x : ℝ) : k < (round x).toNat ↔ (k : ℝ) + 1 / 2 ≤ x := by
  rw [round_eq, Int.floor_toNat, ← Nat.succ_le_iff, Nat.le_floor_iff' k.succ_ne_zero, Nat.cast_succ]
  constructor <;> intro h <;> linarith

/-- Settles O11: `k` is below the estimate iff `k + 1/2` is at most the logarithm, and the same holds of its rounding. -/
theorem estimateIsTheRoundedLogarithm : Obligations.EstimateIsTheRoundedLogarithm := by
  unfold Obligations.EstimateIsTheRoundedLogarithm
  intro S n hn hb
  refine ⟨estDiv_of_le, fun hS => ?_⟩
  rw [max_comm, ← Int.toNat_eq_max, Nat.cast_inj]
  refine eq_of_forall_lt_iff fun k => ?_
  rw [lt_estDiv_iff k hn hS hb, realThreshold_le_iff k hn hS, lt_toNat_round_iff]

/-! ## The estimate counts thresholds -/

theorem realThreshold_strictMono : StrictMono realThreshold :=
  strictMono_nat_of_lt_succ fun k => one_div_lt_one_div_of_lt (gapOfOne_pos _) (gapOfOne_decreases k)

section
variable {S n : ℕ} (hn : 1 ≤ n) (hS : n < S) (hb : S < 2 ^ 64)
include hn hS hb

theorem estDiv_eq_card : estDiv S n = Nat.card {k : ℕ // realThreshold k ≤ (S : ℝ) / n} := by
  simp only [← lt_estDiv_iff _ hn hS hb]
  exact (Nat.card_eq_of_equiv_fin Fin.equivSubtype.symm).symm

/-- The mean is below `T_k` iff the estimate is at most `k`. -/
theorem estDiv_le_iff (k : ℕ) : estDiv S n ≤ k ↔ (S : ℝ) / n < realThreshold k := by
  rw [← not_lt, lt_estDiv_iff k hn hS hb, not_le]

theorem estDiv_eq_succ_iff (k : ℕ) :
    estDiv S n = k + 1 ↔ realThreshold k ≤ (S : ℝ) / n ∧ (S : ℝ) / n < realThreshold (k + 1) := by
  rw [← lt_estDiv_iff k hn hS hb, ← estDiv_le_iff hn hS hb]
  omega

end

/-- Settles O12: all from the one fact that `k` is below the estimate iff `T_k` is at most the mean. -/
theorem estimateCountsThresholds : Obligations.EstimateCountsThresholds := by
  unfold Obligations.EstimateCountsThresholds
  refine ⟨realThreshold_strictMono, fun S n hn hS hb => ⟨estDiv_eq_card hn hS hb, ?_, estDiv_eq_succ_iff hn hS hb⟩⟩
  rw [← Nat.le_zero]
  exact estDiv_le_iff hn hS hb 0

/-! ## The estimate is a legal divisor -/

/-- 40_estimator.md R117: the largest mean reaches `DIV_MAX`. -/
theorem estDiv_largest_mean : estDiv (2 ^ 64 - 1) 1 = 63 := by decide

/-- A command that writes `RDIV` leaves a legal divisor there, or ends with an error code. -/
theorem Completion.rdiv_le_divMax {i : Instr} (hc : Completion s i t) (hnop : i ≠ .nop) (hdec : i ≠ .dec)
    (hs : t.status.ecode = .success) : t.rdiv.toNat ≤ Config.divMax := by
  cases hc with
  | nop => exact absurd rfl hnop
  | error he => exact absurd ((show _ = ECode.success from hs) ▸ he) (success_not_mem_errorCodes i)
  | noEstimate => exact Nat.zero_le _
  | estimate h0 hS => exact toNat_ofNat_le_divMax (estDiv_le_divMax (Nat.pos_of_ne_zero h0) hS)
  | override hd => exact hd
  | noPayload => exact Nat.zero_le _
  | payload _ _ hd _ => exact toNat_ofNat_le_divMax hd
  | noBitmap => exact absurd rfl hdec
  | bitmap => exact absurd rfl hdec

/-- Settles O13: the bound of `estDiv`, and with it every completion state of `EST` and `CMPR`. -/
theorem estimateIsALegalDivisor : Obligations.EstimateIsALegalDivisor := by
  unfold Obligations.EstimateIsALegalDivisor
  refine ⟨fun S n hn hb => estDiv_le_divMax hn hb, estDiv_largest_mean, fun s t ht hs => ?_⟩
  rcases ht with ht | ht
  · exact (exec_completion ht).rdiv_le_divMax (by decide) (by decide) hs
  · exact (exec_completion ht).rdiv_le_divMax (by decide) (by decide) hs

/-! ## The estimate is monotone in the mean -/

/-- If every figure that is at most `S / n` is at most `S' / n'`, the estimate of `S / n` is at most that of `S' / n'`. -/
theorem estDiv_le_estDiv {S n S' n' : ℕ} (hlt : n < S → n' < S')
    (h : ∀ t c : ℕ, t * n ≤ S * c → t * n' ≤ S' * c) : estDiv S n ≤ estDiv S' n' := by
  rcases Nat.lt_or_ge n S with hS | hS
  · rw [estDiv_of_lt hS, estDiv_of_lt (hlt hS)]
    refine List.countP_mono_left fun t _ => ?_
    simp only [decide_eq_true_eq]
    exact h t _
  · rw [estDiv_of_le hS]
    exact Nat.zero_le _

/-- The mean alone decides (40_estimator.md R121): one half of the equality of the estimates at an equal ratio. -/
theorem estDiv_le_of_ratio {S n S' n' : ℕ} (hn : 0 < n) (hn' : 0 < n') (h : S * n' = S' * n) :
    estDiv S n ≤ estDiv S' n' := by
  refine estDiv_le_estDiv (fun hS => ?_) fun t c ht => ?_
  · refine Nat.lt_of_mul_lt_mul_right (a := n) ?_
    rw [← h, Nat.mul_comm]
    exact Nat.mul_lt_mul_of_pos_right hS hn'
  · refine Nat.le_of_mul_le_mul_right (?_ : t * n' * n ≤ S' * c * n) hn
    calc t * n' * n = t * n * n' := Nat.mul_right_comm t n' n
      _ ≤ S * c * n' := Nat.mul_le_mul_right n' ht
      _ = S' * c * n := by rw [Nat.mul_right_comm, h, Nat.mul_right_comm]

theorem estDiv_eq_of_ratio {S n S' n' : ℕ} (hn : 0 < n) (hn' : 0 < n') (h : S * n' = S' * n) :
    estDiv S n = estDiv S' n' :=
  Nat.le_antisymm (estDiv_le_of_ratio hn hn' h) (estDiv_le_of_ratio hn' hn h.symm)

/-- A common factor cancels in both comparisons of `estDiv`, whatever the count is. -/
theorem estDiv_mul {c : ℕ} (hc : 0 < c) (S n : ℕ) : estDiv (c * S) (c * n) = estDiv S n := by
  simp only [estDiv, Nat.mul_le_mul_left_iff hc, Nat.mul_left_comm _ c, Nat.mul_assoc c]

/-- Settles O14: each clause compares the figures with two means. -/
theorem estimateMonotoneInTheMean : Obligations.EstimateMonotoneInTheMean := by
  unfold Obligations.EstimateMonotoneInTheMean
  refine ⟨fun S S' n hS => ?_, fun S n n' hn => ?_, fun c S n hc => estDiv_mul hc S n,
    fun S n S' n' hn hn' _ h => estDiv_eq_of_ratio hn hn' h⟩
  · exact estDiv_le_estDiv (fun h => h.trans_le hS) fun t c h => h.trans (Nat.mul_le_mul_right c hS)
  · exact estDiv_le_estDiv (fun h => hn.trans_lt h) fun t c h => (Nat.mul_le_mul_left t hn).trans h

/-! ## The commands -/

theorem execEst_of_tooLong (h : gapsTooLong s) : execEst s = .next (complete .len false s) := if_pos h

theorem execEst_of_empty (h : s.ngaps.toNat = 0) : execEst s = .next (complete .success true { s with rdiv := 0 }) := by
  have hl : ¬gapsTooLong s := by simp [gapsTooLong, h]
  rw [execEst, if_neg hl, if_pos h]

theorem execEst_of_gaps {gs : List Nat} (hl : ¬gapsTooLong s) (h0 : s.ngaps.toNat ≠ 0) (hg : gapOperand s = some gs) :
    execEst s = if 2 ^ Config.W ≤ gs.sum then .next (complete .ovf false s)
      else .next (complete .success false { s with rdiv := BitVec.ofNat 8 (estDiv gs.sum s.ngaps.toNat) }) := by
  rw [execEst, if_neg hl, if_neg h0, hg]
  rfl

/-- Settles O9: the equation of `execEst` for each case; the estimate is at most 63, so `RDIV` holds it. -/
theorem estWritesTheEstimate : Obligations.EstWritesTheEstimate := by
  unfold Obligations.EstWritesTheEstimate
  refine ⟨decode_encode .est, fun S n => estDiv_of_le, estDiv_largest_mean, by decide, fun s => ?_⟩
  refine ⟨execEst_of_tooLong, fun h0 => execEst_of_empty ((word_eq_zero_iff _).1 h0), fun gs hl h0 hg => ?_⟩
  have hn : s.ngaps.toNat ≠ 0 := mt (word_eq_zero_iff _).2 h0
  have hexec := execEst_of_gaps (Nat.not_lt.2 hl) hn hg
  refine ⟨fun hovf => hexec.trans (if_pos hovf), fun hsum => ⟨hexec.trans (if_neg (Nat.not_le.2 hsum)), ?_⟩⟩
  have hle : estDiv gs.sum s.ngaps.toNat ≤ 63 := estDiv_le_divMax (Nat.pos_of_ne_zero hn) hsum
  rw [BitVec.toNat_ofNat, Nat.mod_eq_of_lt (by omega)]

/-- Settles O10: `EST.O` looks at `DIV` alone. -/
theorem estOverrideCopiesDiv : Obligations.EstOverrideCopiesDiv := by
  unfold Obligations.EstOverrideCopiesDiv
  exact ⟨decode_encode .estO, fun s => ⟨fun h => if_neg (Nat.not_lt.2 h), fun h => if_pos h⟩⟩

/-! ## Runs of the sequencer to the completion -/

/-- Within `n` micro-steps the sequencer, started in `s`, ends as `o` says: in the same visible state, or with the same fault. The
bound is that of 70_reset_and_hazards.md R232. -/
def EndsWithin (n : Nat) (s : State) (o : Host.Outcome State Fault Refusal) : Prop :=
  ∃ k, k ≤ n ∧ SameVisible (seqRun k s) o

section
variable {j n : Nat} {o : Host.Outcome State Fault Refusal}

theorem EndsWithin.mono {m : Nat} (h : EndsWithin m s o) (hm : m ≤ n) : EndsWithin n s o := by
  obtain ⟨k, hk, hv⟩ := h
  exact ⟨k, hk.trans hm, hv⟩

theorem EndsWithin.exists_run (h : EndsWithin n s o) : ∃ k, SameVisible (seqRun k s) o := by
  obtain ⟨k, -, hv⟩ := h
  exact ⟨k, hv⟩

theorem EndsWithin.run (h : EndsWithin n t o) (hr : seqRun j s = .next t) : EndsWithin (j + n) s o := by
  obtain ⟨k, hk, hv⟩ := h
  exact ⟨j + k, Nat.add_le_add_left hk j, by rwa [seqRun_add hr]⟩

theorem EndsWithin.step (h : EndsWithin n t o) (hs : seqStep s = .next t) : EndsWithin (n + 1) s o :=
  Nat.add_comm 1 n ▸ h.run ((seqRun_one s).trans hs)

theorem endsWithin_fault {r : Fault} (hr : seqRun n s = .fault r) : EndsWithin n s (.fault r) :=
  ⟨n, le_rfl, by rw [hr]; rfl⟩

theorem endsWithin_finish (hp : s.phase = .finish) (hv : visible (seqFinish s) = visible t) : EndsWithin 1 s (.next t) :=
  ⟨1, le_rfl, by rw [seqRun_one, seqStep_finish hp]; exact hv⟩

end

/-- `FINISH` commits no result with a code other than success and the run-time errors of `DEC` (60_exceptions.md R196). -/
theorem seqResults_of_writesNothing (he : WritesNothing s.seq.e) : seqResults s = s := by
  obtain ⟨hs, ht, hr⟩ := he
  unfold seqResults
  split
  case h_9 => rfl
  -- The other rows ask for success or for a run-time error of `DEC`.
  all_goals simp_all only [ne_eq, not_true]

/-- A completion with an error code reads the same whatever no-data result was carried to it (10_state.md R37). -/
theorem statusCompleted_of_error {e : ECode} (he : e ≠ .success) (nd : Bool) :
    statusCompleted e nd = statusCompleted e false := by
  simp [statusCompleted, he]

/-- `raise E_X` in a micro-step ends as the command level's `raise`; `t` is `s` up to the phase and the hidden registers. -/
theorem endsWithin_raise {e : ECode} (he : WritesNothing e) (hv : visible (complete e false s) = visible (complete e false t)) :
    EndsWithin 1 (seqRaise e s) (.next (complete e false t)) := by
  refine endsWithin_finish rfl (Eq.trans ?_ hv)
  rw [seqFinish, seqResults_of_writesNothing he]
  simp only [visible, complete, seqRaise, statusCompleted_of_error he.1]

/-- A result is ready for `FINISH` (log entry 8). -/
def withResult (r : Nat) (s : State) : State := { s with seq := { s.seq with result := r } }

/-- `FINISH` of `EST` and of `EST.O` on success writes the carried result to `RDIV`. -/
theorem endsWithin_estimate {nd : Bool} {r : Nat} (hc : seqCommand s = .ok .est ∨ seqCommand s = .ok .estO)
    (he : s.seq.e = .success) (hv : visible (complete .success nd { s with rdiv := BitVec.ofNat 8 r }) = visible t) :
    EndsWithin 1 (seqToFinish nd (withResult r s)) (.next t) := by
  refine endsWithin_finish rfl (Eq.trans ?_ hv)
  have hres : seqResults (seqToFinish nd (withResult r s))
      = { seqToFinish nd (withResult r s) with rdiv := BitVec.ofNat 8 r } := by
    have hcmd : seqCommand (seqToFinish nd (withResult r s)) = seqCommand s := rfl
    have hcode : (seqToFinish nd (withResult r s)).seq.e = .success := he
    unfold seqResults
    rw [hcmd, hcode]
    rcases hc with hc | hc <;> rw [hc] <;> rfl
  rw [seqFinish, hres]
  show visible (complete s.seq.e nd _) = _
  rw [he]
  rfl

/-! ## The sum of the gaps -/

/-- `EST_SUM` has not yet read a gap (40_estimator.md R118). -/
def sumStart (s : State) : State := { s with phase := .estSum, seq := { s.seq with i := 0, sum := 0 } }

/-- `EST_SUM` has read every gap, with sum `S`, and hands over to `EST_LOG`. -/
def sumDone (S : Nat) (s : State) : State :=
  { s with phase := .estLog, seq := { s.seq with i := s.ngaps.toNat, sum := S } }

theorem seqRun_sumStart_of_unwritten (h0 : s.ngaps.toNat ≠ 0) (hg : gapOperand s = none) :
    seqRun s.ngaps.toNat (sumStart s) = .fault (.unwrittenCell .gapmem) := by
  obtain ⟨m, hm⟩ := Nat.exists_eq_succ_of_ne_zero h0
  rw [gapOperand, Option.map_eq_none_iff, hm] at hg
  rw [hm]
  exact estSum_run_fault m (sumStart s) rfl (by simp only [sumStart]; omega) hg

theorem seqRun_sumStart {gs : List Nat} (h0 : s.ngaps.toNat ≠ 0) (hg : gapOperand s = some gs) :
    seqRun s.ngaps.toNat (sumStart s) = .next
      (if 2 ^ Config.W ≤ gs.sum then seqRaise .ovf { sumDone gs.sum s with phase := .estSum } else sumDone gs.sum s) := by
  obtain ⟨m, hm⟩ := Nat.exists_eq_succ_of_ne_zero h0
  obtain ⟨ws, hws, rfl⟩ := Option.map_eq_some_iff.1 hg
  rw [hm] at hws
  have hrun := estSum_run m (sumStart s) ws rfl (by simp only [sumStart]; omega) hws
  simp only [sumStart, Nat.zero_add] at hrun
  rw [hm, sumStart]
  exact hrun

/-! ## The command at `CHECK` -/

/-- The state a command start leaves (10_state.md R36, R40): the word's fields are latched, the other hidden registers are 0. -/
structure AtCheck (c : BitVec 32) (s : State) : Prop where
  phase : s.phase = .check
  latched : s.seq = seqLatched c

theorem startCommand_atCheck (c : Nat) (s : State) : AtCheck (BitVec.ofNat 32 c) (startCommand c s) := ⟨rfl, rfl⟩

section
variable {c : BitVec 32}

theorem AtCheck.command (h : AtCheck c s) : seqCommand s = decode c := by
  rw [seqCommand, h.latched]
  rfl

theorem AtCheck.noCode (h : AtCheck c s) : s.seq.e = .success := by
  rw [h.latched]
  rfl

theorem AtCheck.noResult (h : AtCheck c s) : s.seq.result = 0 := by
  rw [h.latched]
  rfl

theorem AtCheck.step (h : AtCheck c s) : seqStep s = .next (seqCheck s) := by simp only [seqStep, h.phase]

/-- A pre-check that fails ends the command in two micro-steps (60_exceptions.md R194). -/
theorem AtCheck.raise_ends (h : AtCheck c s) {e : ECode} (he : WritesNothing e) (hc : seqCheck s = seqRaise e s) :
    EndsWithin 2 s (.next (complete e false s)) :=
  (endsWithin_raise he rfl).step (hc ▸ h.step)

/-! ## The sequencer's run of illegal words, `NOP`, `EST.O` and `EST` -/

theorem AtCheck.illegal_ends {err : DecodeError} (h : AtCheck c s) (hd : decode c = .error err) :
    EndsWithin 2 s (raise .cmd s) :=
  h.raise_ends (by decide) (by rw [seqCheck, h.command, hd])

theorem AtCheck.nop_ends (h : AtCheck c s) (hd : decode c = .ok .nop) : EndsWithin 2 s (execNop s) := by
  have hcheck : seqCheck s = seqToFinish false s := by rw [seqCheck, h.command, hd]
  have hcmd : seqCommand (seqToFinish false s) = .ok .nop := h.command.trans hd
  have hres : seqResults (seqToFinish false s) = seqToFinish false s := by rw [seqResults, hcmd]
  refine (endsWithin_finish rfl ?_).step (hcheck ▸ h.step)
  rw [seqFinish, hres]
  show visible (complete s.seq.e false _) = _
  rw [h.noCode]
  rfl

theorem AtCheck.estO_ends (h : AtCheck c s) (hd : decode c = .ok .estO) : EndsWithin 2 s (execEstO s) := by
  have hcheck : seqCheck s = seqCheckEstO s := by rw [seqCheck, h.command, hd]
  obtain ⟨hdiv, hexec⟩ | ⟨hdiv, hexec⟩ := execEstO_cases s
  · rw [hexec]
    exact h.raise_ends (by decide) (hcheck.trans (if_pos hdiv))
  · rw [hexec]
    have hcopy : seqStep s = .next (seqToFinish false (withResult s.div.toNat s)) := by
      rw [h.step, hcheck, seqCheckEstO, if_neg hdiv]
      rfl
    refine (endsWithin_estimate (.inr (h.command.trans hd)) h.noCode ?_).step hcopy
    rw [BitVec.ofNat_toNat, BitVec.setWidth_eq]

theorem sumOverflow_ends (S : Nat) :
    EndsWithin 1 (seqRaise .ovf { sumDone S s with phase := .estSum }) (.next (complete .ovf false s)) :=
  endsWithin_raise (by decide) rfl

/-- `EST_LOG` of `EST`: the estimate is carried to `FINISH`. -/
theorem sumDone_ends {S : Nat} (hc : seqCommand s = .ok .est) (he : s.seq.e = .success) :
    EndsWithin 2 (sumDone S s) (.next (complete .success false { s with rdiv := BitVec.ofNat 8 (estDiv S s.ngaps.toNat) })) := by
  have hcmd : seqCommand (sumDone S s) = .ok .est := hc
  have hlog : seqStep (sumDone S s) = .next (seqToFinish false (withResult (estDiv S s.ngaps.toNat) (sumDone S s))) := by
    show Host.Outcome.next (seqEstLog (sumDone S s)) = _
    rw [seqEstLog, hcmd]
    rfl
  refine EndsWithin.step ?_ hlog
  exact endsWithin_estimate (.inl hcmd) he rfl

theorem AtCheck.est_ends (h : AtCheck c s) (hd : decode c = .ok .est) : EndsWithin (s.ngaps.toNat + 3) s (execEst s) := by
  have hcmd : seqCommand s = .ok .est := h.command.trans hd
  have hcheck : seqCheck s = seqCheckEst s := by rw [seqCheck, hcmd]
  have hstart (hl : ¬gapsTooLong s) (h0 : s.ngaps.toNat ≠ 0) : seqStep s = .next (sumStart s) := by
    rw [h.step, hcheck, seqCheckEst, if_neg hl, if_neg h0]
    rfl
  obtain ⟨hl, hexec⟩ | ⟨hl, h0, hexec⟩ | ⟨hl, h0, hg, hexec⟩ | ⟨gs, hl, h0, hg, hS, hexec⟩ |
    ⟨gs, hl, h0, hg, hS, hexec⟩ := execEst_cases s
  all_goals rw [hexec]
  · exact (h.raise_ends (by decide) (hcheck.trans (if_pos hl))).mono (by omega)
  · have hempty : seqStep s = .next (seqToFinish true (withResult 0 s)) := by
      rw [h.step, hcheck, seqCheckEst, if_neg hl, if_pos h0, ← h.noResult]
      rfl
    exact ((endsWithin_estimate (.inl hcmd) h.noCode rfl).step hempty).mono (by omega)
  · refine EndsWithin.step ?_ (hstart hl h0)
    exact (endsWithin_fault (seqRun_sumStart_of_unwritten h0 hg)).mono (by omega)
  · have hsum := seqRun_sumStart h0 hg
    rw [if_pos hS] at hsum
    refine EndsWithin.step ?_ (hstart hl h0)
    exact ((sumOverflow_ends _).run hsum).mono (by omega)
  · have hsum := seqRun_sumStart h0 hg
    rw [if_neg (Nat.not_le.2 hS)] at hsum
    refine EndsWithin.step ?_ (hstart hl h0)
    exact (sumDone_ends hcmd h.noCode).run hsum

end

/-- Settles O52: each command's run from `CHECK`, in the cases of its command-level meaning. -/
theorem sequencerRefinesEstimator : Obligations.SequencerRefinesEstimator := by
  unfold Obligations.SequencerRefinesEstimator
  intro c s hb hd
  have h := startCommand_atCheck c s
  obtain hd | hd | hd | ⟨err, hd⟩ := hd
  · rw [runCommand_of_decode hb hd]
    exact (h.nop_ends hd).exists_run
  · rw [runCommand_of_decode hb hd]
    exact (h.est_ends hd).exists_run
  · rw [runCommand_of_decode hb hd]
    exact (h.estO_ends hd).exists_run
  · rw [runCommand_of_decode_error hb hd]
    exact (h.illegal_ends hd).exists_run

end Sys2Proof.Machine
end

section
/-! PROOFS, family 41_gap_sequence.md: running sums and gaps (R132, R133), and which sequences are the gaps of a bitmap (R131, R134). -/

namespace Sys2Proof.Machine

/-! ## Running sums -/

@[simp] theorem length_sumsFrom (start : Nat) (gs : List Nat) : (sumsFrom start gs).length = gs.length := by
  induction gs generalizing start with
  | nil => rfl
  | cons g gs ih => simp [sumsFrom, ih]

theorem getElem?_sumsFrom (start : Nat) {gs : List Nat} {i : Nat} (hi : i < gs.length) :
    (sumsFrom start gs)[i]? = some (start + (gs.take (i + 1)).sum) := by
  induction gs generalizing start i with
  | nil => cases hi
  | cons g gs ih =>
    cases i with
    | zero => simp [sumsFrom]
    | succ i => simp [sumsFrom, ih _ (Nat.lt_of_succ_lt_succ hi), Nat.add_assoc]

theorem getLastD_sumsFrom (start : Nat) (gs : List Nat) : (sumsFrom start gs).getLastD start = start + gs.sum := by
  induction gs generalizing start with
  | nil => rfl
  | cons g gs ih => rw [sumsFrom, List.getLastD_cons, ih, List.sum_cons, Nat.add_assoc]

/-- The sums increase strictly, from the start on, exactly when no gap is 0. -/
theorem pairwise_lt_sumsFrom (start : Nat) (gs : List Nat) :
    (start :: sumsFrom start gs).Pairwise (· < ·) ↔ ∀ g ∈ gs, 1 ≤ g := by
  rw [← List.isChain_iff_pairwise]
  induction gs generalizing start with
  | nil => simp [sumsFrom]
  | cons g gs ih => rw [sumsFrom, List.isChain_cons_cons, ih, List.forall_mem_cons, Nat.lt_add_right_iff_pos, Nat.succ_le_iff]

/-- The first gap may be 0: the first sum has none before it. -/
theorem pairwise_lt_runningSums (gs : List Nat) : (runningSums gs).Pairwise (· < ·) ↔ ∀ g ∈ gs.tail, 1 ≤ g := by
  cases gs with
  | nil => simp [runningSums, sumsFrom]
  | cons g gs => exact pairwise_lt_sumsFrom (0 + g) gs

/-- Of the sums the last is the largest, so it alone is compared with the bound. -/
theorem forall_sumsFrom_lt (start N : Nat) (gs : List Nat) :
    (∀ p ∈ sumsFrom start gs, p < N) ↔ gs = [] ∨ start + gs.sum < N := by
  induction gs generalizing start with
  | nil => simp [sumsFrom]
  | cons g gs ih =>
    rw [sumsFrom, List.forall_mem_cons, ih, List.sum_cons]
    constructor
    · rintro ⟨hg, rfl | hs⟩
      · exact .inr hg
      · exact .inr (by omega)
    · rintro (h | h)
      · cases h
      · exact ⟨by omega, .inr (by omega)⟩

/-- The gaps after the first, by index as in R134, and as members of the tail. -/
theorem gapsAfterFirst_pos_iff (gs : List Nat) :
    (∀ i, 0 < i → i < gs.length → 1 ≤ gs.getD i 0) ↔ ∀ g ∈ gs.tail, 1 ≤ g := by
  rw [List.forall_mem_iff_getElem]
  constructor
  · intro h i hi
    rw [List.length_tail] at hi
    have := h (i + 1) (Nat.succ_pos i) (by omega)
    rwa [List.getD_eq_getElem _ _ (by omega), ← List.getElem_tail] at this
  · intro h i h0 hi
    obtain ⟨i, rfl⟩ := Nat.exists_eq_succ_of_ne_zero h0.ne'
    have := h i (by rw [List.length_tail]; omega)
    rwa [List.getElem_tail, ← List.getD_eq_getElem _ 0 hi] at this

/-! ## Gaps and running sums are inverse -/

@[simp] theorem length_gapsFrom (last : Nat) (ps : List Nat) : (gapsFrom last ps).length = ps.length := by
  induction ps generalizing last with
  | nil => rfl
  | cons p ps ih => simp [gapsFrom, ih]

theorem getElem?_gapsOf_zero (ps : List Nat) : (gapsOf ps)[0]? = ps[0]? := by
  cases ps with
  | nil => rfl
  | cons p ps => rfl

/-- Differences invert sums of any naturals; only the other order asks for increasing positions. -/
theorem gapsFrom_sumsFrom (start : Nat) (gs : List Nat) : gapsFrom start (sumsFrom start gs) = gs := by
  induction gs generalizing start with
  | nil => rfl
  | cons g gs ih => rw [sumsFrom, gapsFrom, ih, Nat.add_sub_cancel_left]

theorem gapsOf_runningSums (gs : List Nat) : gapsOf (runningSums gs) = gs := gapsFrom_sumsFrom 0 gs

theorem runningSums_gapsOf {ps : List Nat} (h : ps.Pairwise (· < ·)) : runningSums (gapsOf ps) = ps :=
  sumsFrom_gapsFrom 0 ps (List.pairwise_cons.2 ⟨fun p _ => Nat.zero_le p, h.imp Nat.le_of_lt⟩)

theorem gapsOf_eq_iff {ps gs : List Nat} (h : ps.Pairwise (· < ·)) : gapsOf ps = gs ↔ ps = runningSums gs := by
  constructor
  · rintro rfl
    exact (runningSums_gapsOf h).symm
  · rintro rfl
    exact gapsOf_runningSums gs

theorem getLastD_runningSums (gs : List Nat) : (runningSums gs).getLastD 0 = gs.sum :=
  (getLastD_sumsFrom 0 gs).trans (Nat.zero_add _)

/-! ## The set positions of a bitmap -/

theorem pairwise_lt_positions (b : List Bool) : (positions b).Pairwise (· < ·) := List.pairwise_lt_range.filter _

theorem mem_positions {b : List Bool} {p : Nat} : p ∈ positions b ↔ b[p]? = some true := by
  rw [positions, List.mem_filter, List.mem_range, List.getElem?_eq_some_iff]
  constructor
  · rintro ⟨hp, hb⟩
    exact ⟨hp, by rwa [List.getD_eq_getElem _ _ hp] at hb⟩
  · rintro ⟨hp, hb⟩
    exact ⟨hp, by rwa [List.getD_eq_getElem _ _ hp]⟩

theorem lt_length_of_mem_positions {b : List Bool} {p : Nat} (h : p ∈ positions b) : p < b.length :=
  List.mem_range.1 (List.mem_of_mem_filter h)

theorem length_positions_le (b : List Bool) : (positions b).length ≤ b.length :=
  (List.length_filter_le _ _).trans_eq List.length_range

/-- The bitmap of `N` bits with the positions of `ps` set. -/
def bitmapOf (N : Nat) (ps : List Nat) : List Bool := (List.range N).map (decide <| · ∈ ps)

@[simp] theorem length_bitmapOf (N : Nat) (ps : List Nat) : (bitmapOf N ps).length = N := by simp [bitmapOf]

theorem mem_positions_bitmapOf {N p : Nat} {ps : List Nat} : p ∈ positions (bitmapOf N ps) ↔ p < N ∧ p ∈ ps := by
  simp [mem_positions, bitmapOf, List.getElem?_eq_some_iff]

/-- The positions of bitmaps of `N` bits are the strictly increasing sequences below `N` (41_gap_sequence.md R131). -/
theorem exists_positions_eq_iff {N : Nat} {ps : List Nat} :
    (∃ b : List Bool, b.length = N ∧ positions b = ps) ↔ ps.Pairwise (· < ·) ∧ ∀ p ∈ ps, p < N := by
  constructor
  · rintro ⟨b, rfl, rfl⟩
    exact ⟨pairwise_lt_positions b, fun p => lt_length_of_mem_positions⟩
  · rintro ⟨hps, hN⟩
    refine ⟨bitmapOf N ps, length_bitmapOf N ps, (pairwise_lt_positions _).eq_of_mem_iff hps fun p => ?_⟩
    rw [mem_positions_bitmapOf]
    exact and_iff_right_of_imp (hN p)

theorem head_eq_zero_iff_mem {ps : List Nat} (h : ps.Pairwise (· < ·)) : ps[0]? = some 0 ↔ 0 ∈ ps := by
  cases ps with
  | nil => simp
  | cons p ps =>
    have hne : 0 ∉ ps := fun h0 => Nat.not_lt_zero p (List.rel_of_pairwise_cons h h0)
    simp [hne, eq_comm]

/-- Settles O25: both inversions are inductions on the sequence; the last element of the sums is their total. -/
theorem runningSumsInvertGaps : Obligations.RunningSumsInvertGaps := by
  unfold Obligations.RunningSumsInvertGaps
  refine ⟨fun gs => ⟨length_sumsFrom 0 gs, fun i hi => ?_⟩, fun ps => runningSums_gapsOf, fun gs _ => gapsOf_runningSums gs,
    getLastD_runningSums, fun b => ?_⟩
  · rw [runningSums, getElem?_sumsFrom 0 hi, Nat.zero_add]
  · rw [← getLastD_runningSums, runningSums_gapsOf (pairwise_lt_positions b)]

/-! ## The gap sequences of bitmaps -/

/-- `gs` is the gaps of a bitmap exactly when its running sums are the positions of one. -/
theorem exists_gapsOf_positions_eq_iff {N : Nat} {gs : List Nat} :
    (∃ b : List Bool, b.length = N ∧ gapsOf (positions b) = gs) ↔
      (∀ g ∈ gs.tail, 1 ≤ g) ∧ (gs = [] ∨ gs.sum < N) := by
  calc (∃ b : List Bool, b.length = N ∧ gapsOf (positions b) = gs)
      ↔ ∃ b : List Bool, b.length = N ∧ positions b = runningSums gs := by
        simp only [gapsOf_eq_iff (pairwise_lt_positions _)]
    _ ↔ (runningSums gs).Pairwise (· < ·) ∧ ∀ p ∈ runningSums gs, p < N := exists_positions_eq_iff
    _ ↔ (∀ g ∈ gs.tail, 1 ≤ g) ∧ (gs = [] ∨ gs.sum < N) := by
        rw [pairwise_lt_runningSums, runningSums, forall_sumsFrom_lt, Nat.zero_add]

theorem gapsOf_positions_sum_lt (b : List Bool) : gapsOf (positions b) = [] ∨ (gapsOf (positions b)).sum < b.length :=
  (exists_gapsOf_positions_eq_iff.1 ⟨b, rfl, rfl⟩).2

theorem lt_length_of_mem_gapsOf_positions {b : List Bool} {g : Nat} (h : g ∈ gapsOf (positions b)) : g < b.length :=
  (List.le_sum_of_mem h).trans_lt ((gapsOf_positions_sum_lt b).resolve_left (List.ne_nil_of_mem h))

/-- Settles O26: `Prefix` carries the characterisation of the positions of bitmaps to their gap sequences. -/
theorem gapSequencesOfBitmaps : Obligations.GapSequencesOfBitmaps := by
  unfold Obligations.GapSequencesOfBitmaps
  refine ⟨fun N gs => ?_, fun b => ⟨?_, ?_, fun g => lt_length_of_mem_gapsOf_positions, fun hN => ⟨fun g hg => ?_, ?_⟩⟩⟩
  · rw [exists_gapsOf_positions_eq_iff, gapsAfterFirst_pos_iff]
    constructor
    · rintro ⟨hpos, hnil | hsum⟩
      · exact .inl hnil
      · exact .inr ⟨hpos, hsum⟩
    · rintro (rfl | ⟨hpos, hsum⟩)
      · simp
      · exact ⟨hpos, .inr hsum⟩
  · rw [getElem?_gapsOf_zero, head_eq_zero_iff_mem (pairwise_lt_positions b), mem_positions]
  · exact (length_gapsFrom 0 _).trans_le (length_positions_le b)
  · exact (lt_length_of_mem_gapsOf_positions hg).trans_le hN
  · obtain hnil | hsum := gapsOf_positions_sum_lt b
    · rw [hnil]
      decide
    · exact hsum.trans_le hN

end Sys2Proof.Machine
end

section
/-! PROOFS, family 42_encoder.md: the payload's size (R153), what `ENC`, `CMPR` and `CMPR.O` write (R140 to R149), and the
sequencer's run of them (R150). -/

namespace Sys2Proof.Machine

variable {s t : State}

/-! ## The size of a payload -/

/-- The unary parts, and `d + 1` bits more for each gap (30_encoding.md R81, R88). -/
theorem totalBits_eq (gs : List Nat) (d : Nat) :
    totalBits gs d = gs.length * (d + 1) + (gs.map (· / 2 ^ d)).sum := by
  induction gs with
  | nil => simp [totalBits]
  | cons g gs ih =>
    rw [totalBits_cons, ih, codewordLength, List.length_cons, List.map_cons, List.sum_cons, Nat.succ_mul]
    omega

theorem sum_map_div_le (gs : List Nat) (m : Nat) : (gs.map (· / m)).sum ≤ gs.sum / m := by
  induction gs with
  | nil => exact Nat.zero_le _
  | cons g gs ih =>
    rw [List.map_cons, List.sum_cons, List.sum_cons]
    exact (Nat.add_le_add_left ih _).trans Nat.div_add_div_le_add_div

theorem length_le_totalBits (gs : List Nat) (d : Nat) : gs.length ≤ totalBits gs d := by
  rw [totalBits_eq]
  exact (Nat.le_mul_of_pos_right _ d.succ_pos).trans (Nat.le_add_right _ _)

/-- Settles O20: a sum of quotients is at most the quotient of the sum. -/
theorem totalBitsBounds : Obligations.TotalBitsBounds := by
  unfold Obligations.TotalBitsBounds
  refine fun gs d => ⟨length_le_totalBits gs d, ?_, ?_, ?_⟩
  · rw [totalBits_eq]
    simp [Nat.add_comm]
  · rw [totalBits_eq]
    exact Nat.le_add_right _ _
  · rw [totalBits_eq]
    exact Nat.add_le_add_left (sum_map_div_le gs _) _

/-- An operand of at least one gap has a payload of at least one byte. -/
theorem payloadBytes_pos {gs : List Nat} (h0 : s.ngaps.toNat ≠ 0) (hg : gapOperand s = some gs) (d : Nat) :
    0 < ceilDiv8 (totalBits gs d) := by
  have hlen := length_le_totalBits gs d
  rw [gapOperand_length hg] at hlen
  exact ceilDiv8_pos (by omega)

/-! ## The commands up to `EncodeCore` -/

theorem exec_eq_encodeWithDiv {i : Instr} (hi : i = .enc ∨ i = .cmprO) (s : State) : exec i s = encodeWithDiv s := by
  rcases hi with rfl | rfl <;> rfl

/-- Settles O18: both commands name the one function `encodeWithDiv`. -/
theorem cmprOverrideIsEnc : Obligations.CmprOverrideIsEnc := by
  unfold Obligations.CmprOverrideIsEnc
  exact fun s => (exec_eq_encodeWithDiv (.inr rfl) s).trans (exec_eq_encodeWithDiv (.inl rfl) s).symm

theorem encodeWithDiv_of_divTooLarge (h : divTooLarge s) : encodeWithDiv s = raise .div s := if_pos h

theorem encodeWithDiv_of_empty (hd : ¬divTooLarge s) (h0 : s.ngaps.toNat = 0) : encodeWithDiv s = emptyResult s := by
  have hl : ¬gapsTooLong s := by simp [gapsTooLong, h0]
  rw [encodeWithDiv, if_neg hd, if_neg hl, if_pos h0]

theorem execCmpr_of_empty (h0 : s.ngaps.toNat = 0) : execCmpr s = emptyResult s := by
  have hl : ¬gapsTooLong s := by simp [gapsTooLong, h0]
  rw [execCmpr, if_neg hl, if_pos h0]

/-- Settles O16: the two pre-checks come first, and no gap is never too many. -/
theorem emptyGapSequenceGivesEmptyPayload : Obligations.EmptyGapSequenceGivesEmptyPayload := by
  unfold Obligations.EmptyGapSequenceGivesEmptyPayload
  intro i s hn hi
  have h0 : s.ngaps.toNat = 0 := (word_eq_zero_iff _).1 hn
  have hi' (hc : i ≠ .cmpr) : i = .enc ∨ i = .cmprO := by simpa [hc] using hi
  refine ⟨fun hd => ?_, fun hc h200 => ?_⟩
  · by_cases hc : i = .cmpr
    · rw [hc]
      exact execCmpr_of_empty h0
    · rw [exec_eq_encodeWithDiv (hi' hc)]
      exact encodeWithDiv_of_empty (Nat.not_lt.2 (hd.resolve_left hc)) h0
  · rw [exec_eq_encodeWithDiv (hi' hc)]
    exact encodeWithDiv_of_divTooLarge (by rw [divTooLarge, h200]; decide)

section
variable {i : Instr} {d : Nat} {gs : List Nat}

/-- Command `i` encodes the gaps `gs` with divisor `d`: `DIV`, or for `CMPR` the estimate (42_encoder.md R140 to R142). -/
abbrev EncodesWith (i : Instr) (s : State) (gs : List Nat) (d : Nat) : Prop :=
  ((i = .enc ∨ i = .cmprO) ∧ s.div.toNat ≤ 63 ∧ d = s.div.toNat) ∨
    (i = .cmpr ∧ gs.sum < 2 ^ 64 ∧ d = estDiv gs.sum s.ngaps.toNat)

theorem EncodesWith.le_divMax (h : EncodesWith i s gs d) (h0 : s.ngaps.toNat ≠ 0) : d ≤ Config.divMax := by
  obtain ⟨-, hd, rfl⟩ | ⟨-, hS, rfl⟩ := h
  · exact hd
  · exact estDiv_le_divMax (Nat.pos_of_ne_zero h0) hS

/-- Past their pre-checks the three commands are `EncodeCore` (42_encoder.md R143). -/
theorem EncodesWith.exec_eq (h : EncodesWith i s gs d) (hl : ¬gapsTooLong s) (h0 : s.ngaps.toNat ≠ 0)
    (hg : gapOperand s = some gs) : exec i s = encodeCore d gs s := by
  obtain ⟨hi, hd, rfl⟩ | ⟨rfl, hS, rfl⟩ := h
  · have hdiv : ¬divTooLarge s := Nat.not_lt.2 hd
    rw [exec_eq_encodeWithDiv hi, encodeWithDiv, if_neg hdiv, if_neg hl, if_neg h0, hg]
  · show execCmpr s = _
    rw [execCmpr, if_neg hl, if_neg h0, hg]
    exact if_neg (Nat.not_le.2 hS)

theorem encodeCore_of_tooLarge (h : s.params.strBytes < ceilDiv8 (totalBits gs d)) :
    encodeCore d gs s = .next (complete .cap false s) := if_pos h

theorem encodeCore_of_fits (h : ceilDiv8 (totalBits gs d) ≤ s.params.strBytes) :
    encodeCore d gs s = .next (complete .success false (encodeResult d gs s)) := if_neg (Nat.not_lt.2 h)

end

/-- Settles O17: `EncodeCore` checks the capacity before it writes. -/
theorem payloadTooLargeIsECap : Obligations.PayloadTooLargeIsECap := by
  unfold Obligations.PayloadTooLargeIsECap
  intro i s gs d h hl hn hg hcap
  have h0 : s.ngaps.toNat ≠ 0 := mt (word_eq_zero_iff _).2 hn
  exact (EncodesWith.exec_eq h (Nat.not_lt.2 hl) h0 hg).trans (encodeCore_of_tooLarge hcap)

/-! ## What a successful encode leaves -/

theorem writeRange_epoch {α : Type} (vs : List α) (m : Memory α) (a : Nat) : (m.writeRange a vs).epoch = m.epoch := by
  induction vs generalizing m a with
  | nil => rfl
  | cons v vs ih => exact ih (m.write a v) (a + 1)

theorem emitGap_epoch (d : Nat) (acc : Memory Byte × Nat) (g : Nat) : (emitGap d acc g).1.epoch = acc.1.epoch :=
  (putBits_epoch _ _ _ _).trans (setBit_epoch _ _)

theorem foldl_emitGap_epoch (d : Nat) (gs : List Nat) (acc : Memory Byte × Nat) :
    (gs.foldl (emitGap d) acc).1.epoch = acc.1.epoch := by
  induction gs generalizing acc with
  | nil => rfl
  | cons g gs ih => exact (ih _).trans (emitGap_epoch d acc g)

theorem emitStream_epoch (m : Memory Byte) (len d : Nat) (gs : List Nat) : (emitStream m len d gs).epoch = m.epoch :=
  (foldl_emitGap_epoch d gs _).trans (writeRange_epoch _ m 0)

/-- The padding bits of the last payload byte are 0 (42_encoder.md R149). -/
theorem getBit_emitStream_padding (m : Memory Byte) {len j : Nat} (d : Nat) (gs : List Nat) (hlo : totalBits gs d ≤ j)
    (hhi : j < 8 * len) : getBit (emitStream m len d gs) j = some false := by
  rw [getBit_emitStream_inside m d gs hhi, List.getD_eq_default _ _ (by rwa [encBits_length])]

section
variable {d : Nat} {gs : List Nat} (hw : s.params.WF) (hfit : ceilDiv8 (totalBits gs d) ≤ s.params.strBytes)
include hw hfit

/-- A payload that fits an accepted configuration has its length, and its number of bits, in 64 bits (00_scope.md R7). -/
theorem encodeResult_strlen_toNat : (encodeResult d gs s).strlen.toNat = ceilDiv8 (totalBits gs d) := by
  obtain ⟨-, -, -, hstr, -, -⟩ := hw
  rw [encodeResult_strlen, BitVec.toNat_ofNat, Nat.mod_eq_of_lt]
  norm_num at hstr
  omega

theorem encodeResult_totbits_toNat : (encodeResult d gs s).totbits.toNat = totalBits gs d := by
  obtain ⟨-, -, -, hstr, -, -⟩ := hw
  have hbits := le_mul_ceilDiv8 (totalBits gs d)
  rw [encodeResult_totbits, BitVec.toNat_ofNat, Nat.mod_eq_of_lt]
  norm_num at hstr
  omega

end

/-- A legal divisor is read back from the 8 bits of `RDIV`. -/
theorem toNat_ofNat_of_le_divMax {d : Nat} (h : d ≤ Config.divMax) : (BitVec.ofNat 8 d).toNat = d := by
  rw [BitVec.toNat_ofNat, Nat.mod_eq_of_lt]
  exact h.trans_lt (by decide)

/-- Settles O15: the command is `EncodeCore`, and `emitStream` holds the payload in its first `STRLEN` bytes. -/
theorem encodeWritesThePayload : Obligations.EncodeWritesThePayload := by
  unfold Obligations.EncodeWritesThePayload
  intro i s gs d h hw hl hn hg hfit
  have h0 : s.ngaps.toNat ≠ 0 := mt (word_eq_zero_iff _).2 hn
  refine ⟨complete .success false (encodeResult d gs s),
    (EncodesWith.exec_eq h (Nat.not_lt.2 hl) h0 hg).trans (encodeCore_of_fits hfit), rfl, ?_⟩
  simp only [complete_totbits, complete_strlen, complete_rdiv, complete_strmem, encodeResult_totbits_toNat hw hfit,
    encodeResult_strlen_toNat hw hfit, encodeResult_rdiv, encodeResult_strmem, true_and]
  exact ⟨payloadBytes_pos h0 hg d, toNat_ofNat_of_le_divMax (EncodesWith.le_divMax h h0),
    fun k hk => read_emitStream_inside s.strmem d gs hk, fun j => getBit_emitStream_padding s.strmem d gs,
    fun k hk => read_emitStream_outside s.strmem d gs (le_mul_ceilDiv8 _) hk, emitStream_epoch _ _ _ _⟩

/-! ## `CMPR` is `EST`, then `ENC` with the estimate -/

/-- `EST` has completed with the estimate `e`, and the host has copied `RDIV` to `DIV`. -/
def estimateCopied (nd : Bool) (e : BitVec 8) (s : State) : State :=
  { complete .success nd { s with rdiv := e } with div := e }

/-- `EncodeCore` reads neither `DIV` nor `RDIV` nor `STATUS`, and where it succeeds it writes the last two. -/
theorem encodeCore_of_estimateCopied {nd : Bool} {e : BitVec 8} {d : Nat} {gs : List Nat} {u : State}
    (h : encodeCore d gs (estimateCopied nd e s) = .next u) (hu : u.status.ecode = .success) :
    encodeCore d gs s = .next { u with div := s.div } := by
  obtain ⟨-, hcore⟩ | ⟨hfit, hcore⟩ := encodeCore_cases d gs (estimateCopied nd e s)
  all_goals cases hcore.symm.trans h
  · cases hu
  · exact encodeCore_of_fits hfit

/-- Settles O19: by the cases of `EST`. With no gap both ways give the empty result; else both are `EncodeCore` with the
estimate. -/
theorem cmprIsEstThenEnc : Obligations.CmprIsEstThenEnc := by
  unfold Obligations.CmprIsEstThenEnc
  intro s t u hest ht henc hu
  obtain ⟨-, h⟩ | ⟨-, h0, h⟩ | ⟨-, -, -, h⟩ | ⟨gs, -, -, -, -, h⟩ | ⟨gs, hl, h0, hg, hS, h⟩ := execEst_cases s
  all_goals cases h.symm.trans hest
  · cases ht
  · have hempty : encodeWithDiv (estimateCopied true 0 s) = emptyResult (estimateCopied true 0 s) :=
      encodeWithDiv_of_empty (Nat.not_lt.2 (Nat.zero_le _)) h0
    cases hempty.symm.trans henc
    exact execCmpr_of_empty h0
  · cases ht
  · have hle := estDiv_le_divMax (Nat.pos_of_ne_zero h0) hS
    have hdiv := toNat_ofNat_of_le_divMax hle
    have hcmpr : EncodesWith .cmpr s gs (estDiv gs.sum s.ngaps.toNat) := .inr ⟨rfl, hS, rfl⟩
    have hcopy : EncodesWith .enc (estimateCopied false (BitVec.ofNat 8 (estDiv gs.sum s.ngaps.toNat)) s) gs
        (estDiv gs.sum s.ngaps.toNat) := .inl ⟨.inl rfl, hdiv.trans_le hle, hdiv.symm⟩
    rw [hcmpr.exec_eq hl h0 hg]
    exact encodeCore_of_estimateCopied ((hcopy.exec_eq hl h0 hg).symm.trans henc) hu

/-! ## The phases of the encoder -/

section
variable {d : Nat} {gs : List Nat}

/-- `ENC_SIZE` has not yet read a gap (42_encoder.md R150). -/
def sizeStart (d : Nat) (s : State) : State := { s with phase := .encSize, seq := { s.seq with d := d, i := 0, tot := 0 } }

/-- `ENC_SIZE` has counted `tot` bits, which fit, and hands over to `ENC_ZERO`. -/
def sizeDone (d tot : Nat) (s : State) : State :=
  { s with phase := .encZero, seq := { s.seq with d := d, i := 0, tot := tot } }

/-- `ENC_ZERO` has zeroed the payload range and hands over to `ENC_EMIT`. -/
def zeroDone (d tot : Nat) (s : State) : State :=
  { s with
    phase := .encEmit
    strmem := s.strmem.fill 0 (ceilDiv8 tot) 0
    seq := { s.seq with d := d, i := 0, tot := tot, idx := 0 } }

/-- `ENC_EMIT` has emitted every gap and hands over to `FINISH`. -/
def emitDone (d : Nat) (gs : List Nat) (s : State) : State :=
  { s with
    phase := .finish
    strmem := emitStream s.strmem (ceilDiv8 (totalBits gs d)) d gs
    seq := { s.seq with d := d, i := s.ngaps.toNat, tot := totalBits gs d, idx := totalBits gs d, nd := false } }

theorem seqRun_sizeStart_of_unwritten (h0 : s.ngaps.toNat ≠ 0) (hg : gapOperand s = none) :
    seqRun s.ngaps.toNat (sizeStart d s) = .fault (.unwrittenCell .gapmem) := by
  obtain ⟨m, hm⟩ := Nat.exists_add_one_eq.2 (Nat.pos_of_ne_zero h0)
  rw [gapOperand, Option.map_eq_none_iff, ← hm] at hg
  rw [← hm]
  exact encSize_run_fault m (sizeStart d s) rfl ((Nat.zero_add _).trans hm) hg

theorem seqRun_sizeStart (h0 : s.ngaps.toNat ≠ 0) (hg : gapOperand s = some gs) :
    seqRun s.ngaps.toNat (sizeStart d s) = .next
      (if s.params.strBytes < ceilDiv8 (totalBits gs d) then
        seqRaise .cap { s with phase := .encSize, seq := { s.seq with d := d, i := s.ngaps.toNat, tot := totalBits gs d } }
      else sizeDone d (totalBits gs d) s) := by
  obtain ⟨m, hm⟩ := Nat.exists_add_one_eq.2 (Nat.pos_of_ne_zero h0)
  obtain ⟨ws, hws, rfl⟩ := Option.map_eq_some_iff.1 hg
  rw [← hm] at hws
  have hrun := encSize_run m (sizeStart d s) ws rfl ((Nat.zero_add _).trans hm) hws
  rw [hm] at hrun
  simp only [sizeStart, Nat.zero_add] at hrun
  exact hrun

theorem seqRun_sizeDone {tot : Nat} (ht : 0 < ceilDiv8 tot) :
    seqRun (ceilDiv8 tot) (sizeDone d tot s) = .next (zeroDone d tot s) := by
  obtain ⟨m, hm⟩ := Nat.exists_add_one_eq.2 ht
  have hrun := encZero_run m (sizeDone d tot s) rfl ((Nat.zero_add _).trans hm)
  rw [hm] at hrun
  exact hrun

theorem seqRun_zeroDone (h0 : s.ngaps.toNat ≠ 0) (hg : gapOperand s = some gs) :
    seqRun s.ngaps.toNat (zeroDone d (totalBits gs d) s) = .next (emitDone d gs s) := by
  obtain ⟨m, hm⟩ := Nat.exists_add_one_eq.2 (Nat.pos_of_ne_zero h0)
  obtain ⟨ws, hws, hgs⟩ := Option.map_eq_some_iff.1 hg
  have hidx : (gs.foldl (emitGap d) (s.strmem.fill 0 (ceilDiv8 (totalBits gs d)) 0, 0)).2 = totalBits gs d :=
    (emitLoop_spec d gs _).1.trans (Nat.zero_add _)
  rw [← hm] at hws
  have hrun := encEmit_run m (zeroDone d (totalBits gs d) s) ws rfl ((Nat.zero_add _).trans hm) hws
  rw [hm, hgs] at hrun
  simp only [zeroDone, hidx] at hrun
  exact hrun

/-! ## `FINISH` of the encoder -/

/-- On success `FINISH` of an encoder command writes the payload's lengths and the divisor (42_encoder.md R150). -/
theorem seqFinish_of_payload {i : Instr} (hi : WritesPayload i) (hc : seqCommand s = .ok i) (he : s.seq.e = .success) :
    seqFinish s = complete .success s.seq.nd
      { s with
        strlen := BitVec.ofNat 64 (ceilDiv8 s.seq.tot)
        totbits := BitVec.ofNat 64 s.seq.tot
        rdiv := BitVec.ofNat 8 s.seq.d } := by
  unfold seqFinish seqResults
  rw [hc, he]
  rcases hi with rfl | rfl | rfl <;> rfl

variable {i : Instr} (hi : WritesPayload i) (hc : seqCommand s = .ok i) (he : s.seq.e = .success)
  (h0 : s.ngaps.toNat ≠ 0) (hg : gapOperand s = some gs)

include h0 hg in
/-- A payload that does not fit is found when `ENC_SIZE` has read the last gap (42_encoder.md R146). -/
theorem sizeStart_ends_of_tooLarge (hcap : s.params.strBytes < ceilDiv8 (totalBits gs d))
    (hv : visible (complete .cap false s) = visible (complete .cap false t)) :
    EndsWithin (s.ngaps.toNat + 1) (sizeStart d s) (.next (complete .cap false t)) := by
  have hsize := seqRun_sizeStart (d := d) h0 hg
  rw [if_pos hcap] at hsize
  refine EndsWithin.run ?_ hsize
  exact endsWithin_raise (by decide) hv

include hi hc he h0 hg in
/-- `ENC_SIZE`, `ENC_ZERO`, `ENC_EMIT` and `FINISH` leave what `EncodeCore` leaves. -/
theorem sizeStart_ends_of_fits (hfit : ceilDiv8 (totalBits gs d) ≤ s.params.strBytes)
    (hv : visible (complete .success false (encodeResult d gs s)) = visible t) :
    EndsWithin (s.ngaps.toNat + (ceilDiv8 (totalBits gs d) + (s.ngaps.toNat + 1))) (sizeStart d s) (.next t) := by
  have hsize := seqRun_sizeStart (d := d) h0 hg
  rw [if_neg (Nat.not_lt.2 hfit)] at hsize
  refine (EndsWithin.run ?_ (seqRun_sizeDone (payloadBytes_pos h0 hg d))).run hsize
  refine (endsWithin_finish rfl ?_).run (seqRun_zeroDone h0 hg)
  rw [seqFinish_of_payload (s := emitDone d gs s) hi hc he]
  exact hv

end

/-! ## The bound on a command's micro-steps -/

/-- The sequencer ends as `o` says and, where `o` is a completion state of an accepted configuration, within the bound of
70_reset_and_hazards.md R232. -/
def EndsInBound (i : Instr) (s : State) (o : Host.Outcome State Fault Refusal) : Prop :=
  ∃ n, EndsWithin n s o ∧ ∀ t, o = .next t → t.params.WF → n ≤ microStepBound i t

section
variable {i : Instr} {n : Nat}

theorem EndsInBound.exists_run {o : Host.Outcome State Fault Refusal} (h : EndsInBound i s o) :
    ∃ k, SameVisible (seqRun k s) o := by
  obtain ⟨n, hn, -⟩ := h
  exact hn.exists_run

theorem EndsWithin.inBound (h : EndsWithin n s (.next t)) (hb : t.params.WF → n ≤ microStepBound i t) :
    EndsInBound i s (.next t) :=
  ⟨n, h, fun u hu hw => by cases hu; exact hb hw⟩

theorem two_le_microStepBound (i : Instr) (t : State) : 2 ≤ microStepBound i t := by
  cases i <;> simp only [microStepBound] <;> omega

theorem EndsWithin.fault_inBound {r : Fault} (h : EndsWithin n s (.fault r)) : EndsInBound i s (.fault r) :=
  ⟨n, h, fun _ ht => nomatch ht⟩

end

/-! ## The sequencer's run of `ENC`, `CMPR.O` and `CMPR` -/

section
variable {c : BitVec 32} {i : Instr}

/-- With no gap the hidden `tot` and `d` are still 0, and so are the results (42_encoder.md R144). -/
theorem AtCheck.empty_ends (h : AtCheck c s) (hi : WritesPayload i) (hd : decode c = .ok i)
    (hcheck : seqCheck s = seqToFinish true s) : EndsWithin 2 s (emptyResult s) := by
  have htot : s.seq.tot = 0 := by rw [h.latched]; rfl
  have hd0 : s.seq.d = 0 := by rw [h.latched]; rfl
  refine (endsWithin_finish rfl ?_).step (hcheck ▸ h.step)
  rw [seqFinish_of_payload (s := seqToFinish true s) hi (h.command.trans hd) h.noCode]
  simp only [seqToFinish, htot, hd0]
  rfl

theorem AtCheck.enc_ends (h : AtCheck c s) (hi : i = .enc ∨ i = .cmprO) (hd : decode c = .ok i) :
    EndsInBound i s (exec i s) := by
  have hw : WritesPayload i := hi.imp_right .inr
  have hcmd : seqCommand s = .ok i := h.command.trans hd
  have hbound (t : State) : microStepBound i t = 2 * t.ngaps.toNat + t.strlen.toNat + 2 := by
    rcases hi with rfl | rfl <;> rfl
  have hcheck : seqCheck s = seqCheckEnc s := by
    rw [seqCheck, hcmd]
    rcases hi with rfl | rfl <;> rfl
  rw [exec_eq_encodeWithDiv hi]
  have hstart (hdiv : ¬divTooLarge s) (hl : ¬gapsTooLong s) (h0 : s.ngaps.toNat ≠ 0) :
      seqStep s = .next (sizeStart s.div.toNat s) := by
    rw [h.step, hcheck, seqCheckEnc, if_neg hdiv, if_neg hl, if_neg h0]
    rfl
  obtain ⟨hdiv, hexec⟩ | ⟨hdiv, hl, hexec⟩ | ⟨hdiv, hl, h0, hexec⟩ | ⟨hdiv, hl, h0, hg, hexec⟩ |
    ⟨gs, hdiv, hl, h0, hg, hexec⟩ := encodeWithDiv_cases s
  all_goals rw [hexec]
  · refine (h.raise_ends (by decide) ?_).inBound fun _ => two_le_microStepBound _ _
    rw [hcheck, seqCheckEnc, if_pos hdiv]
  · refine (h.raise_ends (by decide) ?_).inBound fun _ => two_le_microStepBound _ _
    rw [hcheck, seqCheckEnc, if_neg hdiv, if_pos hl]
  · refine (h.empty_ends hw hd ?_).inBound fun _ => two_le_microStepBound _ _
    rw [hcheck, seqCheckEnc, if_neg hdiv, if_neg hl, if_pos h0]
  · exact ((endsWithin_fault (seqRun_sizeStart_of_unwritten h0 hg)).step (hstart hdiv hl h0)).fault_inBound
  · obtain ⟨hcap, hcore⟩ | ⟨hfit, hcore⟩ := encodeCore_cases s.div.toNat gs s
    · rw [hcore]
      refine ((sizeStart_ends_of_tooLarge h0 hg hcap rfl).step (hstart hdiv hl h0)).inBound fun _ => ?_
      rw [hbound, complete_ngaps]; omega
    · rw [hcore]
      refine ((sizeStart_ends_of_fits hw hcmd h.noCode h0 hg hfit rfl).step (hstart hdiv hl h0)).inBound fun hp => ?_
      have hlen := encodeResult_strlen_toNat (s := s) hp hfit
      rw [hbound, complete_strlen, hlen, complete_ngaps, encodeResult_ngaps]; omega

/-- `EST_LOG` of `CMPR` hands the estimate over to `ENC_SIZE` (42_encoder.md R150). -/
theorem seqStep_sumDone_of_cmpr {S : Nat} (hc : seqCommand s = .ok .cmpr) :
    seqStep (sumDone S s) = .next (sizeStart (estDiv S s.ngaps.toNat) (sumDone S s)) := by
  have hcmd : seqCommand (sumDone S s) = .ok .cmpr := hc
  show Host.Outcome.next (seqEstLog (sumDone S s)) = _
  rw [seqEstLog, hcmd]
  rfl

theorem AtCheck.cmpr_ends (h : AtCheck c s) (hd : decode c = .ok .cmpr) : EndsInBound .cmpr s (execCmpr s) := by
  have hw : WritesPayload .cmpr := .inr (.inl rfl)
  have hcmd : seqCommand s = .ok .cmpr := h.command.trans hd
  have hcheck : seqCheck s = seqCheckCmpr s := by rw [seqCheck, hcmd]
  have hstart (hl : ¬gapsTooLong s) (h0 : s.ngaps.toNat ≠ 0) : seqStep s = .next (sumStart s) := by
    rw [h.step, hcheck, seqCheckCmpr, if_neg hl, if_neg h0]
    rfl
  obtain ⟨hl, hexec⟩ | ⟨hl, h0, hexec⟩ | ⟨hl, h0, hg, hexec⟩ | ⟨gs, hl, h0, hg, hS, hexec⟩ |
    ⟨gs, hl, h0, hg, hS, hexec⟩ := execCmpr_cases s
  all_goals rw [hexec]
  · refine (h.raise_ends (by decide) ?_).inBound fun _ => two_le_microStepBound _ _
    rw [hcheck, seqCheckCmpr, if_pos hl]
  · refine (h.empty_ends hw hd ?_).inBound fun _ => two_le_microStepBound _ _
    rw [hcheck, seqCheckCmpr, if_neg hl, if_pos h0]
  · exact ((endsWithin_fault (seqRun_sumStart_of_unwritten h0 hg)).step (hstart hl h0)).fault_inBound
  · have hsum := seqRun_sumStart h0 hg
    rw [if_pos hS] at hsum
    refine (((sumOverflow_ends _).run hsum).step (hstart hl h0)).inBound fun _ => ?_
    simp only [microStepBound, complete_ngaps]; omega
  · have hsum := seqRun_sumStart h0 hg
    rw [if_neg (Nat.not_le.2 hS)] at hsum
    have hlog := seqStep_sumDone_of_cmpr (S := gs.sum) hcmd
    obtain ⟨hcap, hcore⟩ | ⟨hfit, hcore⟩ := encodeCore_cases (estDiv gs.sum s.ngaps.toNat) gs s
    · rw [hcore]
      have hsize := sizeStart_ends_of_tooLarge (s := sumDone gs.sum s) (t := s) h0 hg hcap rfl
      refine (((hsize.step hlog).run hsum).step (hstart hl h0)).inBound fun _ => ?_
      simp only [microStepBound, complete_ngaps, sumDone]; omega
    · rw [hcore]
      have hsize := sizeStart_ends_of_fits (s := sumDone gs.sum s)
        (t := complete .success false (encodeResult (estDiv gs.sum s.ngaps.toNat) gs s)) hw hcmd h.noCode h0 hg hfit rfl
      refine (((hsize.step hlog).run hsum).step (hstart hl h0)).inBound fun hp => ?_
      have hlen := encodeResult_strlen_toNat (s := s) hp hfit
      simp only [microStepBound, complete_ngaps, complete_strlen, encodeResult_ngaps, hlen, sumDone]
      omega

end

/-- Settles O53: each command's run from `CHECK`, in the cases of its command-level meaning. -/
theorem sequencerRefinesEncoder : Obligations.SequencerRefinesEncoder := by
  unfold Obligations.SequencerRefinesEncoder
  intro c s hb hd
  have h := startCommand_atCheck c s
  obtain hd | hd | hd := hd
  · rw [runCommand_of_decode hb hd]
    exact (h.enc_ends (.inl rfl) hd).exists_run
  · rw [runCommand_of_decode hb hd]
    exact (h.cmpr_ends hd).exists_run
  · rw [runCommand_of_decode hb hd]
    exact (h.enc_ends (.inr rfl) hd).exists_run

end Sys2Proof.Machine
end

section
/-! PROOFS, family 43_decoder.md: `NOP` (R161), what `DEC` commits and how it ends (R160 to R169), the round trip (R181), and the
sequencer's run of `DEC` (R170, R171). -/

namespace Sys2Proof.Machine

variable {s t : State}

/-! ## `NOP` -/

/-- Settles O8: of the words that decode to a command only that of `NOP` has `OP = 0`, and `execNop` is `complete`. -/
theorem nopLeavesACleanStatus : Obligations.NopLeavesACleanStatus := by
  unfold Obligations.NopLeavesACleanStatus
  refine ⟨decode_encode .nop, fun c hop hc => ?_, fun s => rfl, fun s rest hw hi hb => ?_⟩
  · cases hd : decode c with
    | error err => exact ⟨err, rfl⟩
    | ok i =>
      obtain rfl := decode_ok_iff.1 hd
      cases i
      case nop => exact absurd rfl hc
      all_goals exact absurd hop (by decide)
  · have hclean : statusWord (statusCompleted .success false) = 0x00000002#32 := by decide
    exact ⟨_, step_of_command hw hi hb (decode_encode .nop), rfl, hclean, rfl⟩

/-! ## The decode loop counts and commits -/

/-- With no bits the loop ends at once (43_decoder.md R163). -/
theorem decodeLoop_empty (s : State) :
    decodeLoop s.strmem s.div.toNat 0 s.bitlen.toNat 1 (decodeStart s) = some (decodeStart s, .success) := rfl

/-- A codeword has at least one bit, so no more codewords are counted than bits are left. -/
theorem decodeLoop_cnt_le {m : Memory Byte} {d L N : Nat} (fuel : Nat) {run run' : DecodeRun} {e : ECode}
    (h : decodeLoop m d L N fuel run = some (run', e)) (hi : run.idx ≤ L) : run'.cnt + run.idx ≤ run.cnt + L := by
  induction fuel generalizing run with
  | zero =>
    cases h
    omega
  | succ fuel ih =>
    unfold decodeLoop at h
    cases hs : scanPrefix m L L run.idx 0 with
    | none => simp [hs] at h
    | some p =>
      obtain ⟨idx, q⟩ := p
      have hscan := scanPrefix_some _ _ _ hs
      simp only [hs] at h
      by_cases h1 : idx = L
      · rw [if_pos h1] at h
        cases h
        dsimp only
        omega
      by_cases h2 : L < idx + 1 + d
      · rw [if_neg h1, if_pos h2] at h
        cases h
        dsimp only
        omega
      rw [if_neg h1, if_neg h2] at h
      cases hr : readRemainder m (idx + 1) d with
      | none => simp [hr] at h
      | some r =>
        simp only [hr] at h
        by_cases h3 : N ≤ run.prefixSum + (q * 2 ^ d + r)
        · rw [if_pos h3] at h
          cases h
          dsimp only
          omega
        · rw [if_neg h3] at h
          have hnext := ih h (Nat.not_lt.1 h2)
          dsimp only at hnext
          omega

/-- A stream of an accepted configuration has fewer than `2^64` bits, so `COUNT` holds the count (00_scope.md R7). -/
theorem decodeResult_count_toNat {run : DecodeRun} {e : ECode} (hw : s.params.WF) (hstr : s.strlen.toNat ≤ s.params.strBytes)
    (h : decodeLoop s.strmem s.div.toNat (8 * s.strlen.toNat) s.bitlen.toNat (8 * s.strlen.toNat + 1) (decodeStart s)
      = some (run, e)) : (decodeResult run s).count.toNat = run.cnt := by
  obtain ⟨-, -, -, hcap, -, -⟩ := hw
  have hcnt : run.cnt + 0 ≤ 0 + 8 * s.strlen.toNat := decodeLoop_cnt_le _ h (Nat.zero_le _)
  rw [decodeResult_count, BitVec.toNat_ofNat, Nat.mod_eq_of_lt]
  norm_num at hcap
  omega

/-- A position is committed only below `N` (43_decoder.md R168). -/
theorem lt_of_mem_commitPositions {N p : Nat} (start : Nat) (deltas : List Nat) (e : ECode)
    (h : p ∈ (commitPositions N start deltas e).1) : p < N := by
  induction deltas generalizing start with
  | nil => cases h
  | cons delta rest ih =>
    rw [commitPositions] at h
    split_ifs at h with hN
    · cases h
    · rcases List.mem_cons.1 h with rfl | h
      · exact Nat.not_le.1 hN
      · exact ih _ h

theorem getBit_decodeStart {j : Nat} (hj : j < 8 * bitmapBytes s) : getBit (decodeStart s).bitmem j = some false := by
  rw [getBit_eq, read_decodeStart, if_pos (by omega)]
  simp

theorem decodeStart_epoch (s : State) : (decodeStart s).bitmem.epoch = s.bitmem.epoch := writeRange_epoch _ _ _

/-! ## What `DEC` does past its pre-checks -/

/-- Past its pre-checks `DEC` completes with what the loop answers; without a payload too, where the loop is not entered
(43_decoder.md R163). -/
theorem execDec_of_loop {run : DecodeRun} {e : ECode} (hdiv : s.div.toNat ≤ 63) (hstr : s.strlen.toNat ≤ s.params.strBytes)
    (hbm : bitmapBytes s ≤ s.params.bmBytes)
    (h : decodeLoop s.strmem s.div.toNat (8 * s.strlen.toNat) s.bitlen.toNat (8 * s.strlen.toNat + 1) (decodeStart s)
      = some (run, e)) : execDec s = .next (complete e (decide (s.strlen = 0)) (decodeResult run s)) := by
  have hd : ¬divTooLarge s := Nat.not_lt.2 hdiv
  have hl : ¬decodeTooLong s := not_or.2 ⟨Nat.not_lt.2 hstr, Nat.not_lt.2 hbm⟩
  by_cases h0 : s.strlen.toNat = 0
  · rw [h0] at h
    cases (decodeLoop_empty s).symm.trans h
    rw [execDec, if_neg hd, if_neg hl, if_pos h0, decide_eq_true ((word_eq_zero_iff _).2 h0)]
  · rw [execDec, if_neg hd, if_neg hl, if_neg h0, decide_eq_false (mt (word_eq_zero_iff _).1 h0)]
    dsimp only
    rw [h]

/-- Settles O27: the loop on a readable payload ends as the reference decoder does and has set the reference's positions. -/
theorem decodeCommitsTheStreamsPositions : Obligations.DecodeCommitsTheStreamsPositions := by
  unfold Obligations.DecodeCommitsTheStreamsPositions
  intro s bytes hw hdiv hstr hbm hpay
  obtain ⟨run, hloop, hcnt, hlast, hbits⟩ := decodeLoop_payload hpay
  have hkeeps := decodeLoop_keeps _ hloop
  have hinside : ∀ p ∈ (referenceDecode (bitsOf bytes) s.div.toNat s.bitlen.toNat).1, p < s.bitlen.toNat :=
    fun p hp => lt_of_mem_commitPositions _ _ _ hp
  generalize referenceDecode (bitsOf bytes) s.div.toNat s.bitlen.toNat = ref at hloop hcnt hlast hbits hinside ⊢
  refine ⟨_, execDec_of_loop hdiv hstr hbm hloop, rfl, ?_, ?_, hinside, fun j hj => ?_, fun k hk => ?_, ?_⟩
  · rw [complete_count, decodeResult_count_toNat hw hstr hloop, hcnt]
    exact Nat.zero_add _
  · have hpos : run.lastpos < 2 ^ 64 := by
      rw [hlast]
      rcases List.mem_cons.1 (List.getLastD_mem_cons (a := (decodeStart s).lastpos) (l := ref.1)) with hnone | hlast
      · rw [hnone]
        exact Nat.two_pow_pos 64
      · exact (hinside _ hlast).trans s.bitlen.isLt
    rw [complete_pos, decodeResult_pos, BitVec.toNat_ofNat, Nat.mod_eq_of_lt hpos, hlast]
    rfl
  · rw [complete_bitmem, decodeResult_bitmem, hbits, getBit_foldl_setBit, getBit_decodeStart hj, Option.map_some,
      Bool.false_or]
  · have hN : s.bitlen.toNat ≤ 8 * k := (le_mul_ceilDiv8 _).trans (Nat.mul_le_mul_left 8 hk)
    exact (hkeeps.outside k hN).trans ((read_decodeStart s k).trans (if_neg (Nat.not_lt.2 hk)))
  · exact hkeeps.epoch.trans (decodeStart_epoch s)

/-- Settles O28: with no payload `DEC` completes with the values the loop would start from. -/
theorem emptyPayloadDecodesToZeros : Obligations.EmptyPayloadDecodesToZeros := by
  unfold Obligations.EmptyPayloadDecodesToZeros
  intro s h0 hdiv hbm
  have hlen : s.strlen.toNat = 0 := (word_eq_zero_iff _).1 h0
  refine ⟨⟨complete .success true (decodeResult (decodeStart s) s), ?_, rfl, fun k hk => ?_, fun k hk => ?_⟩,
    decodeLoop_empty s⟩
  · have hexec := execDec_of_loop hdiv (hlen.trans_le (Nat.zero_le _)) hbm (by rw [hlen]; exact decodeLoop_empty s)
    rwa [decide_eq_true h0] at hexec
  · exact (read_decodeStart s k).trans (if_pos hk)
  · exact (read_decodeStart s k).trans (if_neg (Nat.not_lt.2 hk))

/-! ## Streams that begin with good codewords -/

/-- Codewords at the front of a stream are read back one by one, whatever follows them. -/
theorem streamDeltas_encBits_append (d : Nat) (gs : List Nat) (tail : List Bool) (fuel : Nat) :
    streamDeltas d (gs.length + fuel) (encBits gs d ++ tail)
      = (gs ++ (streamDeltas d fuel tail).1, (streamDeltas d fuel tail).2) := by
  induction gs with
  | nil => simp [encBits]
  | cons g gs ih =>
    rw [List.length_cons, Nat.add_right_comm, encBits_cons, List.append_assoc, streamDeltas_codeword, ih, List.cons_append]

/-- Deltas whose running sums are below `N` are all committed, and the next one starts from their sum. -/
theorem commitPositions_append {N : Nat} (start : Nat) {gs : List Nat} (rest : List Nat) (e : ECode)
    (h : ∀ p ∈ sumsFrom start gs, p < N) : commitPositions N start (gs ++ rest) e
      = (sumsFrom start gs ++ (commitPositions N (start + gs.sum) rest e).1,
          (commitPositions N (start + gs.sum) rest e).2) := by
  induction gs generalizing start with
  | nil => rfl
  | cons g gs ih =>
    rw [sumsFrom, List.forall_mem_cons] at h
    rw [List.cons_append, commitPositions, if_neg (Nat.not_le.2 h.1), ih _ h.2, List.sum_cons, Nat.add_assoc]
    rfl

/-- Read from position `start`, the bits `tail` commit nothing and end the decode with code `e`. -/
def StopsWith (d N start : Nat) (tail : List Bool) (e : ECode) : Prop :=
  ∀ fuel, commitPositions N start (streamDeltas d (fuel + 1) tail).1 (streamDeltas d (fuel + 1) tail).2 = ([], e)

section
variable {d N start : Nat}

/-- Zero bits up to the end (43_decoder.md R166). -/
theorem stopsWith_zeros (zeros : Nat) : StopsWith d N start (List.replicate zeros false) .success := by
  intro fuel
  rw [streamDeltas, splitUnary_zeros]
  rfl

/-- A terminator and too few bits after it (43_decoder.md R167). -/
theorem stopsWith_shortRemainder (q : Nat) {rest : List Bool} (h : rest.length < d) :
    StopsWith d N start (List.replicate q false ++ true :: rest) .trunc := by
  intro fuel
  rw [streamDeltas, splitUnary_replicate]
  dsimp only
  rw [if_pos h]
  rfl

/-- A codeword that leads to `N` or beyond, whatever follows it (43_decoder.md R168). -/
theorem stopsWith_outside {g : Nat} (rest : List Bool) (h : N ≤ start + g) :
    StopsWith d N start (codeword g d ++ rest) .range := by
  intro fuel
  rw [streamDeltas_codeword, commitPositions, if_pos h]

/-- Good codewords, then bits that stop the decode: the running sums are committed, no more. -/
theorem referenceDecode_of_stop {gs : List Nat} {tail : List Bool} {e : ECode} (hin : ∀ p ∈ runningSums gs, p < N)
    (hstop : StopsWith d N gs.sum tail e) : referenceDecode (encBits gs d ++ tail) d N = (runningSums gs, e) := by
  obtain ⟨fuel, hfuel⟩ : ∃ fuel, (encBits gs d ++ tail).length + 1 = gs.length + (fuel + 1) := by
    have hlen := length_le_totalBits gs d
    rw [← encBits_length] at hlen
    rw [List.length_append]
    exact ⟨(encBits gs d).length + tail.length - gs.length, by omega⟩
  rw [referenceDecode, hfuel, streamDeltas_encBits_append]
  dsimp only
  rw [commitPositions_append 0 _ _ hin, Nat.zero_add, hstop fuel, List.append_nil, runningSums]

end

/-- `DEC` of good codewords, then bits that stop the decode. -/
theorem exec_dec_of_stop {bytes : List Byte} {gs : List Nat} {tail : List Bool} {e : ECode} (hw : s.params.WF)
    (hdiv : s.div.toNat ≤ 63) (hstr : s.strlen.toNat ≤ s.params.strBytes) (hbm : bitmapBytes s ≤ s.params.bmBytes)
    (hpay : payloadOperand s = some bytes) (hbits : bitsOf bytes = encBits gs s.div.toNat ++ tail)
    (hin : ∀ p ∈ runningSums gs, p < s.bitlen.toNat) (hstop : StopsWith s.div.toNat s.bitlen.toNat gs.sum tail e) :
    ∃ t, exec .dec s = .next t ∧ t.status = statusCompleted e (decide (s.strlen = 0)) ∧ t.count.toNat = gs.length ∧
      t.pos.toNat = (runningSums gs).getLastD 0 ∧
      (∀ p, p < s.bitlen.toNat → getBit t.bitmem p = some (decide (p ∈ runningSums gs))) := by
  obtain ⟨t, hexec, ht, hcount, hpos, -, hrange, -⟩ :=
    decodeCommitsTheStreamsPositions s bytes hw hdiv hstr hbm hpay
  rw [hbits, referenceDecode_of_stop hin hstop] at ht hcount hpos hrange
  exact ⟨t, hexec, congrArg State.status ht, hcount.trans (length_sumsFrom 0 gs), hpos,
    fun p hp => hrange p (hp.trans_le (le_mul_ceilDiv8 _))⟩

/-- Settles O29: zeros stop the decode with success. -/
theorem exhaustedPrefixEndsTheDecode : Obligations.ExhaustedPrefixEndsTheDecode := by
  unfold Obligations.ExhaustedPrefixEndsTheDecode
  intro s bytes gs zeros hw hdiv hstr hbm hpay hbits hin
  obtain ⟨t, hexec, hst, hresults⟩ := exec_dec_of_stop hw hdiv hstr hbm hpay hbits hin (stopsWith_zeros zeros)
  exact ⟨t, hexec, congrArg Status.ecode hst, hresults⟩

/-- Settles O30: a short remainder field stops the decode with `E_TRUNC`. -/
theorem shortRemainderIsETrunc : Obligations.ShortRemainderIsETrunc := by
  unfold Obligations.ShortRemainderIsETrunc
  intro s bytes gs q rest hw hdiv hstr hbm hpay hbits hrest hin
  obtain ⟨t, hexec, hst, hresults⟩ :=
    exec_dec_of_stop hw hdiv hstr hbm hpay hbits hin (stopsWith_shortRemainder q hrest)
  exact ⟨t, hexec, hst.trans (statusCompleted_of_error (by decide) _), hresults⟩

/-- Settles O31: a codeword that leads outside the bitmap stops the decode with `E_RANGE`. -/
theorem positionOutsideIsERange : Obligations.PositionOutsideIsERange := by
  unfold Obligations.PositionOutsideIsERange
  intro s bytes gs g rest hw hdiv hstr hbm hpay hbits hin hout
  obtain ⟨t, hexec, hst, hresults⟩ := exec_dec_of_stop hw hdiv hstr hbm hpay hbits hin (stopsWith_outside rest hout)
  exact ⟨t, hexec, hst.trans (statusCompleted_of_error (by decide) _), hresults⟩

/-! ## The round trip -/

theorem getD_pack (bits : List Bool) {k : Nat} (h : k < ceilDiv8 bits.length) : (pack bits).getD k 0 = packByte bits k := by
  rw [List.getD_eq_getElem _ _ (by rwa [pack_length])]
  simp [pack]

theorem bitOf_pack (bits : List Bool) {j : Nat} (h : j < 8 * ceilDiv8 bits.length) :
    bitOf (pack bits) j = bits.getD j false := by
  rw [bitOf, getD_pack bits (by omega), getLsbD_packByte _ _ _ (Nat.mod_lt _ (by decide)), Nat.div_add_mod]

/-- Unpacked, a packed bit string ends in the zeros that fill its last byte (30_encoding.md R89). -/
theorem bitsOf_pack (bits : List Bool) :
    bitsOf (pack bits) = bits ++ List.replicate (8 * ceilDiv8 bits.length - bits.length) false := by
  have hlen : (bitsOf (pack bits)).length = 8 * ceilDiv8 bits.length := by rw [bitsOf_length, pack_length]
  have hle := le_mul_ceilDiv8 bits.length
  refine List.ext_getElem (by rw [hlen, List.length_append, List.length_replicate]; omega) fun j hj hj' => ?_
  rw [hlen] at hj
  have hbit : (bitsOf (pack bits))[j] = bits.getD j false := by
    simp only [bitsOf, List.getElem_map, List.getElem_range]
    exact bitOf_pack bits hj
  rw [hbit, List.getElem_append]
  split_ifs with hin
  · exact List.getD_eq_getElem _ _ hin
  · rw [List.getElem_replicate, List.getD_eq_default _ _ (Nat.not_lt.1 hin)]

theorem payload_nil (d : Nat) : payload [] d = [] := by
  simp [payload, encBits, pack, ceilDiv8]

section
variable {i : Instr} {gs : List Nat}

theorem encodeCore_of_success {d : Nat} (ht : encodeCore d gs s = .next t) (hok : t.status.ecode = .success) :
    ceilDiv8 (totalBits gs d) ≤ s.params.strBytes ∧ t = complete .success false (encodeResult d gs s) := by
  obtain ⟨-, hcore⟩ | ⟨hfit, hcore⟩ := encodeCore_cases d gs s
  all_goals cases hcore.symm.trans ht
  · cases hok
  · exact ⟨hfit, rfl⟩

/-- An encoder command that completes without error on at least one gap has encoded the gaps with its divisor. -/
theorem exists_encodesWith_of_success (hi : i = .enc ∨ i = .cmprO ∨ i = .cmpr) (h0 : s.ngaps.toNat ≠ 0)
    (hg : gapOperand s = some gs) (ht : exec i s = .next t) (hok : t.status.ecode = .success) :
    ∃ d, EncodesWith i s gs d ∧ encodeCore d gs s = .next t := by
  rw [← or_assoc] at hi
  obtain hi | rfl := hi
  · rw [exec_eq_encodeWithDiv hi] at ht
    obtain ⟨-, h⟩ | ⟨-, -, h⟩ | ⟨-, -, hn, -⟩ | ⟨-, -, -, hnone, -⟩ | ⟨gs', hdiv, -, -, hg', h⟩ := encodeWithDiv_cases s
    · cases h.symm.trans ht
      cases hok
    · cases h.symm.trans ht
      cases hok
    · exact absurd hn h0
    · cases hnone.symm.trans hg
    · cases hg'.symm.trans hg
      exact ⟨_, .inl ⟨hi, Nat.not_lt.1 hdiv, rfl⟩, h.symm.trans ht⟩
  · obtain ⟨-, h⟩ | ⟨-, hn, -⟩ | ⟨-, -, hnone, -⟩ | ⟨gs', -, -, -, -, h⟩ | ⟨gs', -, -, hg', hS, h⟩ := execCmpr_cases s
    · cases h.symm.trans ht
      cases hok
    · exact absurd hn h0
    · cases hnone.symm.trans hg
    · cases h.symm.trans ht
      cases hok
    · cases hg'.symm.trans hg
      exact ⟨_, .inr ⟨rfl, hS, rfl⟩, h.symm.trans ht⟩

/-- With no gap an encoder command that completes without error leaves an empty payload. -/
theorem strlen_of_empty_success (hi : WritesPayload i) (h0 : s.ngaps.toNat = 0) (ht : exec i s = .next t)
    (hok : t.status.ecode = .success) : t.strlen = 0 := by
  have hc := exec_completion ht
  cases hc
  case error he => exact absurd ((show _ = ECode.success from hok) ▸ he) (success_not_mem_errorCodes i)
  case noPayload => rfl
  case payload hn _ _ _ => exact absurd h0 hn
  all_goals simp [WritesPayload] at hi

/-- `STRMEM` after a successful encode reads as the payload of the gaps (42_encoder.md R149). -/
theorem payloadOperand_encodeResult {d : Nat} (hw : s.params.WF) (hfit : ceilDiv8 (totalBits gs d) ≤ s.params.strBytes) :
    payloadOperand (encodeResult d gs s) = some (payload gs d) := by
  rw [payloadOperand, encodeResult_strlen_toNat hw hfit, readRange_eq_some, payload, pack_length, encBits_length]
  refine ⟨rfl, fun k hk => ?_⟩
  rw [Nat.zero_add]
  exact read_emitStream_inside s.strmem d gs hk

/-- What an encoder command that completes without error leaves for `DEC`: the payload of its gaps with the divisor in `RDIV`,
which is `DIV` where the command has no estimate of its own; with no gap, no payload. -/
structure LeavesPayload (i : Instr) (s : State) (gs : List Nat) (t : State) : Prop where
  params : t.params = s.params
  fits : t.strlen.toNat ≤ s.params.strBytes
  divisor : i ≠ .cmpr → gs ≠ [] → t.rdiv = s.div
  payload : ∀ d, (gs ≠ [] → d = t.rdiv.toNat) → payloadOperand t = some (payload gs d)

theorem exec_leavesPayload (hi : i = .enc ∨ i = .cmprO ∨ i = .cmpr) (hw : s.params.WF) (hg : gapOperand s = some gs)
    (ht : exec i s = .next t) (hok : t.status.ecode = .success) : LeavesPayload i s gs t := by
  have hlen := gapOperand_length hg
  have hparams : t.params = s.params := (exec_completion ht).operands.1
  by_cases hnil : gs = []
  · subst hnil
    have hstr : t.strlen = 0 := strlen_of_empty_success (hi.imp_right Or.symm) hlen.symm ht hok
    refine ⟨hparams, by simp [hstr], fun _ h => absurd rfl h, fun d _ => ?_⟩
    rw [payloadOperand, hstr, payload_nil]
    rfl
  · have h0 : s.ngaps.toNat ≠ 0 := hlen ▸ mt List.length_eq_zero_iff.1 hnil
    obtain ⟨d, henc, hcore⟩ := exists_encodesWith_of_success hi h0 hg ht hok
    obtain ⟨hfit, rfl⟩ := encodeCore_of_success hcore hok
    have hrdiv : (BitVec.ofNat 8 d).toNat = d := toNat_ofNat_of_le_divMax (henc.le_divMax h0)
    refine ⟨hparams, (encodeResult_strlen_toNat hw hfit).trans_le hfit, fun hcmpr _ => ?_, fun d' hd' => ?_⟩
    · obtain ⟨-, -, rfl⟩ | ⟨rfl, -⟩ := henc
      · exact BitVec.eq_of_toNat_eq hrdiv
      · exact absurd rfl hcmpr
    · rw [hd' hnil]
      exact (payloadOperand_encodeResult hw hfit).trans (congrArg (some <| payload gs ·) hrdiv.symm)

end

/-- Settles O32: the encoder leaves the gaps' codewords and padding zeros, which `DEC` reads back, and the running sums of
a bitmap's gaps are its positions. -/
theorem roundTrip : Obligations.RoundTrip := by
  unfold Obligations.RoundTrip
  intro i b s t u hi hw hbm _ _ hg ht hok hparams hstrmem hstrlen hbitlen hdiv hrdiv
  have henc := exec_leavesPayload hi hw hg ht hok
  refine ⟨henc.divisor, ?_⟩
  have hup : u.params = s.params := hparams.trans henc.params
  have hpay : payloadOperand u = some (payload (gapsOf (positions b)) u.div.toNat) := by
    rw [payloadOperand, hstrmem, hstrlen]
    exact henc.payload _ fun hne => congrArg BitVec.toNat (hrdiv hne)
  have hsums : runningSums (gapsOf (positions b)) = positions b := runningSums_gapsOf (pairwise_lt_positions b)
  obtain ⟨v, hexec, hcode, hcount, hpos, hbits⟩ := exhaustedPrefixEndsTheDecode u _ (gapsOf (positions b)) _ (hup ▸ hw) hdiv
    (by rw [hstrlen, hup]; exact henc.fits) (by rw [bitmapBytes, hbitlen, hup]; exact hbm) hpay (bitsOf_pack _)
    (by rw [hsums, hbitlen]; exact fun p => lt_length_of_mem_positions)
  rw [hsums] at hpos hbits
  refine ⟨v, hexec, hcode, hcount, hpos, fun p hp => ?_⟩
  rw [hbits p (hbitlen ▸ hp), List.getElem?_eq_getElem hp]
  simp [mem_positions, hp]

/-! ## The phases of the decoder -/

/-- `DEC_ZERO` has zeroed the bitmap range, the divisor being `DIV`; the phase is the one it hands over to (43_decoder.md R170). -/
def bitmapZeroed (s : State) : State :=
  { s with
    phase := .decScan
    bitmem := s.bitmem.fill 0 (bitmapBytes s) 0
    seq := { s.seq with d := s.div.toNat, i := bitmapBytes s } }

/-- The phase of the state that the bitmap was zeroed in plays no part in what follows. -/
theorem seqAfterDecZero_phase (s : State) (p : Phase) : seqAfterDecZero { s with phase := p } = seqAfterDecZero s := by
  unfold seqAfterDecZero
  split <;> rfl

theorem seqAfterDecZero_bitmapZeroed (s : State) : seqAfterDecZero (bitmapZeroed s) =
    if s.strlen.toNat = 0 then seqToFinish true (bitmapZeroed s) else bitmapZeroed s := rfl

/-- `FINISH` of `DEC` writes `COUNT` and `POS`, on the run-time errors as on success (43_decoder.md R170). -/
theorem seqFinish_of_dec (hc : seqCommand s = .ok .dec) (he : s.seq.e = .success ∨ s.seq.e = .trunc ∨ s.seq.e = .range) :
    seqFinish s = complete s.seq.e s.seq.nd
      { s with count := BitVec.ofNat 64 s.seq.cnt, pos := BitVec.ofNat 64 s.seq.lastpos } := by
  unfold seqFinish seqResults
  rw [hc]
  rcases he with he | he | he <;> rw [he] <;> rfl

theorem AtFinish.command {run : DecodeRun} {e : ECode} {u : State} (h : AtFinish s run e u) : seqCommand u = seqCommand s := by
  rw [seqCommand, seqCommand, h.op, h.ovr, h.rsv]

/-- From where the loop ended, `FINISH` leaves the results of the command level. -/
theorem AtFinish.ends {run : DecodeRun} {e : ECode} {u : State} (h : AtFinish s run e u) (hc : seqCommand s = .ok .dec)
    (he : e = .success ∨ e = .trunc ∨ e = .range) (hv : visible (complete e false (decodeResult run s)) = visible t) :
    EndsWithin 1 u (.next t) := by
  have hphase : u.phase = .finish := congrArg State.phase h.state
  refine endsWithin_finish hphase (Eq.trans ?_ hv)
  rw [seqFinish_of_dec (h.command.trans hc) (by rwa [h.e]), h.e, h.nd, h.cnt, h.lastpos, h.state]
  rfl

/-! ## The sequencer's run of `DEC` -/

section
variable {c : BitVec 32}

/-- Past the pre-checks, `CHECK` and one micro-step for each byte of the bitmap zero its range. -/
theorem AtCheck.seqRun_decZero (h : AtCheck c s) (hd : decode c = .ok .dec) (hdiv : ¬divTooLarge s) (hlen : ¬decodeTooLong s) :
    seqRun (1 + bitmapBytes s) s = .next (seqAfterDecZero (bitmapZeroed s)) := by
  have hcheck : seqStep s = .next (seqCheckDec s) := by rw [h.step, seqCheck, h.command.trans hd]
  rw [seqCheckDec, if_neg hdiv, if_neg hlen] at hcheck
  have hstart := (seqRun_one s).trans hcheck
  by_cases hpos : 0 < bitmapBytes s
  · obtain ⟨m, hm⟩ := Nat.exists_add_one_eq.2 hpos
    dsimp only at hstart
    rw [if_pos hpos] at hstart
    rw [seqRun_add hstart, ← hm, decZero_run m _ rfl ((Nat.zero_add _).trans hm)]
    dsimp only
    rw [hm]
    exact congrArg _ (seqAfterDecZero_phase (bitmapZeroed s) .decZero)
  · have h0 : bitmapBytes s = 0 := Nat.eq_zero_of_not_pos hpos
    dsimp only at hstart
    rw [if_neg hpos] at hstart
    rw [h0, Nat.add_zero, hstart, ← seqAfterDecZero_phase (bitmapZeroed s) s.phase]
    simp only [bitmapZeroed, h0]
    rfl

theorem AtCheck.atRound (h : AtCheck c s) : AtRound (bitmapZeroed s) (decodeStart s) where
  phase := rfl
  idx := congrArg Seq.idx h.latched
  q := congrArg Seq.q h.latched
  prefixSum := congrArg Seq.prefixSum h.latched
  cnt := congrArg Seq.cnt h.latched
  lastpos := congrArg Seq.lastpos h.latched
  bitmem := rfl
  nd := congrArg Seq.nd h.latched
  e := h.noCode
  inside := Nat.zero_le _

/-- With no payload the hidden counters are still 0, and so are the results (43_decoder.md R163). -/
theorem AtCheck.noPayload_ends (h : AtCheck c s) (hd : decode c = .ok .dec) :
    EndsWithin 1 (seqToFinish true (bitmapZeroed s)) (.next (complete .success true (decodeResult (decodeStart s) s))) := by
  have hround := h.atRound
  have hcode : (seqToFinish true (bitmapZeroed s)).seq.e = .success := hround.e
  have hcnt : (seqToFinish true (bitmapZeroed s)).seq.cnt = 0 := hround.cnt
  have hlast : (seqToFinish true (bitmapZeroed s)).seq.lastpos = 0 := hround.lastpos
  refine endsWithin_finish rfl ?_
  rw [seqFinish_of_dec (s := seqToFinish true (bitmapZeroed s)) (h.command.trans hd) (.inl hcode), hcode, hcnt, hlast]
  rfl

theorem AtCheck.dec_ends (h : AtCheck c s) (hd : decode c = .ok .dec) : EndsInBound .dec s (execDec s) := by
  have hcmd : seqCommand s = .ok .dec := h.command.trans hd
  have hcheck : seqCheck s = seqCheckDec s := by rw [seqCheck, hcmd]
  obtain ⟨hdiv, hexec⟩ | ⟨hdiv, hlen, hexec⟩ | ⟨hdiv, hlen, h0, hexec⟩ | ⟨hdiv, hlen, h0, hloop, hexec⟩ |
    ⟨run, e, hdiv, hlen, h0, hloop, hexec⟩ := execDec_cases s
  all_goals rw [hexec]
  · refine (h.raise_ends (by decide) ?_).inBound fun _ => two_le_microStepBound _ _
    rw [hcheck, seqCheckDec, if_pos hdiv]
  · refine (h.raise_ends (by decide) ?_).inBound fun _ => two_le_microStepBound _ _
    rw [hcheck, seqCheckDec, if_neg hdiv, if_pos hlen]
  · have hzero := h.seqRun_decZero hd hdiv hlen
    rw [seqAfterDecZero_bitmapZeroed, if_pos h0] at hzero
    refine ((h.noPayload_ends hd).run hzero).inBound fun _ => ?_
    simp only [microStepBound, bitmapBytes, complete_bitlen, decodeResult_bitlen]
    omega
  · have hzero := h.seqRun_decZero hd hdiv hlen
    rw [seqAfterDecZero_bitmapZeroed, if_neg h0] at hzero
    obtain ⟨k, hk⟩ := decLoop_run_fault _ (bitmapZeroed s) (decodeStart s) h.atRound hloop
    exact ((endsWithin_fault hk).run hzero).fault_inBound
  · have hzero := h.seqRun_decZero hd hdiv hlen
    rw [seqAfterDecZero_bitmapZeroed, if_neg h0] at hzero
    obtain ⟨k, u, hk, hfin, -, hbound⟩ :=
      decLoop_run _ (bitmapZeroed s) (decodeStart s) run e h.atRound hloop (Nat.lt_succ_of_le (Nat.sub_le _ _))
    have hend := hfin.ends (t := complete e false (decodeResult run s)) hcmd (decodeLoop_keeps _ hloop).code rfl
    refine ((hend.run hk).run hzero).inBound fun hw => ?_
    have hcount := decodeResult_count_toNat (s := s) hw (Nat.not_lt.1 (not_or.1 hlen).1) hloop
    have hsteps : k ≤ 8 * s.strlen.toNat + run.cnt + 1 := hbound
    simp only [microStepBound, bitmapBytes, complete_bitlen, decodeResult_bitlen, complete_strlen, decodeResult_strlen,
      complete_count, hcount]
    omega

end

/-- Settles O54: the run from `CHECK`, in the cases of the command-level meaning. -/
theorem sequencerRefinesDecoder : Obligations.SequencerRefinesDecoder := by
  unfold Obligations.SequencerRefinesDecoder
  intro c s hb hd
  rw [runCommand_of_decode hb hd]
  exact ((startCommand_atCheck c s).dec_ends hd).exists_run

end Sys2Proof.Machine
end

section
/-! PROOFS, family 60_exceptions.md: the pre-checks (R193, R195), the overflow of the gap sum (R198), illegal command words
(R192), and what a command that ends with an error changes (R194, R196). -/

namespace Sys2Proof.Machine

variable {i : Instr} {s t : State}

/-! ## The codes a command ends with -/

theorem Completion.code (hc : Completion s i t) : CompletionCode i t.status.ecode := by
  obtain ⟨e, nd, hst, hcode, -⟩ := hc.status
  rw [hst]
  exact hcode

/-- `EST` and `CMPR` take no division parameter from `DIV`, so they have no `E_DIV` (60_exceptions.md R193). -/
theorem not_completionCode_div (hi : i = .est ∨ i = .cmpr) : ¬CompletionCode i .div := by
  rcases hi with rfl | rfl <;> simp [CompletionCode, errorCodes]

/-- Only `EST` and `CMPR` sum the gaps, so no other command has `E_OVF` (60_exceptions.md R198). -/
theorem not_completionCode_ovf (hest : i ≠ .est) (hcmpr : i ≠ .cmpr) : ¬CompletionCode i .ovf := by
  cases i
  case est => exact absurd rfl hest
  case cmpr => exact absurd rfl hcmpr
  all_goals simp [CompletionCode, errorCodes]

/-! ## Each check as an equation of the command -/

theorem exec_of_divTooLarge (hi : i = .estO ∨ i = .enc ∨ i = .cmprO ∨ i = .dec) (h : divTooLarge s) :
    exec i s = .next (complete .div false s) := by
  rcases hi with rfl | rfl | rfl | rfl
  · exact if_pos h
  · exact encodeWithDiv_of_divTooLarge h
  · exact encodeWithDiv_of_divTooLarge h
  · exact if_pos h

theorem encodeWithDiv_of_gapsTooLong (hd : ¬divTooLarge s) (h : gapsTooLong s) :
    encodeWithDiv s = .next (complete .len false s) := (if_neg hd).trans (if_pos h)

theorem exec_of_gapsTooLong (hi : i = .est ∨ WritesPayload i) (hd : i = .enc ∨ i = .cmprO → ¬divTooLarge s)
    (h : gapsTooLong s) : exec i s = .next (complete .len false s) := by
  rcases hi with rfl | rfl | rfl | rfl
  · exact execEst_of_tooLong h
  · exact encodeWithDiv_of_gapsTooLong (hd (.inl rfl)) h
  · exact if_pos h
  · exact encodeWithDiv_of_gapsTooLong (hd (.inr rfl)) h

theorem execDec_of_tooLong (hd : ¬divTooLarge s) (h : decodeTooLong s) : execDec s = .next (complete .len false s) :=
  (if_neg hd).trans (if_pos h)

theorem exec_of_gapSumOverflow {gs : List Nat} (hi : i = .est ∨ i = .cmpr) (hl : ¬gapsTooLong s) (h0 : s.ngaps.toNat ≠ 0)
    (hg : gapOperand s = some gs) (hS : 2 ^ Config.W ≤ gs.sum) : exec i s = .next (complete .ovf false s) := by
  rcases hi with rfl | rfl
  · exact (execEst_of_gaps hl h0 hg).trans (if_pos hS)
  · show execCmpr s = _
    rw [execCmpr, if_neg hl, if_neg h0, hg]
    exact if_pos hS

/-! ## A command that ends with an error -/

/-- A command ends with an error either before it writes a result, or as a `DEC` that stops within the stream. -/
theorem Completion.failed (hc : Completion s i t) (he : t.status.ecode ≠ .success) :
    (∃ e, t = complete e false s) ∨
      ∃ run e, (e = .trunc ∨ e = .range) ∧ t = complete e false (decodeResult run s) := by
  cases hc with
  | error => exact .inl ⟨_, rfl⟩
  | bitmap _ _ hk => exact .inr ⟨_, _, hk.code.resolve_left he, rfl⟩
  | nop | noEstimate | estimate | override | noPayload | payload | noBitmap => exact absurd rfl he

/-- Settles O36: without a result the state is the start's; the results of a stopped `DEC` are `BITMEM`, `COUNT` and `POS`. -/
theorem failedCommandsChangeOnlyStatus : Obligations.FailedCommandsChangeOnlyStatus := by
  unfold Obligations.FailedCommandsChangeOnlyStatus
  intro i s t ht he
  obtain ⟨e, rfl⟩ | ⟨run, e, hcode, rfl⟩ := (exec_completion ht).failed he
  · exact ⟨fun _ => rfl, rfl⟩
  · exact ⟨fun ⟨htrunc, hrange⟩ => absurd hcode (not_or.2 ⟨htrunc, hrange⟩), rfl⟩

/-- Settles O34: past the checks of `NGAPS` the sum is the next check; the gaps of a bitmap sum to its last position. -/
theorem gapSumOverflowIsEOvf : Obligations.GapSumOverflowIsEOvf := by
  unfold Obligations.GapSumOverflowIsEOvf
  refine ⟨fun i s gs hi hl hn hg hS => ?_, fun i s t hi ht hovf => ?_, fun b hb => ?_, rfl, rfl, rfl, rfl⟩
  · exact exec_of_gapSumOverflow hi (Nat.not_lt.2 hl) (mt (word_eq_zero_iff _).2 hn) hg hS
  · obtain ⟨hest, hcmpr⟩ : i ≠ .est ∧ i ≠ .cmpr := by rcases hi with rfl | rfl | rfl | rfl | rfl <;> decide
    exact not_completionCode_ovf hest hcmpr (hovf ▸ (exec_completion ht).code)
  · rcases gapsOf_positions_sum_lt b with hnil | hsum
    · rw [hnil]
      exact Nat.two_pow_pos 64
    · exact hsum.trans_le hb

/-! ## Pre-checks and illegal words -/

/-- Settles O33: the check of `DIV`, where there is one, is the first, and that of the length registers the next. -/
theorem preCheckErrors : Obligations.PreCheckErrors := by
  unfold Obligations.PreCheckErrors
  refine ⟨fun i s => exec_of_divTooLarge, rfl, fun s t ht => ?_, fun i s hi hd => ?_, fun s hd => ?_, rfl⟩
  · obtain ⟨i, hi, hexec⟩ : ∃ i, (i = .est ∨ i = .cmpr) ∧ exec i s = .next t :=
      ht.elim (⟨.est, .inl rfl, ·⟩) (⟨.cmpr, .inr rfl, ·⟩)
    obtain ⟨hnop, hdec⟩ : i ≠ .nop ∧ i ≠ .dec := by rcases hi with rfl | rfl <;> decide
    have hc := exec_completion hexec
    exact ⟨fun hdiv => not_completionCode_div hi (hdiv ▸ hc.code), hc.rdiv_le_divMax hnop hdec⟩
  · exact exec_of_gapsTooLong hi fun h => Nat.not_lt.2 (hd h)
  · exact execDec_of_tooLong (Nat.not_lt.2 hd)

/-- An illegal word is a command start and `raise E_CMD`, whatever the operands are (60_exceptions.md R192, R196). -/
theorem step_of_illegal_command {c : Nat} {rest : List Event} {err : DecodeError} (hw : s.params.WF)
    (hi : s.inputs = .command c :: rest) (hb : s.status.busy = false) (hd : decode (BitVec.ofNat 32 c) = .error err) :
    step s = .next (complete .cmd false (startCommand c { s with inputs := rest })) :=
  (step_of_input hw hi rfl).trans (runCommand_of_decode_error hb hd)

/-- Settles O5: the word starts a command that looks at no operand and is completed at once. -/
theorem illegalCommandCompletesWithECmd : Obligations.IllegalCommandCompletesWithECmd := by
  unfold Obligations.IllegalCommandCompletesWithECmd
  intro s c rest err hw hi hb hd
  have hword : statusWord (statusCompleted .cmd false) = 0x00000016#32 := by decide
  exact ⟨_, step_of_illegal_command hw hi hb hd, rfl, rfl, hword, rfl⟩

end Sys2Proof.Machine
end

section
/-! PROOFS, family 70_reset_and_hazards.md: commands with known operands complete (R223), reset (R220, R221), and the bound on a
command's micro-steps (R232). -/

namespace Sys2Proof.Machine

variable {i : Instr} {s : State}

/-! ## Commands with known operands -/

/-- An outcome is a next state, or a fault that needs operands that are not valid (70_reset_and_hazards.md R223). -/
def CompletesIf (ready : Prop) (o : Host.Outcome State Fault Refusal) : Prop :=
  (∃ t, o = .next t) ∨ ¬ready ∧ ∃ r, o = .fault r

section
variable {ready : Prop} {o : Host.Outcome State Fault Refusal}

theorem completesIf_next (t : State) : CompletesIf ready (.next t) := .inl ⟨t, rfl⟩

theorem completesIf_fault (h : ¬ready) (r : Fault) : CompletesIf ready (.fault r) := .inr ⟨h, r, rfl⟩

theorem CompletesIf.next (h : CompletesIf ready o) (hr : ready) : ∃ t, o = .next t :=
  h.resolve_right fun hfault => hfault.1 hr

theorem CompletesIf.ne_refused (h : CompletesIf ready o) (r : Refusal) : o ≠ .refused r := by
  obtain ⟨t, rfl⟩ | ⟨-, f, rfl⟩ := h
  · exact nofun
  · exact nofun

theorem encodeCore_completes (d : Nat) (gs : List Nat) (s : State) : CompletesIf ready (encodeCore d gs s) := by
  obtain ⟨-, hcore⟩ | ⟨-, hcore⟩ := encodeCore_cases d gs s
  all_goals rw [hcore]; exact completesIf_next _

end

theorem not_knownTo_of_gapOperand (hg : gapOperand s = none) : ¬s.gapmem.knownTo s.ngaps.toNat := fun hk => by
  obtain ⟨gs, hgs⟩ := gapOperand_isSome hk
  cases hg.symm.trans hgs

/-- On a readable payload the loop ends as the reference decoder does. -/
theorem not_knownTo_of_decodeLoop
    (h : decodeLoop s.strmem s.div.toNat (8 * s.strlen.toNat) s.bitlen.toNat (8 * s.strlen.toNat + 1) (decodeStart s) = none) :
    ¬s.strmem.knownTo s.strlen.toNat := fun hk => by
  obtain ⟨bytes, hpay⟩ := payloadOperand_isSome hk
  obtain ⟨run, hloop, -⟩ := decodeLoop_payload hpay
  cases h.symm.trans hloop

theorem execEst_completes (s : State) : CompletesIf (s.gapmem.knownTo s.ngaps.toNat) (execEst s) := by
  obtain ⟨-, hexec⟩ | ⟨-, -, hexec⟩ | ⟨-, -, hg, hexec⟩ | ⟨gs, -, -, -, -, hexec⟩ | ⟨gs, -, -, -, -, hexec⟩ :=
    execEst_cases s
  all_goals rw [hexec]
  · exact completesIf_next _
  · exact completesIf_next _
  · exact completesIf_fault (not_knownTo_of_gapOperand hg) _
  · exact completesIf_next _
  · exact completesIf_next _

theorem execEstO_completes (s : State) : CompletesIf True (execEstO s) := by
  obtain ⟨-, hexec⟩ | ⟨-, hexec⟩ := execEstO_cases s
  all_goals rw [hexec]; exact completesIf_next _

theorem encodeWithDiv_completes (s : State) : CompletesIf (s.gapmem.knownTo s.ngaps.toNat) (encodeWithDiv s) := by
  obtain ⟨-, hexec⟩ | ⟨-, -, hexec⟩ | ⟨-, -, -, hexec⟩ | ⟨-, -, -, hg, hexec⟩ | ⟨gs, -, -, -, -, hexec⟩ :=
    encodeWithDiv_cases s
  all_goals rw [hexec]
  · exact completesIf_next _
  · exact completesIf_next _
  · exact completesIf_next _
  · exact completesIf_fault (not_knownTo_of_gapOperand hg) _
  · exact encodeCore_completes _ _ _

theorem execCmpr_completes (s : State) : CompletesIf (s.gapmem.knownTo s.ngaps.toNat) (execCmpr s) := by
  obtain ⟨-, hexec⟩ | ⟨-, -, hexec⟩ | ⟨-, -, hg, hexec⟩ | ⟨gs, -, -, -, -, hexec⟩ | ⟨gs, -, -, -, -, hexec⟩ :=
    execCmpr_cases s
  all_goals rw [hexec]
  · exact completesIf_next _
  · exact completesIf_next _
  · exact completesIf_fault (not_knownTo_of_gapOperand hg) _
  · exact completesIf_next _
  · exact encodeCore_completes _ _ _

theorem execDec_completes (s : State) : CompletesIf (s.strmem.knownTo s.strlen.toNat) (execDec s) := by
  obtain ⟨-, hexec⟩ | ⟨-, -, hexec⟩ | ⟨-, -, -, hexec⟩ | ⟨-, -, -, hloop, hexec⟩ | ⟨run, e, -, -, -, -, hexec⟩ :=
    execDec_cases s
  all_goals rw [hexec]
  · exact completesIf_next _
  · exact completesIf_next _
  · exact completesIf_next _
  · exact completesIf_fault (not_knownTo_of_decodeLoop hloop) _
  · exact completesIf_next _

theorem exec_completes (i : Instr) (s : State) : CompletesIf (operandsReady i s) (exec i s) := by
  cases i with
  | nop => exact completesIf_next _
  | est => exact execEst_completes s
  | estO => exact execEstO_completes s
  | enc => exact encodeWithDiv_completes s
  | cmpr => exact execCmpr_completes s
  | cmprO => exact encodeWithDiv_completes s
  | dec => exact execDec_completes s

/-- After reset the length registers are 0, so no command has an operand in a buffer. -/
theorem operandsReady_reset (i : Instr) : operandsReady i State.reset := by
  cases i
  case nop | estO => trivial
  all_goals exact fun k hk => absurd hk (Nat.not_lt_zero k)

/-- Settles O39: a fault needs an operand that is not known, and there is no third answer. -/
theorem readyCommandsComplete : Obligations.ReadyCommandsComplete := by
  unfold Obligations.ReadyCommandsComplete
  exact ⟨fun i s hr => (exec_completes i s).next hr, fun i => (exec_completes i _).next (operandsReady_reset i),
    fun i s => (exec_completes i s).ne_refused⟩

/-! ## Reset -/

theorem resetBlock_idle (hb : s.status.busy = false) :
    resetBlock s = resetWith s.gapmem.forget s.strmem.forget s.bitmem.forget s.freeCtr s := if_neg (by simp [hb])

theorem resetBlock_busy (hb : s.status.busy = true) : resetBlock s = abortCommand s := if_pos hb

/-- The output range of an encoder command is all of `STRMEM` (70_reset_and_hazards.md R221). -/
theorem abortCommand_of_encoder (hc : seqCommand s = .ok .enc ∨ seqCommand s = .ok .cmpr ∨ seqCommand s = .ok .cmprO) :
    abortCommand s = resetWith s.gapmem s.strmem.forget s.bitmem s.freeCtr s := by
  rw [abortCommand]
  rcases hc with hc | hc | hc <;> rw [hc]

/-- The output range of `DEC` is that of the bitmap, cut at the buffer's end. -/
theorem abortCommand_of_dec (hc : seqCommand s = .ok .dec) : abortCommand s =
    resetWith s.gapmem s.strmem (s.bitmem.writeRange 0 (freeValues Config.freeByte s.freeCtr (abortedBytes s)))
      (s.freeCtr + abortedBytes s) s := by
  rw [abortCommand, hc]

/-- The other commands and an illegal word have no output range. -/
theorem abortCommand_of_noOutput (hc : seqCommand s = .ok .nop ∨ seqCommand s = .ok .est ∨ seqCommand s = .ok .estO ∨
    ∃ err, seqCommand s = .error err) : abortCommand s = resetWith s.gapmem s.strmem s.bitmem s.freeCtr s := by
  rw [abortCommand]
  rcases hc with hc | hc | hc | ⟨err, hc⟩ <;> rw [hc]

/-- Whatever is in flight, a reset during it keeps `GAPMEM`. -/
theorem abortCommand_eq_resetWith (s : State) : ∃ strmem bitmem freeCtr,
    abortCommand s = resetWith s.gapmem strmem bitmem freeCtr s := by
  unfold abortCommand
  split <;> exact ⟨_, _, _, rfl⟩

theorem abortCommand_gapmem (s : State) : (abortCommand s).gapmem = s.gapmem := by
  obtain ⟨strmem, bitmem, freeCtr, habort⟩ := abortCommand_eq_resetWith s
  rw [habort]
  rfl

/-- Past its range the bitmap of an aborted `DEC` is as before. -/
theorem read_abortedBitmap {k : Nat} (hk : bitmapBytes s ≤ k) (ctr : Nat) :
    (s.bitmem.writeRange 0 (freeValues Config.freeByte ctr (abortedBytes s))).read k = s.bitmem.read k := by
  have hlen : (freeValues Config.freeByte ctr (abortedBytes s)).length = min (bitmapBytes s) s.params.bmBytes := by
    simp [freeValues, abortedBytes]
  rw [read_writeRange, if_neg (by omega)]

/-- Idle or busy, a reset leaves every register, the phase and the hidden registers at their reset values (10_state.md R42). -/
theorem resetBlock_registers (s : State) : resetBlock s =
    { State.reset with
      params := s.params
      gapmem := (resetBlock s).gapmem
      strmem := (resetBlock s).strmem
      bitmem := (resetBlock s).bitmem
      inputs := s.inputs
      rdata := s.rdata
      freeCtr := (resetBlock s).freeCtr } := by
  cases hb : s.status.busy
  · rw [resetBlock_idle hb]
    rfl
  · obtain ⟨strmem, bitmem, freeCtr, habort⟩ := abortCommand_eq_resetWith s
    rw [resetBlock_busy hb, habort]
    rfl

/-- Settles O48: idle, the reset forgets all buffers; busy, the command in flight says which cells are lost. -/
theorem resetAtAnyTime : Obligations.ResetAtAnyTime := by
  unfold Obligations.ResetAtAnyTime
  intro s rest hw hi
  refine ⟨resetBlock { s with inputs := rest }, step_of_input hw hi rfl, resetBlock_registers _, fun hb k => ?_, fun hb => ?_⟩
  · rw [resetBlock_idle (s := { s with inputs := rest }) hb]
    exact ⟨rfl, rfl, rfl⟩
  rw [resetBlock_busy (s := { s with inputs := rest }) hb]
  refine ⟨abortCommand_gapmem _, fun hc => ?_, fun hc => ?_, fun hc => ?_⟩
  · rw [abortCommand_of_encoder (s := { s with inputs := rest }) hc]
    exact ⟨rfl, fun k => rfl⟩
  · rw [abortCommand_of_dec (s := { s with inputs := rest }) hc]
    exact ⟨rfl, fun k hk => read_abortedBitmap hk s.freeCtr⟩
  · rw [abortCommand_of_noOutput (s := { s with inputs := rest }) hc]
    exact ⟨rfl, rfl⟩

/-! ## The bound on a command's micro-steps -/

section
variable {t : State} {n : Nat}

/-- A run that ends as a completion state says ends in a state that looks the same. -/
theorem EndsWithin.exists_next (h : EndsWithin n s (.next t)) :
    ∃ k u, k ≤ n ∧ seqRun k s = .next u ∧ visible u = visible t := by
  obtain ⟨k, hk, hv⟩ := h
  cases hr : seqRun k s with
  | next u => exact ⟨k, u, hk, hr, by rwa [hr] at hv⟩
  | fault r => rw [hr] at hv; exact hv.elim
  | refused r => rw [hr] at hv; exact hv.elim

/-- From `CHECK` every command ends as the command level says, within its bound. -/
theorem AtCheck.exec_ends {c : BitVec 32} (h : AtCheck c s) (hd : decode c = .ok i) : EndsInBound i s (exec i s) := by
  cases i with
  | nop => exact ⟨2, h.nop_ends hd, fun _ _ _ => le_rfl⟩
  | estO => exact ⟨2, h.estO_ends hd, fun _ _ _ => le_rfl⟩
  | est =>
    refine ⟨s.ngaps.toNat + 3, h.est_ends hd, fun t ht _ => ?_⟩
    obtain ⟨-, -, -, hngaps, -⟩ := (exec_completion ht).operands
    rw [microStepBound, hngaps]
  | enc => exact h.enc_ends (.inl rfl) hd
  | cmpr => exact h.cmpr_ends hd
  | cmprO => exact h.enc_ends (.inr rfl) hd
  | dec => exact h.dec_ends hd

end

/-- Settles O55: the run from `CHECK`, where a command start leaves the block; completion keeps the configuration. -/
theorem commandsCompleteWithinTheBound : Obligations.CommandsCompleteWithinTheBound := by
  unfold Obligations.CommandsCompleteWithinTheBound
  intro c i s t hw hb hd ht
  rw [runCommand_of_decode hb hd] at ht
  obtain ⟨n, hn, hbound⟩ := (startCommand_atCheck c s).exec_ends hd
  rw [ht] at hn
  obtain ⟨k, u, hk, hrun, hv⟩ := hn.exists_next
  obtain ⟨hparams, -⟩ := (exec_completion ht).operands
  exact ⟨k, u, hk.trans (hbound t ht (hparams ▸ hw)), hrun, hv⟩

end Sys2Proof.Machine
end
